-- ==== Sys2Proof/Word.lean ====
section
/-! DEFINITION. The word types of the unit: limbs, single- and double-width values, window offsets (spec/00_scope.md R6, R9; spec/20_memory.md R61). -/

namespace Sys2Proof

/-- One 32-bit limb, which is also one transfer of the host port (R6, R62). -/
abbrev Word := BitVec 32

/-- The value of a FixedInt: an integer in [0, 2^256) (R6). -/
abbrev U256 := BitVec 256

/-- The value of a DoubleWidth: an integer in [0, 2^512) (R6). -/
abbrev U512 := BitVec 512

/-- A byte offset in the 4096-byte window (R61). -/
abbrev Offset := BitVec 12

end Sys2Proof
end

