-- ==== Sys2Proof/Config.lean ====
section
/-! DEFINITION. What is fixed for the unit (the ROM constants, the identification word) and the free values the spec leaves undetermined (spec/00_scope.md R8, R11; spec/10_state.md R30, R31, R40). -/

namespace Sys2Proof.Config

/-- The field prime p = 2^256 - 2^224 + 2^192 + 2^96 - 1 (R8). -/
def p : Nat := 0xFFFFFFFF00000001000000000000000000000000FFFFFFFFFFFFFFFFFFFFFFFF

/-- The x coordinate of the base point G (R30; the spec marks it general knowledge, log entry 9). -/
def gx : Nat := 0x6B17D1F2E12C4247F8BCE6E563A440F277037D812DEB33A0F4A13945D898C296

/-- The y coordinate of the base point G (R30; log entry 9). -/
def gy : Nat := 0x4FE342E2FE1A7F9B8EE7EB4A7C0F9E162BCE33576B315ECECBB6406837BF51F5

/-- The curve coefficient b (R30; log entry 9). No command reads it. -/
def b : Nat := 0x5AC635D8AA3A93E7B3EBBD55769886BC651D06B0CC53B0F63BCE3C3E27D2604B

/-- The order n of G (R30; log entry 9). No command reads it. -/
def n : Nat := 0xFFFFFFFF00000000FFFFFFFFFFFFFFFFBCE6FAADA7179E84F3B9CAC2FC632551

/-- P' = -p^(-1) mod 2^256 (R31). -/
def pprime : Nat := 0xFFFFFFFF00000002000000000000000000000001000000000000000000000001

/-- R mod p = 2^256 mod p (R31). -/
def rmodp : Nat := 0x00000000FFFFFFFEFFFFFFFFFFFFFFFFFFFFFFFF000000000000000000000001

/-- R^2 mod p = 2^512 mod p (R31). -/
def r2modp : Nat := 0x00000004FFFFFFFDFFFFFFFFFFFFFFFEFFFFFFFBFFFFFFFF0000000000000003

/-- The identification word (R40). -/
def idWord : Word := 0xECC25601#32

/-! The draws, `UNSPECIFIED(n)` of R11. The first argument is the value of one of the state's two draw counters (log entry 1), which every
drawing operation advances, so that two draws need not agree; the second says which field of one operation's draw it
is. None has a body: nothing can be proved of a value (log entry 1). -/

/-- A 32-bit draw: a data register word read while BUSY = 1 (R73). -/
opaque draw32 : Nat → Word

/-- A 256-bit draw (R26, R50, R247). -/
opaque draw256 : Nat → Nat → U256

/-- A 512-bit draw: a DoubleWidth register after a reset (R50). -/
opaque draw512 : Nat → Nat → U512

/-- A one-bit draw: an inf bit after a reset or out of domain (R50, R247). -/
opaque drawBit : Nat → Nat → Bool

/-- Whether a class H command issued out of domain never completes, where no rule says which happens (R247; log entry 5). -/
opaque neverCompletes : Nat → Bool

/-- Whether FRED draws on a value that is no product of two reduced operands (R126, R247; log entry 6). -/
opaque fredMayDraw : Nat → Bool

end Sys2Proof.Config
end

