-- ==== Sys2Proof/Syntax.lean ====
section
/-! DEFINITION. The 24 commands as syntax, one constructor per row of spec/opcode_table.json (spec/30_encoding.md R95). -/

namespace Sys2Proof

/-- An index into the FixedInt file F0 to F7 (R21). -/
abbrev FReg := Fin 8

/-- An index into the DoubleWidth file W0 to W7 (R24). -/
abbrev WReg := Fin 8

/-- An index into the AffinePoint file A0 to A7 (R25). -/
abbrev AReg := Fin 8

/-- An index into the JacobianPoint file J0 to J7 (R28). -/
abbrev JReg := Fin 8

/-- A command. Operands stand destination first, then RS1, then RS2 (R98); a field the command does not use is absent (R91). -/
inductive Instr where
  /-- CMP Fs1, Fs2 (R111) -/
  | cmp (rs1 rs2 : FReg)
  /-- SHR1 Fd, Fs1 (R112) -/
  | shr1 (rd rs1 : FReg)
  /-- ADD Fd, Fs1, Fs2 (R113) -/
  | add (rd rs1 rs2 : FReg)
  /-- SUB Fd, Fs1, Fs2 (R114) -/
  | sub (rd rs1 rs2 : FReg)
  /-- ADDMOD Fd, Fs1, Fs2 (R121) -/
  | addmod (rd rs1 rs2 : FReg)
  /-- SUBMOD Fd, Fs1, Fs2 (R122) -/
  | submod (rd rs1 rs2 : FReg)
  /-- MULFULL Wd, Fs1, Fs2 (R123) -/
  | mulfull (rd : WReg) (rs1 rs2 : FReg)
  /-- MULFULLPS Wd, Fs1, Fs2 (R124) -/
  | mulfullps (rd : WReg) (rs1 rs2 : FReg)
  /-- SQRFULL Wd, Fs1 (R125) -/
  | sqrfull (rd : WReg) (rs1 : FReg)
  /-- FRED Fd, Ws1 (R126) -/
  | fred (rd : FReg) (rs1 : WReg)
  /-- MONTRED Fd, Ws1 (R141) -/
  | montred (rd : FReg) (rs1 : WReg)
  /-- MULMOD Fd, Fs1, Fs2 (R142) -/
  | mulmod (rd rs1 rs2 : FReg)
  /-- SQRMOD Fd, Fs1 (R143) -/
  | sqrmod (rd rs1 : FReg)
  /-- INV Fd, Fs1 (R145) -/
  | inv (rd rs1 : FReg)
  /-- A2J Jd, As1 (R160) -/
  | a2j (rd : JReg) (rs1 : AReg)
  /-- J2A Ad, Js1 (R161) -/
  | j2a (rd : AReg) (rs1 : JReg)
  /-- ADDAFF Ad, As1, As2 (R171) -/
  | addaff (rd rs1 rs2 : AReg)
  /-- DBLAFF Ad, As1 (R172) -/
  | dblaff (rd rs1 : AReg)
  /-- DBLJ Jd, Js1 (R173) -/
  | dblj (rd rs1 : JReg)
  /-- ADDJA Jd, Js1, As2 (R174) -/
  | addja (rd rs1 : JReg) (rs2 : AReg)
  /-- SMULLTR Ad, Fs1, As2 (R191) -/
  | smulltr (rd : AReg) (rs1 : FReg) (rs2 : AReg)
  /-- SMULRTL Ad, Fs1, As2 (R192) -/
  | smulrtl (rd : AReg) (rs1 : FReg) (rs2 : AReg)
  /-- SMULWIN Ad, Fs1 (R193) -/
  | smulwin (rd : AReg) (rs1 : FReg)
  /-- SMULBIT Ad, Fs1 (R194) -/
  | smulbit (rd : AReg) (rs1 : FReg)
deriving DecidableEq, Repr

end Sys2Proof
end

