-- ==== Sys2Proof/WellFormed.lean ====
section
/-! DEFINITION. Which terms are well formed: commands (every index names one of the eight registers of its file, spec/30_encoding.md R97), command fields before they are indices, and host accesses (spec/20_memory.md R62). -/

namespace Sys2Proof

/-- The register indices a command names, destination first (R91). -/
def Instr.operands : Instr → List Nat
  | .cmp a b => [a, b]
  | .shr1 d a => [d, a]
  | .add d a b => [d, a, b]
  | .sub d a b => [d, a, b]
  | .addmod d a b => [d, a, b]
  | .submod d a b => [d, a, b]
  | .mulfull d a b => [d, a, b]
  | .mulfullps d a b => [d, a, b]
  | .sqrfull d a => [d, a]
  | .fred d a => [d, a]
  | .montred d a => [d, a]
  | .mulmod d a b => [d, a, b]
  | .sqrmod d a => [d, a]
  | .inv d a => [d, a]
  | .a2j d a => [d, a]
  | .j2a d a => [d, a]
  | .addaff d a b => [d, a, b]
  | .dblaff d a => [d, a]
  | .dblj d a => [d, a]
  | .addja d a b => [d, a, b]
  | .smulltr d a b => [d, a, b]
  | .smulrtl d a b => [d, a, b]
  | .smulwin d a => [d, a]
  | .smulbit d a => [d, a]

/-- An index as it stands in a command field must name one of the eight registers: a four-bit digit of the command
word whose top bit is 1 is no index (R91: bits 23, 19 and 15 must be 0). -/
def indexWellFormed (i : Nat) : Bool := i < 8

/-- A command is well formed when all its indices are. The type of the constructors already holds this of every
command (R97: "All register indices 0..7 are legal in every register field"), which Laws/Encoding.lean proves once. -/
def Instr.wellFormed (i : Instr) : Bool := i.operands.all indexWellFormed

/-- The only access the host port can express is an aligned 32-bit word (R62). -/
def accessWellFormed (off : Offset) (size : Nat) : Bool := size == 4 && off.toNat % 4 == 0

end Sys2Proof
end

