-- ==== Sys2Proof/Decode.lean ====
section
/-! DEFINITION. The command word: decoder (total on every 32-bit word, rejecting by name), encoder, the table of masks and matches, and the assembler text (spec/30_encoding.md R90 to R98). -/

namespace Sys2Proof

/-- Why a word is illegal (R97). -/
inductive Reject where
  /-- bits 31:24 are none of the 24 opcodes of R95 -/
  | unknownOpcode
  /-- a legal opcode with a 1 in a must-be-zero bit of its format (R92) -/
  | mustBeZero
deriving DecidableEq, Repr

/-- The three formats (R92). -/
inductive Format where
  | r3
  | r2
  | c2
deriving DecidableEq, Repr

/-- The mask of a format: the opcode and every bit that must be 0 (R92). -/
def Format.mask : Format → Word
  | .r3 => 0xFF888FFF#32
  | .r2 => 0xFF88FFFF#32
  | .c2 => 0xFFF88FFF#32

/-- OPC, bits 31:24 (R91). -/
def opcOf (w : Word) : Nat := w.toNat / 2 ^ 24

/-- RD, bits 22:20 (R91). -/
def rdOf (w : Word) : Fin 8 := Fin.ofNat 8 (w.toNat / 2 ^ 20)

/-- RS1, bits 18:16 (R91). -/
def rs1Of (w : Word) : Fin 8 := Fin.ofNat 8 (w.toNat / 2 ^ 16)

/-- RS2, bits 14:12 (R91). -/
def rs2Of (w : Word) : Fin 8 := Fin.ofNat 8 (w.toNat / 2 ^ 12)

/-- OPC · 2^24, the match of an opcode (R92). -/
def matchOf (opc : Nat) : Word := BitVec.ofNat 32 (opc * 2 ^ 24)

/-- The format test of R96: (w AND mask) = OPC · 2^24. -/
def checkFormat (fmt : Format) (w : Word) (i : Instr) : Except Reject Instr :=
  if w &&& fmt.mask = matchOf (opcOf w) then .ok i else .error .mustBeZero

/-- The decode procedure (R96): the opcode selects the command and its format, then the format test decides. -/
def decodeWord (w : Word) : Except Reject Instr :=
  match opcOf w with
  | 0x10 => checkFormat .c2 w (.cmp (rs1Of w) (rs2Of w))
  | 0x11 => checkFormat .r2 w (.shr1 (rdOf w) (rs1Of w))
  | 0x12 => checkFormat .r3 w (.add (rdOf w) (rs1Of w) (rs2Of w))
  | 0x13 => checkFormat .r3 w (.sub (rdOf w) (rs1Of w) (rs2Of w))
  | 0x20 => checkFormat .r3 w (.addmod (rdOf w) (rs1Of w) (rs2Of w))
  | 0x21 => checkFormat .r3 w (.submod (rdOf w) (rs1Of w) (rs2Of w))
  | 0x22 => checkFormat .r3 w (.mulfull (rdOf w) (rs1Of w) (rs2Of w))
  | 0x23 => checkFormat .r3 w (.mulfullps (rdOf w) (rs1Of w) (rs2Of w))
  | 0x24 => checkFormat .r2 w (.sqrfull (rdOf w) (rs1Of w))
  | 0x25 => checkFormat .r2 w (.fred (rdOf w) (rs1Of w))
  | 0x26 => checkFormat .r2 w (.montred (rdOf w) (rs1Of w))
  | 0x27 => checkFormat .r3 w (.mulmod (rdOf w) (rs1Of w) (rs2Of w))
  | 0x28 => checkFormat .r2 w (.sqrmod (rdOf w) (rs1Of w))
  | 0x29 => checkFormat .r2 w (.inv (rdOf w) (rs1Of w))
  | 0x30 => checkFormat .r2 w (.a2j (rdOf w) (rs1Of w))
  | 0x31 => checkFormat .r2 w (.j2a (rdOf w) (rs1Of w))
  | 0x40 => checkFormat .r3 w (.addaff (rdOf w) (rs1Of w) (rs2Of w))
  | 0x41 => checkFormat .r2 w (.dblaff (rdOf w) (rs1Of w))
  | 0x42 => checkFormat .r2 w (.dblj (rdOf w) (rs1Of w))
  | 0x43 => checkFormat .r3 w (.addja (rdOf w) (rs1Of w) (rs2Of w))
  | 0x50 => checkFormat .r3 w (.smulltr (rdOf w) (rs1Of w) (rs2Of w))
  | 0x51 => checkFormat .r3 w (.smulrtl (rdOf w) (rs1Of w) (rs2Of w))
  | 0x52 => checkFormat .r2 w (.smulwin (rdOf w) (rs1Of w))
  | 0x53 => checkFormat .r2 w (.smulbit (rdOf w) (rs1Of w))
  | _ => .error .unknownOpcode

/-- The decoder on a table word: bit 0 is the least significant bit of the one 32-bit word, the bits from `nbits` up
are 0, and a word above 32 bits is no command (R90). -/
def decodeTableWord (nbits w : Nat) : Option Instr :=
  let v := w % 2 ^ nbits
  if v < 2 ^ 32 then (decodeWord (BitVec.ofNat 32 v)).toOption else none

/-- The opcode and the format of a command (R95). -/
def Instr.row : Instr → Nat × Format
  | .cmp .. => (0x10, .c2)
  | .shr1 .. => (0x11, .r2)
  | .add .. => (0x12, .r3)
  | .sub .. => (0x13, .r3)
  | .addmod .. => (0x20, .r3)
  | .submod .. => (0x21, .r3)
  | .mulfull .. => (0x22, .r3)
  | .mulfullps .. => (0x23, .r3)
  | .sqrfull .. => (0x24, .r2)
  | .fred .. => (0x25, .r2)
  | .montred .. => (0x26, .r2)
  | .mulmod .. => (0x27, .r3)
  | .sqrmod .. => (0x28, .r2)
  | .inv .. => (0x29, .r2)
  | .a2j .. => (0x30, .r2)
  | .j2a .. => (0x31, .r2)
  | .addaff .. => (0x40, .r3)
  | .dblaff .. => (0x41, .r2)
  | .dblj .. => (0x42, .r2)
  | .addja .. => (0x43, .r3)
  | .smulltr .. => (0x50, .r3)
  | .smulrtl .. => (0x51, .r3)
  | .smulwin .. => (0x52, .r2)
  | .smulbit .. => (0x53, .r2)

/-- The opcode map of R95 as (opcode, format) rows, in the table's order. -/
def opcodeRows : List (Nat × Format) :=
  [(0x10, .c2), (0x11, .r2), (0x12, .r3), (0x13, .r3), (0x20, .r3), (0x21, .r3), (0x22, .r3), (0x23, .r3),
   (0x24, .r2), (0x25, .r2), (0x26, .r2), (0x27, .r3), (0x28, .r2), (0x29, .r2), (0x30, .r2), (0x31, .r2),
   (0x40, .r3), (0x41, .r2), (0x42, .r2), (0x43, .r3), (0x50, .r3), (0x51, .r3), (0x52, .r2), (0x53, .r2)]

/-- word = OPC·2^24 + RD·2^20 + RS1·2^16 + RS2·2^12 (R91). -/
def packWord (opc rd rs1 rs2 : Nat) : Word :=
  BitVec.ofNat 32 (opc * 2 ^ 24 + rd * 2 ^ 20 + rs1 * 2 ^ 16 + rs2 * 2 ^ 12)

/-- The command word of a command; a field the command does not use is 0 (R91). -/
def encode : Instr → Word
  | .cmp a b => packWord 0x10 0 a b
  | .shr1 d a => packWord 0x11 d a 0
  | .add d a b => packWord 0x12 d a b
  | .sub d a b => packWord 0x13 d a b
  | .addmod d a b => packWord 0x20 d a b
  | .submod d a b => packWord 0x21 d a b
  | .mulfull d a b => packWord 0x22 d a b
  | .mulfullps d a b => packWord 0x23 d a b
  | .sqrfull d a => packWord 0x24 d a 0
  | .fred d a => packWord 0x25 d a 0
  | .montred d a => packWord 0x26 d a 0
  | .mulmod d a b => packWord 0x27 d a b
  | .sqrmod d a => packWord 0x28 d a 0
  | .inv d a => packWord 0x29 d a 0
  | .a2j d a => packWord 0x30 d a 0
  | .j2a d a => packWord 0x31 d a 0
  | .addaff d a b => packWord 0x40 d a b
  | .dblaff d a => packWord 0x41 d a 0
  | .dblj d a => packWord 0x42 d a 0
  | .addja d a b => packWord 0x43 d a b
  | .smulltr d a b => packWord 0x50 d a b
  | .smulrtl d a b => packWord 0x51 d a b
  | .smulwin d a => packWord 0x52 d a 0
  | .smulbit d a => packWord 0x53 d a 0

/-- A register as the assembler writes it: the letter of its file and its index (R98). -/
def regText (file : String) (i : Fin 8) : String := file ++ toString i.val

/-- A command as the assembler writes it, destination first, operands separated by commas (R98). -/
def Instr.asm : Instr → String
  | .cmp a b => "CMP " ++ regText "F" a ++ ", " ++ regText "F" b
  | .shr1 d a => "SHR1 " ++ regText "F" d ++ ", " ++ regText "F" a
  | .add d a b => "ADD " ++ regText "F" d ++ ", " ++ regText "F" a ++ ", " ++ regText "F" b
  | .sub d a b => "SUB " ++ regText "F" d ++ ", " ++ regText "F" a ++ ", " ++ regText "F" b
  | .addmod d a b => "ADDMOD " ++ regText "F" d ++ ", " ++ regText "F" a ++ ", " ++ regText "F" b
  | .submod d a b => "SUBMOD " ++ regText "F" d ++ ", " ++ regText "F" a ++ ", " ++ regText "F" b
  | .mulfull d a b => "MULFULL " ++ regText "W" d ++ ", " ++ regText "F" a ++ ", " ++ regText "F" b
  | .mulfullps d a b => "MULFULLPS " ++ regText "W" d ++ ", " ++ regText "F" a ++ ", " ++ regText "F" b
  | .sqrfull d a => "SQRFULL " ++ regText "W" d ++ ", " ++ regText "F" a
  | .fred d a => "FRED " ++ regText "F" d ++ ", " ++ regText "W" a
  | .montred d a => "MONTRED " ++ regText "F" d ++ ", " ++ regText "W" a
  | .mulmod d a b => "MULMOD " ++ regText "F" d ++ ", " ++ regText "F" a ++ ", " ++ regText "F" b
  | .sqrmod d a => "SQRMOD " ++ regText "F" d ++ ", " ++ regText "F" a
  | .inv d a => "INV " ++ regText "F" d ++ ", " ++ regText "F" a
  | .a2j d a => "A2J " ++ regText "J" d ++ ", " ++ regText "A" a
  | .j2a d a => "J2A " ++ regText "A" d ++ ", " ++ regText "J" a
  | .addaff d a b => "ADDAFF " ++ regText "A" d ++ ", " ++ regText "A" a ++ ", " ++ regText "A" b
  | .dblaff d a => "DBLAFF " ++ regText "A" d ++ ", " ++ regText "A" a
  | .dblj d a => "DBLJ " ++ regText "J" d ++ ", " ++ regText "J" a
  | .addja d a b => "ADDJA " ++ regText "J" d ++ ", " ++ regText "J" a ++ ", " ++ regText "A" b
  | .smulltr d a b => "SMULLTR " ++ regText "A" d ++ ", " ++ regText "F" a ++ ", " ++ regText "A" b
  | .smulrtl d a b => "SMULRTL " ++ regText "A" d ++ ", " ++ regText "F" a ++ ", " ++ regText "A" b
  | .smulwin d a => "SMULWIN " ++ regText "A" d ++ ", " ++ regText "F" a
  | .smulbit d a => "SMULBIT " ++ regText "A" d ++ ", " ++ regText "F" a

end Sys2Proof
end

