-- ==== Sys2Proof/Machine/Limbs.lean ====
section
/-! DEFINITION. Registers as sequences of 32-bit limbs, limb 0 least significant, and their values (spec/00_scope.md R6, R9; spec/20_memory.md R63, R66, R67). -/

namespace Sys2Proof.Machine

/-- A 256-bit field of a register: eight limbs, limb 0 least significant (R6, R21). -/
abbrev FixedReg := Vector Word 8

/-- A DoubleWidth register: sixteen limbs, limb 0 least significant (R6, R24). -/
abbrev DoubleReg := Vector Word 16

/-- Limb j of a value: v[32j+31:32j] (R9). -/
def limb {width : Nat} (v : BitVec width) (j : Nat) : Word := v.extractLsb' (32 * j) 32

/-- The integer a sequence of limbs stands for, the first one least significant (R63). -/
def limbsToNat : List Word → Nat
  | [] => 0
  | x :: rest => x.toNat + 2 ^ 32 * limbsToNat rest

/-- The value of a 256-bit field. -/
def FixedReg.value (r : FixedReg) : U256 := BitVec.ofNat 256 (limbsToNat r.toList)

/-- The limbs of a 256-bit value. -/
def FixedReg.ofValue (v : U256) : FixedReg :=
  #v[limb v 0, limb v 1, limb v 2, limb v 3, limb v 4, limb v 5, limb v 6, limb v 7]

/-- The value of a DoubleWidth register. -/
def DoubleReg.value (r : DoubleReg) : U512 := BitVec.ofNat 512 (limbsToNat r.toList)

/-- The limbs of a 512-bit value: limbs 0 to 7 are the low half (R67). -/
def DoubleReg.ofValue (v : U512) : DoubleReg :=
  #v[limb v 0, limb v 1, limb v 2, limb v 3, limb v 4, limb v 5, limb v 6, limb v 7,
     limb v 8, limb v 9, limb v 10, limb v 11, limb v 12, limb v 13, limb v 14, limb v 15]

/-- Byte k of a limb as a byte-addressed bridge presents it: bits 7:0 at the lowest address (R63). -/
def byteOfLimb (x : Word) (k : Nat) : BitVec 8 := x.extractLsb' (8 * k) 8

end Sys2Proof.Machine
end

