-- ==== Sys2Proof/Machine/State.lean ====
section
/-! DEFINITION. The whole state of the unit (spec/10_state.md R20), the outside events that drive it, the reasons a step can stop, and the state after reset (R50). -/

namespace Sys2Proof.Machine

/-- An AffinePoint register: coordinates and infinity flag (R25). -/
structure AffineReg where
  x   : FixedReg
  y   : FixedReg
  inf : Bool
deriving DecidableEq, Repr

/-- A JacobianPoint register: coordinates and infinity flag (R28). -/
structure JacobianReg where
  x   : FixedReg
  y   : FixedReg
  z   : FixedReg
  inf : Bool
deriving DecidableEq, Repr

/-- The four flags (R29). -/
structure Flags where
  c  : Bool
  eq : Bool
  lt : Bool
  gt : Bool
deriving DecidableEq, Repr

/-- One event from outside the unit's own sequencing (log entry 3). The host's accesses carry the byte offset in the
window and the size in bytes. -/
inductive HostEvent where
  /-- MemRead(off, size) (R74) -/
  | read (off : Offset) (size : Nat)
  /-- MemWrite(off, size, v) (R74) -/
  | write (off : Offset) (size : Nat) (v : Word)
  /-- the unit takes its step: it completes the command in flight, if there is one and it completes (R211) -/
  | unitTurn
  /-- `rst_n` is pulled low and released (R240) -/
  | hwReset
deriving DecidableEq, Repr

/-- The state (R20). BUSY is not stored beside the latch: it says that the latch is full (`State.busy`). -/
structure State where
  /-- F0 to F7 (R21) -/
  f       : Vector FixedReg 8
  /-- W0 to W7 (R24) -/
  w       : Vector DoubleReg 8
  /-- A0 to A7 (R25) -/
  a       : Vector AffineReg 8
  /-- J0 to J7 (R28) -/
  j       : Vector JacobianReg 8
  /-- C, EQ, LT, GT (R29) -/
  flags   : Flags
  /-- CMD as a read returns it: the last accepted command word (R41) -/
  cmd     : Word
  /-- the execution latch: the accepted command word while a command is in flight (R37) -/
  latch   : Option Word
  /-- STATUS.DONE (R42) -/
  done    : Bool
  /-- STATUS.ERR (R42) -/
  err     : Bool
  /-- STATUS.ERRCODE (R42) -/
  errcode : BitVec 4
  /-- CTRL.IE (R43) -/
  ie      : Bool
  /-- ERRINFO (R45) -/
  errinfo : Word
  /-- the model's own: how many draws the unit's commands and resets have made (log entry 1) -/
  draws   : Nat
  /-- the model's own: how many draws the port has answered to reads while BUSY = 1 (log entry 1). It is a counter apart
  from `draws`, so that no read has an effect on what the unit does (R71) -/
  portDraws : Nat
  /-- the model's own: the outside events still to come, oldest first (log entry 3) -/
  pending : List HostEvent
  /-- the model's own: what the port has answered to reads, newest first (log entry 14) -/
  answers : List (Offset × Word)
deriving DecidableEq, Repr

/-- Why a step stops with a fault. -/
inductive Fault where
  /-- Raised by the unit's turn when the execution latch holds a word that R96 does not decode. No run reaches it: only
  an accepted word is latched (R210). Safe: the machine stops where the hardware has no such state (log entry 16). -/
  | latchHoldsNoCommand
deriving DecidableEq, Repr

/-- Why a step is refused. -/
inductive Refusal where
  /-- Raised by an arm of `exec` whose command has no meaning yet. Safe. No arm raises it now. -/
  | notModelled (mnemonic : String)
  /-- Raised by a host access that is not an aligned 32-bit word: the port cannot express it, and the spec has a model
  refuse it (R62; spec/93_implementation_defined.md U17). Safe. -/
  | accessNotExpressible
deriving DecidableEq, Repr

/-- The state after a reset (R50): control registers and flags 0, the latch empty, every data register a draw. `n` is
the number of this draw; what the port has drawn and answered and what is still pending outside are the outside's, and a
reset of the unit does not touch them. -/
def State.afterReset (n portDraws : Nat) (pending : List HostEvent) (answers : List (Offset × Word)) : State where
  f := Vector.ofFn fun i => FixedReg.ofValue (Config.draw256 n i.val)
  w := Vector.ofFn fun i => DoubleReg.ofValue (Config.draw512 n i.val)
  a := Vector.ofFn fun i =>
    { x := FixedReg.ofValue (Config.draw256 n (8 + 2 * i.val))
      y := FixedReg.ofValue (Config.draw256 n (9 + 2 * i.val))
      inf := Config.drawBit n i.val }
  j := Vector.ofFn fun i =>
    { x := FixedReg.ofValue (Config.draw256 n (24 + 3 * i.val))
      y := FixedReg.ofValue (Config.draw256 n (25 + 3 * i.val))
      z := FixedReg.ofValue (Config.draw256 n (26 + 3 * i.val))
      inf := Config.drawBit n (8 + i.val) }
  flags := { c := false, eq := false, lt := false, gt := false }
  cmd := 0
  latch := none
  done := false
  err := false
  errcode := 0
  ie := false
  errinfo := 0
  draws := n + 1
  portDraws := portDraws
  pending := pending
  answers := answers

/-- The machine right after a hardware reset, nothing pending, nothing answered (R50, R240). -/
def State.reset : State := State.afterReset 0 0 [] []

end Sys2Proof.Machine
end

