-- ==== Sys2Proof/Machine/Flags.lean ====
section
/-! DEFINITION. The flag computations of the fixed-width core and the packed views of FLAGS, STATUS and CTRL (spec/10_state.md R29, R42 to R46; spec/40_fixed_width.md R111 to R114). -/

namespace Sys2Proof.Machine

/-- The bit SHR1 shifts out (R112). -/
def shiftedOut (a : U256) : Bool := a.getLsbD 0

/-- The final carry of an addition: (a + b) div 2^256 (R113). -/
def carryOut (a b : U256) : Bool := 2 ^ 256 ≤ a.toNat + b.toNat

/-- The final borrow of a subtraction: 1 if a < b (R114). -/
def borrowOut (a b : U256) : Bool := a.toNat < b.toNat

/-- The comparison result of CMP, unsigned over the full 256 bits (R111). -/
def cmp256 (a b : U256) : Ordering := compare a.toNat b.toNat

/-- CMP writes EQ, LT and GT, exactly one of them 1, and leaves C (R29, R111). -/
def Flags.withCompare (fl : Flags) (r : Ordering) : Flags :=
  { fl with eq := r == .eq, lt := r == .lt, gt := r == .gt }

/-- SHR1, ADD and SUB write C and leave EQ, LT and GT (R29). -/
def Flags.withC (fl : Flags) (c : Bool) : Flags := { fl with c := c }

/-- A bit at a position of a 32-bit word. -/
def bitAt (pos : Nat) (v : Bool) : Nat := if v then 2 ^ pos else 0

/-- FLAGS as a read returns it: bit 0 C, bit 1 EQ, bit 2 LT, bit 3 GT (R44). -/
def Flags.word (fl : Flags) : Word :=
  BitVec.ofNat 32 (bitAt 0 fl.c + bitAt 1 fl.eq + bitAt 2 fl.lt + bitAt 3 fl.gt)

/-- STATUS.BUSY: a command is in flight (R37, R42). -/
def State.busy (s : State) : Bool := s.latch.isSome

/-- STATUS as a read returns it: bit 0 BUSY, bit 1 DONE, bit 2 ERR, bits 7:4 ERRCODE (R42). -/
def State.statusWord (s : State) : Word :=
  BitVec.ofNat 32 (bitAt 0 s.busy + bitAt 1 s.done + bitAt 2 s.err + s.errcode.toNat * 2 ^ 4)

/-- CTRL as a read returns it: bit 0 IE; SRST reads 0 (R43). -/
def State.ctrlWord (s : State) : Word := BitVec.ofNat 32 (bitAt 0 s.ie)

/-- The interrupt output: CTRL.IE AND (STATUS.DONE OR STATUS.ERR) (R46). -/
def State.irq (s : State) : Bool := s.ie && (s.done || s.err)

end Sys2Proof.Machine
end

