-- ==== Sys2Proof/Machine/Operands.lean ====
section
/-! DEFINITION. Reading operands: registers as values, points with their infinity flag, and the domain of a command's operands (spec/00_scope.md R10, R11, R13; spec/10_state.md R22, R25, R26, R28). -/

namespace Sys2Proof.Machine

/-- An affine value: `INF` or (x, y). A point at infinity carries no coordinates, so none can be looked at (R11, R26 a). -/
inductive AffineValue where
  | inf
  | point (x y : U256)
deriving DecidableEq, Repr

/-- A Jacobian value: `INF` or (X, Y, Z) (R11, R26 a). -/
inductive JacobianValue where
  | inf
  | point (x y z : U256)
deriving DecidableEq, Repr

/-- The affine value a register holds: its coordinates are read only when inf = 0 (R26 a). -/
def AffineReg.value (r : AffineReg) : AffineValue :=
  if r.inf then .inf else .point r.x.value r.y.value

/-- The Jacobian value a register holds (R26 a). -/
def JacobianReg.value (r : JacobianReg) : JacobianValue :=
  if r.inf then .inf else .point r.x.value r.y.value r.z.value

/-- F[i] as an operand (R10). -/
def State.readF (s : State) (i : Fin 8) : U256 := (s.f.get i).value

/-- W[i] as an operand (R10). -/
def State.readW (s : State) (i : Fin 8) : U512 := (s.w.get i).value

/-- A[i] as an operand (R10). -/
def State.readA (s : State) (i : Fin 8) : AffineValue := (s.a.get i).value

/-- J[i] as an operand (R10). -/
def State.readJ (s : State) (i : Fin 8) : JacobianValue := (s.j.get i).value

/-- A field element: a value below p (R13). -/
def fieldElement (v : U256) : Bool := v.toNat < Config.p

/-- An affine value is in domain: infinity, or both coordinates below p (R25). -/
def AffineValue.inDomain : AffineValue → Bool
  | .inf => true
  | .point x y => fieldElement x && fieldElement y

/-- A Jacobian value is in domain: infinity, or all coordinates below p and Z not 0 (R28). -/
def JacobianValue.inDomain : JacobianValue → Bool
  | .inf => true
  | .point x y z => fieldElement x && fieldElement y && fieldElement z && z != 0

/-- The domain of MONTRED: T < p·2^256 (R141). -/
def montredDomain (T : U512) : Bool := T.toNat < Config.p * 2 ^ 256

/-- Whether T = a·b for some a < `bound` and b < p. It runs through the values of a, so it defines the domain of FRED
(R126) and is not there to be evaluated (log entry 6). -/
def productBelow : Nat → Nat → Bool
  | 0, _ => false
  | a + 1, T => (a * (T / a) == T && decide (T / a < Config.p)) || productBelow a T

/-- The domain of FRED: T is the product of two values below p (R126). -/
def reducedProduct (T : U512) : Bool := productBelow Config.p T.toNat

/-- The domain of INV: 0 < a < p (R145). -/
def invDomain (a : U256) : Bool := a != 0 && fieldElement a

end Sys2Proof.Machine
end

