-- ==== Sys2Proof/Machine/Ops.lean ====
section
/-! DEFINITION. The shared operations: writing registers, draws, the error latch (R213), acceptance (R210), completion (R211), reset (R241). -/

namespace Sys2Proof.Machine

/-- F[i] <- v (R10). -/
def State.writeF (s : State) (i : Fin 8) (v : U256) : State :=
  { s with f := s.f.set i (FixedReg.ofValue v) i.isLt }

/-- W[i] <- v (R10). -/
def State.writeW (s : State) (i : Fin 8) (v : U512) : State :=
  { s with w := s.w.set i (DoubleReg.ofValue v) i.isLt }

/-- The whole of A[i]. -/
def State.setA (s : State) (i : Fin 8) (r : AffineReg) : State := { s with a := s.a.set i r i.isLt }

/-- The whole of J[i]. -/
def State.setJ (s : State) (i : Fin 8) (r : JacobianReg) : State := { s with j := s.j.set i r i.isLt }

/-- One more draw has been made by a command (log entry 1). -/
def State.tick (s : State) : State := { s with draws := s.draws + 1 }

/-- One more draw has been answered by the port (R73, log entry 1). -/
def State.tickPort (s : State) : State := { s with portDraws := s.portDraws + 1 }

/-- A 256-bit field filled by the k-th part of the next draw. -/
def State.drawField (s : State) (k : Nat) : FixedReg := FixedReg.ofValue (Config.draw256 s.draws k)

/-- F[i] <- UNSPECIFIED(256) (R247). -/
def State.drawF (s : State) (i : Fin 8) : State := (s.writeF i (Config.draw256 s.draws 0)).tick

/-- A draw in every bit of A[i], the inf bit included (R247). -/
def State.drawA (s : State) (i : Fin 8) : State :=
  (s.setA i { x := s.drawField 0, y := s.drawField 1, inf := Config.drawBit s.draws 0 }).tick

/-- A draw in every bit of J[i], the inf bit included (R247). -/
def State.drawJ (s : State) (i : Fin 8) : State :=
  (s.setJ i { x := s.drawField 0, y := s.drawField 1, z := s.drawField 2, inf := Config.drawBit s.draws 0 }).tick

/-- A[i] <- a point result: a finite one writes inf <- 0, infinity writes inf <- 1 and a draw into every coordinate (R26 b, c). -/
def State.writeA (s : State) (i : Fin 8) : AffineValue → State
  | .point x y => s.setA i { x := FixedReg.ofValue x, y := FixedReg.ofValue y, inf := false }
  | .inf => (s.setA i { x := s.drawField 0, y := s.drawField 1, inf := true }).tick

/-- J[i] <- a point result (R26 b, c). -/
def State.writeJ (s : State) (i : Fin 8) : JacobianValue → State
  | .point x y z =>
    s.setJ i { x := FixedReg.ofValue x, y := FixedReg.ofValue y, z := FixedReg.ofValue z, inf := false }
  | .inf => (s.setJ i { x := s.drawField 0, y := s.drawField 1, z := s.drawField 2, inf := true }).tick

/-- What a command's function gives for its source values. -/
inductive Result (α : Type) where
  /-- in domain: the value of the command's rule -/
  | value (v : α)
  /-- class V out of domain: it completes with a draw in the destination (R247) -/
  | anyValue
  /-- it never completes (R146, R248) -/
  | never
  /-- class H out of domain, where no rule says which: a draw in the destination, or it never completes (R247) -/
  | anyValueOrNever
deriving DecidableEq, Repr

/-- A function that ends gives its value; one that does not end never completes (R146). -/
def Result.ofOption {α : Type} : Option α → Result α
  | some v => .value v
  | none => .never

/-- BUSY <- 0 and DONE <- 1 (R211). -/
def State.retire (s : State) : State := { s with latch := none, done := true }

/-- Complete (R211): write the destination, then BUSY <- 0 and DONE <- 1. A command that never completes leaves the
state as it is, BUSY included (R248). Where no rule says which of the two happens, the free Bool at `draws` says; while a
command is in flight only a reset moves that counter, so the answer is the same at every later turn and a hang lasts until
a reset (R247, R248, log entry 5). -/
def State.complete {α : Type} (s : State) (write : State → α → State) (draw : State → State) (r : Result α) : State :=
  match r with
  | .value v => (write s v).retire
  | .anyValue => (draw s).retire
  | .never => s
  | .anyValueOrNever => if Config.neverCompletes s.draws then s else (draw s).retire

/-- Complete a command whose destination is F[rd]. -/
def State.completeF (s : State) (rd : Fin 8) (r : Result U256) : State :=
  s.complete (fun t v => t.writeF rd v) (fun t => t.drawF rd) r

/-- Complete a command whose destination is A[rd]. -/
def State.completeA (s : State) (rd : Fin 8) (r : Result AffineValue) : State :=
  s.complete (fun t v => t.writeA rd v) (fun t => t.drawA rd) r

/-- Complete a command whose destination is J[rd]. -/
def State.completeJ (s : State) (rd : Fin 8) (r : Result JacobianValue) : State :=
  s.complete (fun t v => t.writeJ rd v) (fun t => t.drawJ rd) r

/-- Complete a command whose destination is W[rd]: none of them is ever out of domain (R120). -/
def State.completeW (s : State) (rd : Fin 8) (v : U512) : State := (s.writeW rd v).retire

/-- `raise CmdError(code, info)`: the first error is latched, a later one is lost; nothing else changes (R213). This is
the unit's whole handling of an exception: nothing is saved and control goes nowhere. -/
def State.raise (s : State) (code : BitVec 4) (info : Word) : State :=
  if s.err then s else { s with err := true, errcode := code, errinfo := info }

/-- The acknowledgement of an error: ERR, ERRCODE and ERRINFO go to 0 (R42, R219). Nothing is restored, because nothing was saved. -/
def State.clearError (s : State) : State := { s with err := false, errcode := 0, errinfo := 0 }

/-- The acknowledgement of a completion: DONE <- 0 (R42, R219). -/
def State.clearDone (s : State) : State := { s with done := false }

/-- Accept a command word: CMD <- w, BUSY <- 1, DONE <- 0 (R210, 3). -/
def State.accept (s : State) (w : Word) : State := { s with cmd := w, latch := some w, done := false }

/-- A write to CMD (R210): busy, error 2; else illegal, error 1; else accepted. -/
def State.offer (s : State) (w : Word) : State :=
  if s.busy then s.raise 2 w
  else match decodeWord w with
    | .error _ => s.raise 1 w
    | .ok _ => s.accept w

/-- A reset of the unit, hardware or soft: the state of R50 with fresh draws (R240, R241, R242). -/
def State.resetUnit (s : State) : State := State.afterReset s.draws s.portDraws s.pending s.answers

/-- A write to STATUS: bit 1 clears DONE, bit 2 clears the error; every other bit is ignored (R42). -/
def State.writeStatus (s : State) (v : Word) : State :=
  let t := if v.getLsbD 1 then s.clearDone else s
  if v.getLsbD 2 then t.clearError else t

/-- A write to CTRL: bit 31 resets the unit and discards IE, else IE <- bit 0 (R43, R241). -/
def State.writeCtrl (s : State) (v : Word) : State :=
  if v.getLsbD 31 then s.resetUnit else { s with ie := v.getLsbD 0 }

end Sys2Proof.Machine
end

