-- ==== Sys2Proof/Machine/Field.lean ====
section
/-! DEFINITION. The pure functions of the fixed-width core and the modular engine (spec/40_fixed_width.md R112 to R114; spec/41_modular.md R121 to R126; spec/42_montgomery_inverse.md R141 to R146). -/

namespace Sys2Proof.Machine

/-- p as a 256-bit value. -/
def pWord : U256 := BitVec.ofNat 256 Config.p

/-- (a div 2, a[0]) (R112). -/
def shr1 (a : U256) : U256 × Bool := (BitVec.ofNat 256 (a.toNat / 2), shiftedOut a)

/-- ((a + b) mod 2^256, (a + b) div 2^256) (R113). -/
def add256 (a b : U256) : U256 × Bool := (BitVec.ofNat 256 (a.toNat + b.toNat), carryOut a b)

/-- ((a - b) mod 2^256, 1 if a < b else 0) (R114). -/
def sub256 (a b : U256) : U256 × Bool := (a - b, borrowOut a b)

/-- (a + b) mod p by one conditional subtraction (R121). -/
def addmod (a b : U256) : U256 :=
  let (s, c) := add256 a b
  if c || Config.p ≤ s.toNat then (sub256 s pWord).1 else s

/-- (a - b) mod p by one conditional addition (R122). -/
def submod (a b : U256) : U256 :=
  let (d, w) := sub256 a b
  if w then (add256 d pWord).1 else d

/-- The exact 512-bit product (R123, R124). -/
def mulfull (a b : U256) : U512 := BitVec.ofNat 512 (a.toNat * b.toNat)

/-- The exact 512-bit square (R125). -/
def sqrfull (a : U256) : U512 := BitVec.ofNat 512 (a.toNat * a.toNat)

/-- T mod p (R126; spec/90_conflicts.md C2). -/
def fred (T : U512) : U256 := BitVec.ofNat 256 (T.toNat % Config.p)

/-- The single-pass Montgomery reduction (R141, D26). -/
def montred (T : U512) : U256 :=
  let U := (T.toNat % 2 ^ 256 * Config.pprime) % 2 ^ 256
  let V := (T.toNat + U * Config.p) / 2 ^ 256
  BitVec.ofNat 256 (if Config.p ≤ V then V - Config.p else V)

/-- R2MODP as a 256-bit value. -/
def r2Word : U256 := BitVec.ofNat 256 Config.r2modp

/-- a·b mod p by two chained Montgomery reductions (R142). -/
def mulmod (a b : U256) : U256 := montred (mulfull (montred (mulfull a b)) r2Word)

/-- a·a mod p, the first product by the squaring kernel (R143). -/
def sqrmod (a : U256) : U256 := montred (mulfull (montred (sqrfull a)) r2Word)

/-- Halving a residue: an odd one is (x + p) >> 1 (R144). -/
def half (x : U256) : U256 :=
  if x.getLsbD 0 then BitVec.ofNat 256 ((x.toNat + Config.p) / 2) else BitVec.ofNat 256 (x.toNat / 2)

/-- The inner loop of the inverter: while u is even, halve u and halve the cofactor (R145). `none`: u is still even
after `fuel` halvings, which for a 256-bit u and fuel 257 happens only at u = 0, where the loop never ends (R146). -/
def stripTwos : Nat → U256 → U256 → Option (U256 × U256)
  | 0, _, _ => none
  | fuel + 1, u, x =>
    if u.getLsbD 0 then some (u, x) else stripTwos fuel (BitVec.ofNat 256 (u.toNat / 2)) (half x)

/-- The outer loop of the inverter on the pairs (u, x1) and (v, x2) (R145). `none`: it has not ended after `fuel` tests. -/
def invLoop : Nat → U256 → U256 → U256 → U256 → Option U256
  | 0, _, _, _, _ => none
  | fuel + 1, u, x1, v, x2 =>
    if u = 1 then some x1
    else if v = 1 then some x2
    else
      match stripTwos 257 u x1 with
      | none => none
      | some (u, x1) =>
        match stripTwos 257 v x2 with
        | none => none
        | some (v, x2) =>
          if v.toNat ≤ u.toNat then invLoop fuel (sub256 u v).1 (submod x1 x2) v x2
          else invLoop fuel u x1 (sub256 v u).1 (submod x2 x1)

/-- The modular inverse from the starting values of R145 (D25): u = a, x1 = 1, v = p, x2 = 0. In domain the loop makes
at most 513 passes (R146), so 514 tests reach its end (log entry 7). -/
def inv (a : U256) : Option U256 := invLoop 514 a 1 pWord 0

end Sys2Proof.Machine
end

