-- ==== Sys2Proof/Machine/Points.lean ====
section
/-! DEFINITION. The pure functions of the point layer: conversions (spec/43_point_conversion.md R160, R161), group operations (spec/44_point_group.md R171 to R174), the two ROM tables (spec/10_state.md R33, R34) and the four scalar multiplications (spec/45_scalar_mul.md R191 to R194). `none` says that an inversion inside does not end (R146). -/

namespace Sys2Proof.Machine

/-- (x, y) → (x, y, 1), infinity to infinity (R160). -/
def a2j : AffineValue → JacobianValue
  | .inf => .inf
  | .point x y => .point x y 1

/-- (X, Y, Z) → (X·Z⁻², Y·Z⁻³), infinity to infinity (R161). -/
def j2a : JacobianValue → Option AffineValue
  | .inf => some .inf
  | .point x y z =>
    let z2 := sqrmod z
    let z3 := mulmod z2 z
    (inv z2).bind fun i2 => (inv z3).map fun i3 => .point (mulmod x i2) (mulmod y i3)

/-- 2·v as `addmod(v, v)`. -/
def twice (v : U256) : U256 := addmod v v

/-- 3·v as `addmod(addmod(v, v), v)`. -/
def thrice (v : U256) : U256 := addmod (addmod v v) v

/-- The third point of a line of slope `lam` through (x1, y1) with other abscissa x2 (R171, R172). -/
def thirdPoint (lam x1 y1 x2 : U256) : AffineValue :=
  let x3 := submod (submod (sqrmod lam) x1) x2
  .point x3 (submod (mulmod lam (submod x1 x3)) y1)

/-- Affine doubling by the tangent, y = 0 and infinity giving infinity (R172, D20). -/
def dblaff : AffineValue → Option AffineValue
  | .inf => some .inf
  | .point x y =>
    if y = 0 then some .inf
    else
      (inv (twice y)).map fun i =>
        let lam := mulmod (submod (thrice (sqrmod x)) 3) i
        let x3 := submod (sqrmod lam) (twice x)
        .point x3 (submod (mulmod lam (submod x x3)) y)

/-- Affine addition with the routings of R171 (D21), then the chord. -/
def addaff : AffineValue → AffineValue → Option AffineValue
  | .inf, q => some q
  | .point x1 y1, .inf => some (.point x1 y1)
  | .point x1 y1, .point x2 y2 =>
    if x1 = x2 then
      if y1 = y2 then dblaff (.point x1 y1) else some .inf
    else
      (inv (submod x2 x1)).map fun i => thirdPoint (mulmod (submod y2 y1) i) x1 y1 x2

/-- Jacobian doubling for a = -3, one halving, no inversion (R173, D22). -/
def dblj : JacobianValue → JacobianValue
  | .inf => .inf
  | .point x1 y1 z1 =>
    if y1 = 0 then .inf
    else
      let t1 := sqrmod z1
      let m := thrice (mulmod (submod x1 t1) (addmod x1 t1))
      let y2 := twice y1
      let z3 := mulmod y2 z1
      let q := sqrmod y2
      let s := mulmod q x1
      let h8 := half (sqrmod q)
      let x3 := submod (sqrmod m) (twice s)
      .point x3 (submod (mulmod m (submod s x3)) h8) z3

/-- Mixed addition, the four edge cases in priority order, then the generic formula (R174, D23). -/
def addja : JacobianValue → AffineValue → JacobianValue
  | .inf, q => a2j q
  | .point x1 y1 z1, .inf => .point x1 y1 z1
  | .point x1 y1 z1, .point x2 y2 =>
    let z2 := sqrmod z1
    let z3 := mulmod z2 z1
    let h := submod (mulmod x2 z2) x1
    let r := submod (mulmod y2 z3) y1
    if h = 0 then
      if r = 0 then dblj (.point x1 y1 z1) else .inf
    else
      let h2 := sqrmod h
      let h3 := mulmod h2 h
      let v := mulmod x1 h2
      let x3 := submod (submod (sqrmod r) h3) (twice v)
      .point x3 (submod (mulmod r (submod v x3)) (mulmod y1 h3)) (mulmod z1 h)

/-- The base point G (R30). -/
def baseG : AffineValue := .point (BitVec.ofNat 256 Config.gx) (BitVec.ofNat 256 Config.gy)

/-- `len` points, the first `q`, each next one made by `next` (log entry 8). -/
def pointChain (next : AffineValue → Option AffineValue) : Nat → AffineValue → List AffineValue
  | 0, _ => []
  | len + 1, q => q :: (next q).elim [] (pointChain next len)

/-- Entry 0 is the point at infinity, entry v is [v]G, v < 256 (R33, D16). -/
def windowTableLTR : List AffineValue := pointChain (fun q => addaff q baseG) 256 .inf

/-- Entry i is [2^i]G, i < 256 (R34, D17). -/
def bitTableRTL : List AffineValue := pointChain dblaff 256 baseG

/-- Bits i-1 down to 0 of k, most significant first: double, then add the base if the bit is 1 (R191). -/
def ltrLoop (k : U256) (base : AffineValue) : Nat → JacobianValue → JacobianValue
  | 0, acc => acc
  | i + 1, acc =>
    let acc := dblj acc
    ltrLoop k base i (if k.getLsbD i then addja acc base else acc)

/-- Left-to-right binary scalar multiplication (R191). -/
def smulLtr (k : U256) (base : AffineValue) : Option AffineValue := j2a (ltrLoop k base 256 .inf)

/-- `left` more bits from bit i up, least significant first: add the running value if the bit is 1, then double it (R192, D24). -/
def rtlLoop (k : U256) : Nat → Nat → JacobianValue → AffineValue → Option JacobianValue
  | 0, _, acc, _ => some acc
  | left + 1, i, acc, run =>
    (dblaff run).bind fun next => rtlLoop k left (i + 1) (if k.getLsbD i then addja acc run else acc) next

/-- Right-to-left binary scalar multiplication (R192). -/
def smulRtl (k : U256) (base : AffineValue) : Option AffineValue := (rtlLoop k 256 0 .inf base).bind j2a

/-- Byte j of the scalar: k[8j+7:8j] (R193). -/
def scalarByte (k : U256) (j : Nat) : Nat := k.toNat / 2 ^ (8 * j) % 256

/-- Eight doublings (R193). -/
def dbljEight (acc : JacobianValue) : JacobianValue :=
  dblj (dblj (dblj (dblj (dblj (dblj (dblj (dblj acc)))))))

/-- Bytes j-1 down to 0: eight doublings, then one addition of the table entry the byte selects (R193). -/
def winLoop (k : U256) : Nat → JacobianValue → Option JacobianValue
  | 0, acc => some acc
  | j + 1, acc => windowTableLTR[scalarByte k j]?.bind fun q => winLoop k j (addja (dbljEight acc) q)

/-- Left-to-right scalar multiplication with the 8-bit window table, base G (R193). -/
def smulWin (k : U256) : Option AffineValue := (winLoop k 32 .inf).bind j2a

/-- `left` more bits from bit i up: add table entry i if bit i is 1, no doubling (R194). -/
def bitLoop (k : U256) : Nat → Nat → JacobianValue → Option JacobianValue
  | 0, _, acc => some acc
  | left + 1, i, acc =>
    bitTableRTL[i]?.bind fun q => bitLoop k left (i + 1) (if k.getLsbD i then addja acc q else acc)

/-- Right-to-left scalar multiplication with the per-bit table, base G (R194). -/
def smulBit (k : U256) : Option AffineValue := (bitLoop k 256 0 .inf).bind j2a

end Sys2Proof.Machine
end

