-- ==== Sys2Proof/Machine/Conversion.lean ====
section
/-! DEFINITION. The meanings of A2J and J2A (spec/43_point_conversion.md R160, R161). -/

namespace Sys2Proof.Machine

/-- J2A's result: in domain the conversion; Z = 0 with inf = 0 reaches inv(0) and never completes; any other operand
out of domain is class H (R161, R247, R248). -/
def j2aResult (pt : JacobianValue) : Result AffineValue :=
  match pt with
  | .inf => .value .inf
  | .point x y z =>
    if (JacobianValue.point x y z).inDomain then .ofOption (j2a (.point x y z))
    else if z = 0 then .never
    else .anyValueOrNever

/-- A2J Jd, As1: the coordinates are copied as they are (R160), and it is never out of domain (R247 against R160's
precondition: DESIGN CHOICE, log entry 20). -/
def execA2j (rd : JReg) (rs1 : AReg) (s : State) : Host.Outcome State Fault Refusal :=
  .next (s.completeJ rd (.value (a2j (s.readA rs1))))

/-- J2A Ad, Js1 (R161). -/
def execJ2a (rd : AReg) (rs1 : JReg) (s : State) : Host.Outcome State Fault Refusal :=
  .next (s.completeA rd (j2aResult (s.readJ rs1)))

end Sys2Proof.Machine
end

