-- ==== Sys2Proof/Machine/FixedWidth.lean ====
section
/-! DEFINITION. The meanings of CMP, SHR1, ADD and SUB (spec/40_fixed_width.md R110 to R114): each is the completion of its command (spec/60_exceptions.md R211). -/

namespace Sys2Proof.Machine

/-- Write F[rd] and C (R112 to R114). -/
def State.completeFC (s : State) (rd : Fin 8) (r : U256 × Bool) : State :=
  ({ s with flags := s.flags.withC r.2 }.writeF rd r.1).retire

/-- CMP Fs1, Fs2 (R111). -/
def execCmp (rs1 rs2 : FReg) (s : State) : Host.Outcome State Fault Refusal :=
  .next { s with flags := s.flags.withCompare (cmp256 (s.readF rs1) (s.readF rs2)) }.retire

/-- SHR1 Fd, Fs1 (R112). -/
def execShr1 (rd rs1 : FReg) (s : State) : Host.Outcome State Fault Refusal :=
  .next (s.completeFC rd (shr1 (s.readF rs1)))

/-- ADD Fd, Fs1, Fs2 (R113). -/
def execAdd (rd rs1 rs2 : FReg) (s : State) : Host.Outcome State Fault Refusal :=
  .next (s.completeFC rd (add256 (s.readF rs1) (s.readF rs2)))

/-- SUB Fd, Fs1, Fs2 (R114). -/
def execSub (rd rs1 rs2 : FReg) (s : State) : Host.Outcome State Fault Refusal :=
  .next (s.completeFC rd (sub256 (s.readF rs1) (s.readF rs2)))

end Sys2Proof.Machine
end

