-- ==== Sys2Proof/Machine/Group.lean ====
section
/-! DEFINITION. The meanings of ADDAFF, DBLAFF, DBLJ and ADDJA (spec/44_point_group.md R170 to R174). -/

namespace Sys2Proof.Machine

/-- A class H function: in domain its value, out of domain a draw or no completion (R170, R247). -/
def classH (inDomain : Bool) (r : Option AffineValue) : Result AffineValue :=
  if inDomain then .ofOption r else .anyValueOrNever

/-- A class V function to a Jacobian register (R170, R247). -/
def classV (inDomain : Bool) (r : JacobianValue) : Result JacobianValue :=
  if inDomain then .value r else .anyValue

/-- ADDAFF Ad, As1, As2 (R171). -/
def execAddaff (rd rs1 rs2 : AReg) (s : State) : Host.Outcome State Fault Refusal :=
  .next (s.completeA rd (classH ((s.readA rs1).inDomain && (s.readA rs2).inDomain) (addaff (s.readA rs1) (s.readA rs2))))

/-- DBLAFF Ad, As1 (R172). -/
def execDblaff (rd rs1 : AReg) (s : State) : Host.Outcome State Fault Refusal :=
  .next (s.completeA rd (classH (s.readA rs1).inDomain (dblaff (s.readA rs1))))

/-- DBLJ Jd, Js1 (R173). -/
def execDblj (rd rs1 : JReg) (s : State) : Host.Outcome State Fault Refusal :=
  .next (s.completeJ rd (classV (s.readJ rs1).inDomain (dblj (s.readJ rs1))))

/-- ADDJA Jd, Js1, As2 (R174). -/
def execAddja (rd rs1 : JReg) (rs2 : AReg) (s : State) : Host.Outcome State Fault Refusal :=
  .next (s.completeJ rd (classV ((s.readJ rs1).inDomain && (s.readA rs2).inDomain) (addja (s.readJ rs1) (s.readA rs2))))

end Sys2Proof.Machine
end

