-- ==== Sys2Proof/Machine/Modular.lean ====
section
/-! DEFINITION. The meanings of ADDMOD, SUBMOD, MULFULL, MULFULLPS, SQRFULL and FRED (spec/41_modular.md R120 to R126). -/

namespace Sys2Proof.Machine

/-- A class V function of two field elements: out of domain the destination is a draw (R120, R247). -/
def fieldBinary (op : U256 → U256 → U256) (a b : U256) : Result U256 :=
  if fieldElement a && fieldElement b then .value (op a b) else .anyValue

/-- FRED's result: T mod p for every product of two reduced values. For any other T the destination holds any value: a
draw where `mayDraw` says so. The guard stands first so that evaluation need not search for factors (R126, R247, log entry 6). -/
def fredResult (mayDraw : Bool) (T : U512) : Result U256 :=
  if mayDraw && !reducedProduct T then .anyValue else .value (fred T)

/-- ADDMOD Fd, Fs1, Fs2 (R121). -/
def execAddmod (rd rs1 rs2 : FReg) (s : State) : Host.Outcome State Fault Refusal :=
  .next (s.completeF rd (fieldBinary addmod (s.readF rs1) (s.readF rs2)))

/-- SUBMOD Fd, Fs1, Fs2 (R122). -/
def execSubmod (rd rs1 rs2 : FReg) (s : State) : Host.Outcome State Fault Refusal :=
  .next (s.completeF rd (fieldBinary submod (s.readF rs1) (s.readF rs2)))

/-- MULFULL Wd, Fs1, Fs2 (R123). -/
def execMulfull (rd : WReg) (rs1 rs2 : FReg) (s : State) : Host.Outcome State Fault Refusal :=
  .next (s.completeW rd (mulfull (s.readF rs1) (s.readF rs2)))

/-- MULFULLPS Wd, Fs1, Fs2: the same function as MULFULL (R124). -/
def execMulfullps (rd : WReg) (rs1 rs2 : FReg) (s : State) : Host.Outcome State Fault Refusal :=
  .next (s.completeW rd (mulfull (s.readF rs1) (s.readF rs2)))

/-- SQRFULL Wd, Fs1 (R125). -/
def execSqrfull (rd : WReg) (rs1 : FReg) (s : State) : Host.Outcome State Fault Refusal :=
  .next (s.completeW rd (sqrfull (s.readF rs1)))

/-- FRED Fd, Ws1 (R126). Every FRED advances the draw counter, so that no two of them ask the same Bool (log entry 6). -/
def execFred (rd : FReg) (rs1 : WReg) (s : State) : Host.Outcome State Fault Refusal :=
  .next (s.tick.completeF rd (fredResult (Config.fredMayDraw s.draws) (s.readW rs1)))

end Sys2Proof.Machine
end

