-- ==== Sys2Proof/Machine/Montgomery.lean ====
section
/-! DEFINITION. The meanings of MONTRED, MULMOD, SQRMOD and INV (spec/42_montgomery_inverse.md R140 to R146). -/

namespace Sys2Proof.Machine

/-- MONTRED's result: class V out of domain (R141). -/
def montredResult (T : U512) : Result U256 := if montredDomain T then .value (montred T) else .anyValue

/-- SQRMOD's result: class V out of domain (R143). -/
def sqrmodResult (a : U256) : Result U256 := if fieldElement a then .value (sqrmod a) else .anyValue

/-- INV's result: in domain the inverse; 0 and p never complete; a value above p is class H (R145, R146, R247). -/
def invResult (a : U256) : Result U256 :=
  if invDomain a then .ofOption (inv a)
  else if a = 0 || a = pWord then .never
  else .anyValueOrNever

/-- MONTRED Fd, Ws1 (R141). -/
def execMontred (rd : FReg) (rs1 : WReg) (s : State) : Host.Outcome State Fault Refusal :=
  .next (s.completeF rd (montredResult (s.readW rs1)))

/-- MULMOD Fd, Fs1, Fs2 (R142). -/
def execMulmod (rd rs1 rs2 : FReg) (s : State) : Host.Outcome State Fault Refusal :=
  .next (s.completeF rd (fieldBinary mulmod (s.readF rs1) (s.readF rs2)))

/-- SQRMOD Fd, Fs1 (R143). -/
def execSqrmod (rd rs1 : FReg) (s : State) : Host.Outcome State Fault Refusal :=
  .next (s.completeF rd (sqrmodResult (s.readF rs1)))

/-- INV Fd, Fs1 (R145, R146). -/
def execInv (rd rs1 : FReg) (s : State) : Host.Outcome State Fault Refusal :=
  .next (s.completeF rd (invResult (s.readF rs1)))

end Sys2Proof.Machine
end

