-- ==== Sys2Proof/Machine/ScalarMul.lean ====
section
/-! DEFINITION. The meanings of SMULLTR, SMULRTL, SMULWIN and SMULBIT (spec/45_scalar_mul.md R190 to R194). -/

namespace Sys2Proof.Machine

/-- SMULLTR Ad, Fs1, As2 (R191). -/
def execSmulltr (rd : AReg) (rs1 : FReg) (rs2 : AReg) (s : State) : Host.Outcome State Fault Refusal :=
  .next (s.completeA rd (classH (s.readA rs2).inDomain (smulLtr (s.readF rs1) (s.readA rs2))))

/-- SMULRTL Ad, Fs1, As2 (R192). -/
def execSmulrtl (rd : AReg) (rs1 : FReg) (rs2 : AReg) (s : State) : Host.Outcome State Fault Refusal :=
  .next (s.completeA rd (classH (s.readA rs2).inDomain (smulRtl (s.readF rs1) (s.readA rs2))))

/-- SMULWIN Ad, Fs1: the base is G, no operand can be out of domain (R193, R247). -/
def execSmulwin (rd : AReg) (rs1 : FReg) (s : State) : Host.Outcome State Fault Refusal :=
  .next (s.completeA rd (.ofOption (smulWin (s.readF rs1))))

/-- SMULBIT Ad, Fs1: the base is G, no operand can be out of domain (R194, R247). -/
def execSmulbit (rd : AReg) (rs1 : FReg) (s : State) : Host.Outcome State Fault Refusal :=
  .next (s.completeA rd (.ofOption (smulBit (s.readF rs1))))

end Sys2Proof.Machine
end

