-- ==== Sys2Proof/Machine/Dispatch.lean ====
section
/-! DEFINITION. One arm per command: `exec i s` is the completion of the command i in the state s (spec/60_exceptions.md R211). -/

namespace Sys2Proof.Machine

def exec (i : Instr) (s : State) : Host.Outcome State Fault Refusal :=
  match i with
  | .cmp rs1 rs2 => Sys2Proof.Machine.execCmp rs1 rs2 s
  | .shr1 rd rs1 => Sys2Proof.Machine.execShr1 rd rs1 s
  | .add rd rs1 rs2 => Sys2Proof.Machine.execAdd rd rs1 rs2 s
  | .sub rd rs1 rs2 => Sys2Proof.Machine.execSub rd rs1 rs2 s
  | .addmod rd rs1 rs2 => Sys2Proof.Machine.execAddmod rd rs1 rs2 s
  | .submod rd rs1 rs2 => Sys2Proof.Machine.execSubmod rd rs1 rs2 s
  | .mulfull rd rs1 rs2 => Sys2Proof.Machine.execMulfull rd rs1 rs2 s
  | .mulfullps rd rs1 rs2 => Sys2Proof.Machine.execMulfullps rd rs1 rs2 s
  | .sqrfull rd rs1 => Sys2Proof.Machine.execSqrfull rd rs1 s
  | .fred rd rs1 => Sys2Proof.Machine.execFred rd rs1 s
  | .montred rd rs1 => Sys2Proof.Machine.execMontred rd rs1 s
  | .mulmod rd rs1 rs2 => Sys2Proof.Machine.execMulmod rd rs1 rs2 s
  | .sqrmod rd rs1 => Sys2Proof.Machine.execSqrmod rd rs1 s
  | .inv rd rs1 => Sys2Proof.Machine.execInv rd rs1 s
  | .a2j rd rs1 => Sys2Proof.Machine.execA2j rd rs1 s
  | .j2a rd rs1 => Sys2Proof.Machine.execJ2a rd rs1 s
  | .addaff rd rs1 rs2 => Sys2Proof.Machine.execAddaff rd rs1 rs2 s
  | .dblaff rd rs1 => Sys2Proof.Machine.execDblaff rd rs1 s
  | .dblj rd rs1 => Sys2Proof.Machine.execDblj rd rs1 s
  | .addja rd rs1 rs2 => Sys2Proof.Machine.execAddja rd rs1 rs2 s
  | .smulltr rd rs1 rs2 => Sys2Proof.Machine.execSmulltr rd rs1 rs2 s
  | .smulrtl rd rs1 rs2 => Sys2Proof.Machine.execSmulrtl rd rs1 rs2 s
  | .smulwin rd rs1 => Sys2Proof.Machine.execSmulwin rd rs1 s
  | .smulbit rd rs1 => Sys2Proof.Machine.execSmulbit rd rs1 s

end Sys2Proof.Machine
end

