-- ==== Sys2Proof/Machine/Window.lean ====
section
/-! DEFINITION. The host window: the register map (spec/20_memory.md R61, R64 to R70), MemRead and MemWrite (R74). -/

namespace Sys2Proof.Machine

/-- The six 256-bit constants of the window (R65). -/
inductive ConstReg where
  | p
  | gx
  | gy
  | pprime
  | rmodp
  | r2modp
deriving DecidableEq, Repr

/-- One word of the window (R61). -/
inductive Slot where
  | id
  | cmd
  | status
  | ctrl
  | flags
  | errinfo
  | const (c : ConstReg) (j : Fin 8)
  | f (i : Fin 8) (j : Fin 8)
  | w (i : Fin 8) (j : Fin 16)
  | ax (i : Fin 8) (j : Fin 8)
  | ay (i : Fin 8) (j : Fin 8)
  | ainf (i : Fin 8)
  | jx (i : Fin 8) (j : Fin 8)
  | jy (i : Fin 8) (j : Fin 8)
  | jz (i : Fin 8) (j : Fin 8)
  | jinf (i : Fin 8)
  | unmapped
deriving DecidableEq, Repr

/-- A constant's value: R8, R30, R31, at all times (R35, R65). -/
def ConstReg.value : ConstReg → U256
  | .p => BitVec.ofNat 256 Config.p
  | .gx => BitVec.ofNat 256 Config.gx
  | .gy => BitVec.ofNat 256 Config.gy
  | .pprime => BitVec.ofNat 256 Config.pprime
  | .rmodp => BitVec.ofNat 256 Config.rmodp
  | .r2modp => BitVec.ofNat 256 Config.r2modp

/-- The offset of a constant's limb 0 (R65). -/
def ConstReg.offset : ConstReg → Nat
  | .p => 0x100
  | .gx => 0x120
  | .gy => 0x140
  | .pprime => 0x160
  | .rmodp => 0x180
  | .r2modp => 0x1A0

/-- The offset of a mapped word as R64 to R69 give it; none where the slot is not one mapped word. -/
def Slot.offset : Slot → Option Nat
  | .id => some 0x000
  | .cmd => some 0x004
  | .status => some 0x008
  | .ctrl => some 0x00C
  | .flags => some 0x010
  | .errinfo => some 0x014
  | .const c j => some (c.offset + 4 * j.val)
  | .f i j => some (0x200 + 0x20 * i.val + 4 * j.val)
  | .w i j => some (0x400 + 0x40 * i.val + 4 * j.val)
  | .ax i j => some (0x800 + 0x80 * i.val + 4 * j.val)
  | .ay i j => some (0x820 + 0x80 * i.val + 4 * j.val)
  | .ainf i => some (0x840 + 0x80 * i.val)
  | .jx i j => some (0xC00 + 0x80 * i.val + 4 * j.val)
  | .jy i j => some (0xC20 + 0x80 * i.val + 4 * j.val)
  | .jz i j => some (0xC40 + 0x80 * i.val + 4 * j.val)
  | .jinf i => some (0xC60 + 0x80 * i.val)
  | .unmapped => none

/-- The control block by word number (R64). -/
def controlSlot : Nat → Slot
  | 0 => .id
  | 1 => .cmd
  | 2 => .status
  | 3 => .ctrl
  | 4 => .flags
  | 5 => .errinfo
  | _ => .unmapped

/-- The constants by number, eight limbs each (R65). -/
def constSlot (k : Nat) (j : Fin 8) : Slot :=
  match k with
  | 0 => .const .p j
  | 1 => .const .gx j
  | 2 => .const .gy j
  | 3 => .const .pprime j
  | 4 => .const .rmodp j
  | 5 => .const .r2modp j
  | _ => .unmapped

/-- The word at an offset inside an A register (R68). -/
def affineSlot (i : Fin 8) (part : Nat) (j : Fin 8) : Slot :=
  match part with
  | 0 => .ax i j
  | 1 => .ay i j
  | 2 => if j = 0 then .ainf i else .unmapped
  | _ => .unmapped

/-- The word at an offset inside a J register (R69). -/
def jacobianSlot (i : Fin 8) (part : Nat) (j : Fin 8) : Slot :=
  match part with
  | 0 => .jx i j
  | 1 => .jy i j
  | 2 => .jz i j
  | _ => if j = 0 then .jinf i else .unmapped

/-- Word number k of the window, k = offset / 4 (R61). -/
def slotOfWord (k : Nat) : Slot :=
  if k < 0x040 then controlSlot k
  else if k < 0x080 then constSlot (k / 8 - 8) (Fin.ofNat 8 k)
  else if k < 0x0C0 then .f (Fin.ofNat 8 (k / 8)) (Fin.ofNat 8 k)
  else if k < 0x100 then .unmapped
  else if k < 0x180 then .w (Fin.ofNat 8 (k / 16)) (Fin.ofNat 16 k)
  else if k < 0x200 then .unmapped
  else if k < 0x300 then affineSlot (Fin.ofNat 8 (k / 32)) (k / 8 % 4) (Fin.ofNat 8 k)
  else jacobianSlot (Fin.ofNat 8 (k / 32)) (k / 8 % 4) (Fin.ofNat 8 k)

/-- The word of the window at a byte offset: the port carries addr[11:2] (R62). -/
def slotAt (off : Offset) : Slot := slotOfWord (off.toNat / 4)

/-- The words of the data registers F, W, A and J, INF words included (R73, R212). -/
def Slot.isData : Slot → Bool
  | .f .. | .w .. | .ax .. | .ay .. | .ainf .. | .jx .. | .jy .. | .jz .. | .jinf .. => true
  | _ => false

/-- An INF word: bit 0 is the flag, bits 31:1 read 0 (R68, R69). -/
def infWord (v : Bool) : Word := BitVec.ofNat 32 (bitAt 0 v)

/-- The word a slot holds (R40 to R45, R65 to R70). -/
def State.readSlot (s : State) : Slot → Word
  | .id => Config.idWord
  | .cmd => s.cmd
  | .status => s.statusWord
  | .ctrl => s.ctrlWord
  | .flags => s.flags.word
  | .errinfo => s.errinfo
  | .const c j => limb c.value j.val
  | .f i j => (s.f.get i).get j
  | .w i j => (s.w.get i).get j
  | .ax i j => (s.a.get i).x.get j
  | .ay i j => (s.a.get i).y.get j
  | .ainf i => infWord (s.a.get i).inf
  | .jx i j => (s.j.get i).x.get j
  | .jy i j => (s.j.get i).y.get j
  | .jz i j => (s.j.get i).z.get j
  | .jinf i => infWord (s.j.get i).inf
  | .unmapped => 0

/-- MemRead(off, 4): the word, and the state after. A read of a data register while BUSY = 1 is a draw, which advances the
port's own counter and nothing the unit looks at; no other read changes anything (R71, R73, R74). -/
def State.memRead (s : State) (off : Offset) : Word × State :=
  if s.busy && (slotAt off).isData then (Config.draw32 s.portDraws, s.tickPort) else (s.readSlot (slotAt off), s)

/-- Store one word of a data register; an INF word takes bit 0 (R66 to R69, R74). -/
def State.storeSlot (s : State) (v : Word) : Slot → State
  | .f i j => { s with f := s.f.set i ((s.f.get i).set j v j.isLt) i.isLt }
  | .w i j => { s with w := s.w.set i ((s.w.get i).set j v j.isLt) i.isLt }
  | .ax i j => s.setA i { s.a.get i with x := (s.a.get i).x.set j v j.isLt }
  | .ay i j => s.setA i { s.a.get i with y := (s.a.get i).y.set j v j.isLt }
  | .ainf i => s.setA i { s.a.get i with inf := v.getLsbD 0 }
  | .jx i j => s.setJ i { s.j.get i with x := (s.j.get i).x.set j v j.isLt }
  | .jy i j => s.setJ i { s.j.get i with y := (s.j.get i).y.set j v j.isLt }
  | .jz i j => s.setJ i { s.j.get i with z := (s.j.get i).z.set j v j.isLt }
  | .jinf i => s.setJ i { s.j.get i with inf := v.getLsbD 0 }
  | _ => s

/-- MemWrite(off, 4, v) (R74): CMD offers a command, STATUS and CTRL have their own effects, a data register takes the
word when BUSY = 0 and raises error 3 when BUSY = 1; anything else is ignored. -/
def State.memWrite (s : State) (off : Offset) (v : Word) : State :=
  match slotAt off with
  | .cmd => s.offer v
  | .status => s.writeStatus v
  | .ctrl => s.writeCtrl v
  | slot =>
    if slot.isData then
      if s.busy then s.raise 3 (off.setWidth 32) else s.storeSlot v slot
    else s

/-- The aligned offset of the word that holds a byte. -/
def wordOffset (off : Offset) : Offset := BitVec.ofNat 12 (4 * (off.toNat / 4))

/-- The byte at a byte offset of the window as a little-endian bridge presents it: the byte of the word that the aligned
`MemRead` returns, so a draw for a data register while BUSY = 1 (R62, R63, R73). -/
def State.windowByte (s : State) (off : Offset) : BitVec 8 :=
  byteOfLimb (s.memRead (wordOffset off)).1 (off.toNat % 4)

end Sys2Proof.Machine
end

