-- ==== Sys2Proof/Machine/Unit.lean ====
section
/-! DEFINITION. What one outside event does: a host access (spec/20_memory.md R62, R74), the unit's turn (spec/60_exceptions.md R211), a hardware reset (spec/70_reset_and_hazards.md R240). -/

namespace Sys2Proof.Machine

/-- The unit's turn: it decodes the latched word and completes that command; idle, it keeps all state (R211, R224). -/
def unitTurn (s : State) : Host.Outcome State Fault Refusal :=
  match s.latch with
  | none => .next s
  | some w =>
    match decodeWord w with
    | .error _ => .fault .latchHoldsNoCommand
    | .ok i => exec i s

/-- A read: an access that is not an aligned word is refused (R62), any other is answered (R74). -/
def hostRead (s : State) (off : Offset) (size : Nat) : Host.Outcome State Fault Refusal :=
  if accessWellFormed off size then
    let (v, t) := s.memRead off
    .next { t with answers := (off, v) :: t.answers }
  else .refused .accessNotExpressible

/-- A write: an access that is not an aligned word is refused (R62), any other is performed (R74). -/
def hostWrite (s : State) (off : Offset) (size : Nat) (v : Word) : Host.Outcome State Fault Refusal :=
  if accessWellFormed off size then .next (s.memWrite off v) else .refused .accessNotExpressible

/-- One event. -/
def handleEvent (e : HostEvent) (s : State) : Host.Outcome State Fault Refusal :=
  match e with
  | .read off size => hostRead s off size
  | .write off size v => hostWrite s off size v
  | .unitTurn => unitTurn s
  | .hwReset => .next s.resetUnit

/-- The next step: the oldest pending event; with none pending only the unit can move. -/
def stepEvent (s : State) : Host.Outcome State Fault Refusal :=
  match s.pending with
  | [] => unitTurn s
  | e :: rest => handleEvent e { s with pending := rest }

/-- The state in which the very next step runs the command `w` (log entry 12): the word is accepted as R210 says and the
unit's turn comes next. A word that is no command is left as the host's pending write to CMD, so that the next step
raises error 1. -/
def State.fetchNext (s : State) (nbits w : Nat) : State :=
  let word := BitVec.ofNat 32 (w % 2 ^ nbits)
  match decodeTableWord nbits w with
  | some _ => { s.accept word with pending := .unitTurn :: s.pending }
  | none => { s with latch := none, pending := .write 0x004 4 word :: s.pending }

end Sys2Proof.Machine
end

