-- ==== Sys2Proof/Machine/Step.lean ====
section
/-! DEFINITION. One step of the system of host and unit, and the state that runs a given command next (spec/60_exceptions.md R210, R211, R220). -/

namespace Sys2Proof.Machine

/-- One step: the oldest pending event, or the unit's turn when nothing is pending. -/
def step (s : State) : Host.Outcome State Fault Refusal := stepEvent s

/-- `s` with the command whose bits are `w` where the next step finds it: accepted, in the execution latch (log entry 12). -/
def State.withFetchWord (s : State) (nbits w : Nat) : State := s.fetchNext nbits w

end Sys2Proof.Machine
end

