-- ==== Sys2Proof/Machine/HostPrograms.lean ====
section
/-! DEFINITION. The pseudo-instructions as lists of host events, and host programs with the loop of `WAIT` and the copies of `LDG`, run beside the unit along a schedule (spec/30_encoding.md R99). -/

namespace Sys2Proof.Machine

/-- `MemWrite(off, 4, v)` at an offset given as a number. -/
def writeEvent (off : Nat) (v : Word) : HostEvent := .write (BitVec.ofNat 12 off) 4 v

/-- `MemRead(off, 4)` at an offset given as a number. -/
def readEvent (off : Nat) : HostEvent := .read (BitVec.ofNat 12 off) 4

/-- Write the limbs 0 .. `count`-1 of a value from `base` up, limb 0 first. -/
def writeLimbs {width : Nat} (base : Nat) (v : BitVec width) (count : Nat) : List HostEvent :=
  (List.range count).map fun j => writeEvent (base + 4 * j) (limb v j)

/-- Read `count` words from `base` up. -/
def readLimbs (base count : Nat) : List HostEvent := (List.range count).map fun j => readEvent (base + 4 * j)

/-- `WRF Fi, v` -/
def wrf (i : Fin 8) (v : U256) : List HostEvent := writeLimbs (0x200 + 0x20 * i.val) v 8

/-- `WRW Wi, v` -/
def wrw (i : Fin 8) (v : U512) : List HostEvent := writeLimbs (0x400 + 0x40 * i.val) v 16

/-- `WRA Ai, (x, y)` -/
def wra (i : Fin 8) (x y : U256) : List HostEvent :=
  writeLimbs (0x800 + 0x80 * i.val) x 8 ++ writeLimbs (0x820 + 0x80 * i.val) y 8 ++ [writeEvent (0x840 + 0x80 * i.val) 0]

/-- `WRAINF Ai` -/
def wrainf (i : Fin 8) : List HostEvent := [writeEvent (0x840 + 0x80 * i.val) 1]

/-- `WRJ Ji, (X, Y, Z)` -/
def wrj (i : Fin 8) (x y z : U256) : List HostEvent :=
  writeLimbs (0xC00 + 0x80 * i.val) x 8 ++ writeLimbs (0xC20 + 0x80 * i.val) y 8 ++
    writeLimbs (0xC40 + 0x80 * i.val) z 8 ++ [writeEvent (0xC60 + 0x80 * i.val) 0]

/-- `WRJINF Ji` -/
def wrjinf (i : Fin 8) : List HostEvent := [writeEvent (0xC60 + 0x80 * i.val) 1]

/-- One limb of `LDG Ai`: the two constants are read and written on; what a read of a constant returns is that constant (R65). -/
def ldgLimb (i : Fin 8) (j : Nat) : List HostEvent :=
  [readEvent (0x120 + 4 * j), writeEvent (0x800 + 0x80 * i.val + 4 * j) (limb (BitVec.ofNat 256 Config.gx) j),
   readEvent (0x140 + 4 * j), writeEvent (0x820 + 0x80 * i.val + 4 * j) (limb (BitVec.ofNat 256 Config.gy) j)]

/-- `LDG Ai` -/
def ldg (i : Fin 8) : List HostEvent := (List.range 8).flatMap (ldgLimb i) ++ [writeEvent (0x840 + 0x80 * i.val) 0]

/-- `RDF Fi` -/
def rdf (i : Fin 8) : List HostEvent := readLimbs (0x200 + 0x20 * i.val) 8

/-- `RDW Wi` -/
def rdw (i : Fin 8) : List HostEvent := readLimbs (0x400 + 0x40 * i.val) 16

/-- `RDA Ai`: the INF word last -/
def rda (i : Fin 8) : List HostEvent := readLimbs (0x800 + 0x80 * i.val) 17

/-- `RDJ Ji`: the INF word last -/
def rdj (i : Fin 8) : List HostEvent := readLimbs (0xC00 + 0x80 * i.val) 25

/-- `ISSUE <command>` -/
def issue (i : Instr) : List HostEvent := [writeEvent 0x004 (encode i)]

/-! What the host decides by what it reads. The host is no part of the unit: its program stands beside the unit's state,
and a schedule says which of the two moves next (log entries 3 and 22). -/

/-- One thing the host does in a program (R99). -/
inductive HostOp where
  /-- one access -/
  | access (e : HostEvent)
  /-- `MemWrite(dst, 4, MemRead(src, 4))` -/
  | copy (src dst : Nat)
  /-- the loop of `WAIT` -/
  | wait
deriving DecidableEq, Repr

/-- The pseudo-instructions (R99). -/
inductive Pseudo where
  | wrf (i : Fin 8) (v : U256)
  | wrw (i : Fin 8) (v : U512)
  | wra (i : Fin 8) (x y : U256)
  | wrainf (i : Fin 8)
  | wrj (i : Fin 8) (x y z : U256)
  | wrjinf (i : Fin 8)
  | ldg (i : Fin 8)
  | rdf (i : Fin 8)
  | rdw (i : Fin 8)
  | rda (i : Fin 8)
  | rdj (i : Fin 8)
  | issue (c : Instr)
  | wait
  | run (c : Instr)
deriving DecidableEq, Repr

/-- The expansion column of R99. -/
def Pseudo.expand : Pseudo → List HostOp
  | .wrf i v => (Machine.wrf i v).map .access
  | .wrw i v => (Machine.wrw i v).map .access
  | .wra i x y => (Machine.wra i x y).map .access
  | .wrainf i => (Machine.wrainf i).map .access
  | .wrj i x y z => (Machine.wrj i x y z).map .access
  | .wrjinf i => (Machine.wrjinf i).map .access
  | .ldg i =>
    (List.range 8).flatMap (fun j =>
      [.copy (0x120 + 4 * j) (0x800 + 0x80 * i.val + 4 * j), .copy (0x140 + 4 * j) (0x820 + 0x80 * i.val + 4 * j)]) ++
      [.access (writeEvent (0x840 + 0x80 * i.val) 0)]
  | .rdf i => (Machine.rdf i).map .access
  | .rdw i => (Machine.rdw i).map .access
  | .rda i => (Machine.rda i).map .access
  | .rdj i => (Machine.rdj i).map .access
  | .issue c => (Machine.issue c).map .access
  | .wait => [.wait]
  | .run c => (Machine.issue c).map .access ++ [.wait]

/-- A host program in the middle of its run: what is still to do, whether a `WAIT` has ended without leave to go on, and
the unit. -/
structure Session where
  ops     : List HostOp
  stopped : Bool
  unit    : State
deriving DecidableEq, Repr

/-- Go on with the unit's next state; a stop of the unit stops the session. -/
def Session.continue (o : Host.Outcome State Fault Refusal) (k : State → Session) : Host.Outcome Session Fault Refusal :=
  match o with
  | .next t => .next (k t)
  | .fault r => .fault r
  | .refused r => .refused r

/-- What `WAIT` does with the STATUS word it has read: BUSY = 1, read again; else the run continues only if DONE = 1 and
ERR = 0 (R99). -/
def Session.afterPoll (status : Word) (rest : List HostOp) (t : State) : Session :=
  if status.getLsbD 0 then { ops := .wait :: rest, stopped := false, unit := t }
  else if status.getLsbD 1 && !status.getLsbD 2 then { ops := rest, stopped := false, unit := t }
  else { ops := rest, stopped := true, unit := t }

/-- The host's next access. A copy is a read, after which the write is still to do. -/
def Session.hostMove (x : Session) : Host.Outcome Session Fault Refusal :=
  if x.stopped then .next x
  else match x.ops with
    | [] => .next x
    | .access e :: rest => Session.continue (handleEvent e x.unit) fun t => { x with ops := rest, unit := t }
    | .copy src dst :: rest =>
      Session.continue (handleEvent (readEvent src) x.unit) fun t =>
        { x with ops := .access (writeEvent dst (x.unit.memRead (BitVec.ofNat 12 src)).1) :: rest, unit := t }
    | .wait :: rest =>
      Session.continue (handleEvent (readEvent 0x008) x.unit) (Session.afterPoll (x.unit.memRead 0x008).1 rest)

/-- Who moves next. -/
inductive Mover where
  | host
  | unit
deriving DecidableEq, Repr

/-- A session along a schedule: host accesses and turns of the unit. -/
def Session.run : List Mover → Session → Host.Outcome Session Fault Refusal
  | [], x => .next x
  | m :: rest, x =>
    let moved := match m with
      | .host => x.hostMove
      | .unit => Session.continue (unitTurn x.unit) fun t => { x with unit := t }
    match moved with
    | .next y => Session.run rest y
    | .fault r => .fault r
    | .refused r => .refused r

end Sys2Proof.Machine
end

