-- ==== Sys2Proof/Machine/Kernels.lean ====
section
/-! DEFINITION. The limb-level algorithms the spec describes beside the value of a command: the limb forms of compare, add and subtract (spec/40_fixed_width.md R111, R113, R114), the operand- and product-scanning kernels and the symmetric squaring (spec/41_modular.md R123 to R125), and the nine partial values of the fast reducer with their correction (R127, R128). No command's meaning runs through them: the spec gives the value, and says the order of accumulation is not visible. -/

namespace Sys2Proof.Machine

/-- Compare from the most significant limb down; the lists hold the limbs most significant first (R111). -/
def cmpLimbsDown : List Word → List Word → Ordering
  | a :: as, b :: bs => if a.toNat < b.toNat then .lt else if b.toNat < a.toNat then .gt else cmpLimbsDown as bs
  | _, _ => .eq

/-- The limb form of compare (R111). -/
def cmpLimbs (a b : FixedReg) : Ordering := cmpLimbsDown a.toList.reverse b.toList.reverse

/-- Ripple-carry addition, limb 0 first: the result limbs and the final carry (R113). -/
def addLimbs : Nat → List Word → List Word → List Word × Nat
  | c, a :: as, b :: bs =>
    let t := a.toNat + b.toNat + c
    let (r, last) := addLimbs (t / 2 ^ 32) as bs
    (BitVec.ofNat 32 t :: r, last)
  | c, _, _ => ([], c)

/-- Ripple-borrow subtraction, limb 0 first: the result limbs and the final borrow (R114). -/
def subLimbs : Nat → List Word → List Word → List Word × Nat
  | w, a :: as, b :: bs =>
    let t : Int := (a.toNat : Int) - b.toNat - w
    let (r, last) := subLimbs (if t < 0 then 1 else 0) as bs
    (BitVec.ofInt 32 t :: r, last)
  | w, _, _ => ([], w)

/-- One row of operand scanning: c + x·b + u, limb by limb; the final u is the row's top limb (R123). -/
def rowScan (x : Word) : List Word → List Word → Nat → List Word
  | c :: cs, b :: bs, u =>
    let t := c.toNat + x.toNat * b.toNat + u
    BitVec.ofNat 32 t :: rowScan x cs bs (t / 2 ^ 32)
  | _, _, u => [BitVec.ofNat 32 u]

/-- Operand scanning: for every limb of a in turn, add its row to the result so far; the lowest limb of each row is
final. `acc` holds the limbs c_i .. c_(i+7) (R123). -/
def operandScan (b : List Word) : List Word → List Word → List Word
  | [], acc => acc
  | x :: rest, acc =>
    match rowScan x acc b 0 with
    | [] => []
    | low :: acc' => low :: operandScan b rest acc'

/-- `mulFull` as operand scanning on limbs (R123). -/
def mulFullOperandScanning (a b : FixedReg) : List Word :=
  operandScan b.toList a.toList (List.replicate 8 0)

/-- Limb i of a list as an integer, 0 beyond its end. -/
def limbNat (l : List Word) (i : Nat) : Nat := (l.getD i 0).toNat

/-- The products a_i·b_j with i + j = k and i < `bound` (R124). -/
def columnSum (a b : List Word) (k : Nat) : Nat → Nat
  | 0 => 0
  | i + 1 => columnSum a b k i + (if i ≤ k then limbNat a i * limbNat b (k - i) else 0)

/-- Product scanning: column by column with one accumulator; `left` columns from column k up, then the rest of the
accumulator (R124). -/
def columnScan (column : Nat → Nat) : Nat → Nat → Nat → List Word
  | 0, _, acc => [BitVec.ofNat 32 acc]
  | left + 1, k, acc =>
    let t := acc + column k
    BitVec.ofNat 32 t :: columnScan column left (k + 1) (t / 2 ^ 32)

/-- `mulFullProductScanning` on limbs (R124). -/
def mulFullProductScanning (a b : FixedReg) : List Word :=
  columnScan (fun k => columnSum a.toList b.toList k 8) 15 0 0

/-- Column k of the symmetric squaring: every cross term once, doubled, and the square of the middle limb (R125). -/
def squareColumn (a : List Word) (k : Nat) : Nat → Nat
  | 0 => 0
  | i + 1 =>
    squareColumn a k i +
      (if i < k - i ∧ i ≤ k then 2 * (limbNat a i * limbNat a (k - i))
       else if i + i = k then limbNat a i * limbNat a i else 0)

/-- `sqrFull` on limbs (R125). -/
def sqrFullScanning (a : FixedReg) : List Word := columnScan (fun k => squareColumn a.toList k 8) 15 0 0

/-- A partial value of the fast reducer from its limbs, most significant first, as the table of R127 writes it. -/
def partialValue (limbs : List Nat) : Nat := limbs.foldl (fun acc x => acc * 2 ^ 32 + x) 0

/-- Limb j of T as an integer. -/
def limbOf (T : Nat) (j : Nat) : Nat := T / 2 ^ (32 * j) % 2 ^ 32

/-- The nine partial values s0 to s8 (R127; the table is the spec's general knowledge G4, log entry 19). -/
def fastPartials (T : Nat) : List Nat :=
  let c := limbOf T
  [ partialValue [c 7, c 6, c 5, c 4, c 3, c 2, c 1, c 0],
    partialValue [c 15, c 14, c 13, c 12, c 11, 0, 0, 0],
    partialValue [0, c 15, c 14, c 13, c 12, 0, 0, 0],
    partialValue [c 15, c 14, 0, 0, 0, c 10, c 9, c 8],
    partialValue [c 8, c 13, c 15, c 14, c 13, c 11, c 10, c 9],
    partialValue [c 10, c 8, 0, 0, 0, c 13, c 12, c 11],
    partialValue [c 11, c 9, 0, 0, c 15, c 14, c 13, c 12],
    partialValue [c 12, 0, c 10, c 9, c 8, c 15, c 14, c 13],
    partialValue [c 13, 0, c 11, c 10, c 9, 0, c 15, c 14] ]

/-- s0 + 2·s1 + 2·s2 + s3 + s4 - s5 - s6 - s7 - s8 (R127). -/
def fastSum (T : Nat) : Int :=
  match fastPartials T with
  | [s0, s1, s2, s3, s4, s5, s6, s7, s8] =>
    (s0 : Int) + 2 * s1 + 2 * s2 + s3 + s4 - s5 - s6 - s7 - s8
  | _ => 0

/-- The net count of carries minus borrows: S div 2^256 (R128). -/
def fastCarries (T : Nat) : Int := fastSum T / 2 ^ 256

/-- The value after the single table correction: S - c·p, where c is the net count (R128). -/
def fastCorrected (T : Nat) : Int := fastSum T - fastCarries T * Config.p

/-- The table of multiples 1·p to 5·p (R32). The rule does not state how the table stores the bits above bit 255; the model
keeps exact integers, its own choice (DESIGN CHOICE, log entry 21). No meaning reads the table. -/
def multiplesOfP : List Nat := [1, 2, 3, 4, 5].map (· * Config.p)

end Sys2Proof.Machine
end

