-- ==== Sys2Proof/Safety.lean ====
section
/-! DEFINITION. The terms claims about the unit use: residues, the curve and what a register stands for on it, the domain of a command, frames, the machine invariant, the end of a run (spec/00_scope.md R8, R13; spec/10_state.md R20, R29, R42; spec/60_exceptions.md R211, R213; spec/70_reset_and_hazards.md R247, R253). -/

namespace Sys2Proof.Machine

/-- A 256-bit value as an element of the field of p elements. -/
def residue (v : U256) : ZMod Config.p := (v.toNat : ZMod Config.p)

/-- The curve y² = x³ - 3x + b over the field of p elements, in Mathlib's form (R8). Its points form a group under
Mathlib's chord and tangent law, which is written independently of this model. -/
def curve : WeierstrassCurve.Affine (ZMod Config.p) :=
  { a₁ := 0, a₂ := 0, a₃ := 0, a₄ := -3, a₆ := (Config.b : ZMod Config.p) }

/-- The affine value is in domain and is the point P: INF is the identity, (x, y) the point with these coordinates (R25). -/
def AffineValue.StandsFor : AffineValue → curve.Point → Prop
  | .inf, .zero => True
  | .point x y, .some X Y _ => fieldElement x = true ∧ fieldElement y = true ∧ residue x = X ∧ residue y = Y
  | _, _ => False

/-- The Jacobian value is in domain and its affine point (X·Z⁻², Y·Z⁻³) is P (R28). -/
def JacobianValue.StandsFor : JacobianValue → curve.Point → Prop
  | .inf, .zero => True
  | .point x y z, .some X Y _ =>
    (JacobianValue.point x y z).inDomain = true ∧ residue x = X * residue z ^ 2 ∧ residue y = Y * residue z ^ 3
  | _, _ => False

/-- The word made of these fields encodes the command in this format and decodes to it (R91, R92, R96). -/
def EncodedAs (i : Instr) (fmt : Format) (opc rd rs1 rs2 : Nat) : Prop :=
  i.row = (opc, fmt) ∧ encode i = packWord opc rd rs1 rs2 ∧ decodeWord (packWord opc rd rs1 rs2) = .ok i

/-- The command is in domain: every precondition its rule lists holds of its source values (R13). A2J is never out of domain
(R247), although R160 lists a precondition: the model follows R247 (DESIGN CHOICE, log entry 20). -/
def inDomain (s : State) : Instr → Prop
  | .cmp _ _ | .shr1 _ _ | .add _ _ _ | .sub _ _ _ => True
  | .mulfull _ _ _ | .mulfullps _ _ _ | .sqrfull _ _ => True
  | .addmod _ a b | .submod _ a b | .mulmod _ a b => fieldElement (s.readF a) ∧ fieldElement (s.readF b)
  | .fred _ t => ∃ a b, a < Config.p ∧ b < Config.p ∧ (s.readW t).toNat = a * b
  | .montred _ t => (s.readW t).toNat < Config.p * 2 ^ 256
  | .sqrmod _ a => fieldElement (s.readF a)
  | .inv _ a => s.readF a ≠ 0 ∧ fieldElement (s.readF a)
  | .a2j _ _ => True
  | .j2a _ q | .dblj _ q => (s.readJ q).inDomain
  | .addaff _ q r => (s.readA q).inDomain ∧ (s.readA r).inDomain
  | .dblaff _ q => (s.readA q).inDomain
  | .addja _ q r => (s.readJ q).inDomain ∧ (s.readA r).inDomain
  | .smulltr _ _ q | .smulrtl _ _ q => (s.readA q).inDomain
  | .smulwin _ _ | .smulbit _ _ => True

/-- What no completion changes: CMD, the error latch, IE, and what is the outside's (R211). -/
structure ControlKept (s t : State) : Prop where
  cmd     : t.cmd = s.cmd
  err     : t.err = s.err
  errcode : t.errcode = s.errcode
  errinfo : t.errinfo = s.errinfo
  ie      : t.ie = s.ie
  pending : t.pending = s.pending
  answers : t.answers = s.answers
  portDraws : t.portDraws = s.portDraws

/-- Nothing but F[rd], the flags, BUSY and DONE (and the model's draw counter) has changed. -/
structure FrameF (rd : FReg) (s t : State) : Prop where
  f : ∀ r, r ≠ rd → t.f.get r = s.f.get r
  w : t.w = s.w
  a : t.a = s.a
  j : t.j = s.j
  control : ControlKept s t

/-- Nothing but W[rd], BUSY and DONE has changed. -/
structure FrameW (rd : WReg) (s t : State) : Prop where
  f : t.f = s.f
  w : ∀ r, r ≠ rd → t.w.get r = s.w.get r
  a : t.a = s.a
  j : t.j = s.j
  flags : t.flags = s.flags
  control : ControlKept s t

/-- Nothing but A[rd], BUSY and DONE (and the model's draw counter) has changed. -/
structure FrameA (rd : AReg) (s t : State) : Prop where
  f : t.f = s.f
  w : t.w = s.w
  a : ∀ r, r ≠ rd → t.a.get r = s.a.get r
  j : t.j = s.j
  flags : t.flags = s.flags
  control : ControlKept s t

/-- Nothing but J[rd], BUSY and DONE (and the model's draw counter) has changed. -/
structure FrameJ (rd : JReg) (s t : State) : Prop where
  f : t.f = s.f
  w : t.w = s.w
  a : t.a = s.a
  j : ∀ r, r ≠ rd → t.j.get r = s.j.get r
  flags : t.flags = s.flags
  control : ControlKept s t

/-- The completion of a command has happened: BUSY = 0, DONE = 1 (R211). -/
def Completed (t : State) : Prop := t.busy = false ∧ t.done = true

/-- The data registers, the flags, the latch, CMD and the unit's draws are as they were (R211, R216). -/
structure CommandUndisturbed (s t : State) : Prop where
  f : t.f = s.f
  w : t.w = s.w
  a : t.a = s.a
  j : t.j = s.j
  flags : t.flags = s.flags
  latch : t.latch = s.latch
  cmd : t.cmd = s.cmd
  draws : t.draws = s.draws

/-- The error latch took (code, info) if it was empty, and is unchanged otherwise; nothing else differs (R213). -/
def LatchedError (code : BitVec 4) (info : Word) (s t : State) : Prop :=
  (s.err = false → t = { s with err := true, errcode := code, errinfo := info }) ∧ (s.err = true → t = s)

/-- The error an access causes in the state s, by the table of R212: its code and its information word. -/
def errorCause (s : State) : HostEvent → Option (BitVec 4 × Word)
  | .write off _ v =>
    if slotAt off = .cmd then
      if s.busy then some (2, v)
      else match decodeWord v with
        | .error _ => some (1, v)
        | .ok _ => none
    else if (slotAt off).isData && s.busy then some (3, off.setWidth 32)
    else none
  | _ => none

/-- The command's result, if it has one that a field or point command reads, is in domain (R246). A2J copies coordinates as
they are (R160), so its result is in domain when its source is. -/
def ResultInDomain (s t : State) : Instr → Prop
  | .addmod d _ _ | .submod d _ _ | .mulmod d _ _ => fieldElement (t.readF d) = true
  | .fred d _ | .montred d _ | .sqrmod d _ | .inv d _ => fieldElement (t.readF d) = true
  | .a2j d q => (s.readA q).inDomain = true → (t.readJ d).inDomain = true
  | .dblj d _ | .addja d _ _ => (t.readJ d).inDomain = true
  | .j2a d _ | .addaff d _ _ | .dblaff d _ => (t.readA d).inDomain = true
  | .smulltr d _ _ | .smulrtl d _ _ | .smulwin d _ | .smulbit d _ => (t.readA d).inDomain = true
  | .cmp _ _ | .shr1 _ _ | .add _ _ _ | .sub _ _ _ => True
  | .mulfull _ _ _ | .mulfullps _ _ _ | .sqrfull _ _ => True

/-- What a command's turn may change: its destination register, the flags its rule names and no other flag, BUSY and DONE
(R29, R211, R247). -/
def DestinationFrame (s t : State) : Instr → Prop
  | .addmod d _ _ | .submod d _ _ | .mulmod d _ _ => FrameF d s t ∧ t.flags = s.flags
  | .fred d _ | .montred d _ | .sqrmod d _ | .inv d _ => FrameF d s t ∧ t.flags = s.flags
  | .mulfull d _ _ | .mulfullps d _ _ | .sqrfull d _ => FrameW d s t
  | .a2j d _ | .dblj d _ | .addja d _ _ => FrameJ d s t
  | .j2a d _ | .addaff d _ _ | .dblaff d _ => FrameA d s t
  | .smulltr d _ _ | .smulrtl d _ _ | .smulwin d _ | .smulbit d _ => FrameA d s t
  | .cmp _ _ => t.f = s.f ∧ t.w = s.w ∧ t.a = s.a ∧ t.j = s.j ∧ t.flags.c = s.flags.c ∧ ControlKept s t
  | .shr1 d _ | .add d _ _ | .sub d _ _ => FrameF d s t ∧ t.flags = { s.flags with c := t.flags.c }

/-- The commands that contain an inversion, class H (R247). -/
def classHCommand : Instr → Bool
  | .inv .. | .j2a .. | .addaff .. | .dblaff .. | .smulltr .. | .smulrtl .. | .smulwin .. | .smulbit .. => true
  | _ => false

/-- The two states differ at most in coordinates of point registers whose inf is 1 in both (R26 a). -/
structure SameButInfCoordinates (s t : State) : Prop where
  f : s.f = t.f
  w : s.w = t.w
  aInf : ∀ i, (s.a.get i).inf = (t.a.get i).inf
  a : ∀ i, (s.a.get i).inf = false → s.a.get i = t.a.get i
  jInf : ∀ i, (s.j.get i).inf = (t.j.get i).inf
  j : ∀ i, (s.j.get i).inf = false → s.j.get i = t.j.get i
  flags : s.flags = t.flags
  latch : s.latch = t.latch
  done : s.done = t.done
  draws : s.draws = t.draws
  control : ControlKept s t

/-- The control registers after a reset (R50): every one reads 0, no command is in flight, irq is low. -/
structure ControlReset (t : State) : Prop where
  cmd : t.readSlot .cmd = 0
  status : t.readSlot .status = 0
  ctrl : t.readSlot .ctrl = 0
  flags : t.readSlot .flags = 0
  errinfo : t.readSlot .errinfo = 0
  latch : t.latch = none
  irq : t.irq = false

/-- The machine invariant: what holds of every state a run reaches. -/
structure Inv (s : State) : Prop where
  /-- ERRCODE and ERRINFO are 0 when ERR = 0 (R42, R45) -/
  errorClear : s.err = false → s.errcode = 0 ∧ s.errinfo = 0
  /-- only the codes 1, 2 and 3 are ever latched (R212) -/
  errorCode : s.err = true → s.errcode = 1 ∨ s.errcode = 2 ∨ s.errcode = 3
  /-- a command in flight is the last accepted word, decodes, and DONE is 0 (R37, R210) -/
  latched : ∀ w, s.latch = some w → s.cmd = w ∧ (∃ i, decodeWord w = .ok i) ∧ s.done = false
  /-- CMD holds 0 or an accepted, hence legal, word (R41) -/
  command : s.cmd = 0 ∨ ∃ i, decodeWord s.cmd = .ok i
  /-- EQ, LT and GT are one-hot, or all 0 when no compare has been done (R29) -/
  oneHot : s.flags.eq.toNat + s.flags.lt.toNat + s.flags.gt.toNat ≤ 1

/-- A host access: not a turn of the unit, not a hardware reset. -/
def HostEvent.isAccess : HostEvent → Bool
  | .read .. | .write .. => true
  | _ => false

/-- The event resets the unit: `rst_n`, or a write of 1 to CTRL bit 31 (R240, R241). -/
def HostEvent.resets : HostEvent → Bool
  | .hwReset => true
  | .write off _ v => slotAt off == .ctrl && v.getLsbD 31
  | _ => false

/-- The event clears the error latch: a write of 1 to STATUS bit 2 (R42). -/
def HostEvent.clearsError : HostEvent → Bool
  | .write off _ v => slotAt off == .status && v.getLsbD 2
  | _ => false

/-- The access is one the port can express (R62). -/
def HostEvent.wellFormed : HostEvent → Bool
  | .read off size => accessWellFormed off size
  | .write off size _ => accessWellFormed off size
  | _ => true

/-- k steps from s end in t, none of them a stop (R253). -/
def Runs (k : Nat) (s t : State) : Prop := Sys2Proof.core.run k s = .next t

/-- A run is over: nothing is pending and no command is in flight (R253). -/
def State.runOver (s : State) : Bool := s.pending.isEmpty && !s.busy

/-- A good end: in addition ERR = 0 (R253). -/
def State.goodEnd (s : State) : Bool := s.runOver && !s.err

end Sys2Proof.Machine
end

