-- ==== Sys2Proof/Certificates/Slice0/Obligations.lean ====
section
/-! DEFINITION. The statements about the unit that the provers are asked to settle, one per `def Obligations.<Name> : Prop`, each with the rule of spec/ it formalises. -/

open Sys2Proof Sys2Proof.Machine

/-! ## The command word -/

/-- R98: the six example words read as the spec writes them; R97: the all-zero word, opcode 0xFF, and an ADD with bit 23
set are illegal. -/
def Obligations.ExampleWordsDecode : Prop :=
  (decodeWord 0x20201000#32).map Instr.asm = .ok "ADDMOD F2, F0, F1" ∧
  (decodeWord 0x23307000#32).map Instr.asm = .ok "MULFULLPS W3, F0, F7" ∧
  (decodeWord 0x10012000#32).map Instr.asm = .ok "CMP F1, F2" ∧
  (decodeWord 0x43112000#32).map Instr.asm = .ok "ADDJA J1, J1, A2" ∧
  (decodeWord 0x50001000#32).map Instr.asm = .ok "SMULLTR A0, F0, A1" ∧
  (decodeWord 0x52730000#32).map Instr.asm = .ok "SMULWIN A7, F3" ∧
  decodeWord 0x00000000#32 = .error .unknownOpcode ∧ decodeWord 0xFF000000#32 = .error .unknownOpcode ∧
  decodeWord 0x12812000#32 = .error .mustBeZero

/-- R91, R96: decoding the encoded word of any command, with any indices, gives the command back, by the table form of
the decoder too; and a legal word is the encoding of the command it decodes to, so no bit of it is dropped. -/
def Obligations.DecodeAndEncodeAgree : Prop :=
  (∀ i : Instr, i.wellFormed = true →
    decodeWord (encode i) = .ok i ∧ decodeTableWord 32 (encode i).toNat = some i) ∧
  ∀ (w : Word) (i : Instr), decodeWord w = .ok i → encode i = w ∧ i.wellFormed = true

/-- R92: the three masks, and a word encodes a command of a format exactly when (w AND mask) = match for an opcode of
that format. -/
def Obligations.WordEncodesExactlyWhenMaskMatches : Prop :=
  Format.mask .r3 = 0xFF888FFF#32 ∧ Format.mask .r2 = 0xFF88FFFF#32 ∧ Format.mask .c2 = 0xFFF88FFF#32 ∧
  ∀ (fmt : Format) (w : Word),
    (∃ i, decodeWord w = .ok i ∧ i.row.2 = fmt) ↔
      ∃ opc, (opc, fmt) ∈ opcodeRows ∧ w &&& fmt.mask = BitVec.ofNat 32 (opc * 2 ^ 24)

/-- R96: the decode procedure. Opcode not in the table: illegal. Else the format test decides; if it passes, the command
has this opcode and format and its operands are the fields of its format, bits 22:20, 18:16 and 14:12. -/
def Obligations.DecodeFollowsProcedure : Prop :=
  ∀ w : Word,
    let opc := (w.extractLsb' 24 8).toNat
    let rd := (w.extractLsb' 20 3).toNat
    let rs1 := (w.extractLsb' 16 3).toNat
    let rs2 := (w.extractLsb' 12 3).toNat
    (opc ∉ opcodeRows.map Prod.fst → decodeWord w = .error .unknownOpcode) ∧
    ∀ fmt, (opc, fmt) ∈ opcodeRows →
      (w &&& fmt.mask ≠ BitVec.ofNat 32 (opc * 2 ^ 24) → decodeWord w = .error .mustBeZero) ∧
      (w &&& fmt.mask = BitVec.ofNat 32 (opc * 2 ^ 24) →
        ∃ i, decodeWord w = .ok i ∧ i.row = (opc, fmt) ∧
          i.operands = match fmt with
            | .r3 => [rd, rs1, rs2]
            | .r2 => [rd, rs1]
            | .c2 => [rs1, rs2])

/-- R97: 24 opcodes, all different, so 232 of the 256 opcode values are illegal: the decoder refuses every word with an opcode
outside the table and every word with a table opcode and a 1 in a must-be-zero bit of its format; every index 0 to 7 is legal in every
register field a format uses; an illegal word offered while BUSY = 0 latches error 1 with the word, and does nothing else. -/
def Obligations.IllegalWordsLatchErrorOne : Prop :=
  (opcodeRows.map Prod.fst).Nodup ∧ (opcodeRows.map Prod.fst).length = 24 ∧
  ((List.range 256).filter fun opc => !(opcodeRows.map Prod.fst).contains opc).length = 232 ∧
  (∀ w : Word, (w.extractLsb' 24 8).toNat ∉ opcodeRows.map Prod.fst → ∃ r, decodeWord w = .error r) ∧
  (∀ w : Word, ∀ row ∈ opcodeRows, (w.extractLsb' 24 8).toNat = row.1 →
    w &&& row.2.mask &&& 0x00FFFFFF#32 ≠ 0 → ∃ r, decodeWord w = .error r) ∧
  (∀ row ∈ opcodeRows, ∀ rd rs1 rs2 : Fin 8, ∃ i, decodeWord
    (packWord row.1 (if row.2 = .c2 then 0 else rd.val) rs1.val (if row.2 = .r2 then 0 else rs2.val)) = .ok i) ∧
  ∀ (s : State) (w : Word) (r : Reject), s.busy = false → decodeWord w = .error r →
    LatchedError 1 w s (s.memWrite 0x004 w) ∧ (s.memWrite 0x004 w).busy = false ∧
      (s.memWrite 0x004 w).done = s.done

/-! ## Offering, running, completing -/

/-- R210: a write to CMD. Busy: dropped with error 2. Idle and illegal: dropped with error 1. Idle and legal: accepted,
CMD, BUSY and DONE change and nothing else, an error latched earlier included. -/
def Obligations.OfferedCommandAcceptedOrDropped : Prop :=
  ∀ (s : State) (w : Word),
    (s.busy = true → LatchedError 2 w s (s.memWrite 0x004 w)) ∧
    (s.busy = false → (∃ r, decodeWord w = .error r) → LatchedError 1 w s (s.memWrite 0x004 w)) ∧
    (s.busy = false → (∃ i, decodeWord w = .ok i) →
      s.memWrite 0x004 w = { s with cmd := w, latch := some w, done := false } ∧
      (s.memWrite 0x004 w).busy = true)

/-- A step runs the latched command: when the latched word decodes to a command and the unit's turn comes (next in the
list, or the list is empty), the step is `exec` of that command (R211). -/
def Obligations.StepRunsLatchedCommand : Prop :=
  ∀ (s : State) (w : Word) (i : Instr), s.latch = some w → decodeWord w = .ok i →
    (s.pending = [] → step s = exec i s) ∧
    (∀ rest, s.pending = .unitTurn :: rest → step s = exec i { s with pending := rest })

/-- R210 then R211: a legal word written to CMD while idle, then the unit's turn: two steps, the second of which is
`exec` of the command on the data registers as they were at the write. -/
def Obligations.OfferedWordRuns : Prop :=
  ∀ (s : State) (w : Word) (i : Instr) (rest : List HostEvent),
    s.busy = false → decodeWord w = .ok i → s.pending = .write 0x004 4 w :: .unitTurn :: rest →
    ∃ s1, step s = .next s1 ∧ s1.busy = true ∧ s1.cmd = w ∧
      step s1 = exec i { s with cmd := w, latch := some w, done := false, pending := rest }

/-- The model's own: `withFetchWord` places a command where the very next step runs it (log entry 12). -/
def Obligations.FetchWordRunsNext : Prop :=
  ∀ (s : State) (nbits w : Nat) (i : Instr), decodeTableWord nbits w = some i →
    let word : Word := BitVec.ofNat 32 (w % 2 ^ nbits)
    step (s.withFetchWord nbits w) = exec i { s with cmd := word, latch := some word, done := false }

/-- R213: the first error is latched, a later one is lost, and nothing else changes; `irq` then follows IE; the unit still
accepts commands; and an access with a cause of R212 has no effect but the latch. -/
def Obligations.FirstErrorLatchedLaterLost : Prop :=
  ∀ (s : State) (code : BitVec 4) (info : Word),
    LatchedError code info s (s.raise code info) ∧
    (s.raise code info).irq = s.ie ∧
    (∀ (e : HostEvent) (t : State), errorCause s e = some (code, info) → handleEvent e s = .next t →
      LatchedError code info s t) ∧
    ∀ (w : Word) (i : Instr), s.busy = false → decodeWord w = .ok i →
      ((s.raise code info).memWrite 0x004 w).busy = true ∧ ((s.raise code info).memWrite 0x004 w).err = true ∧
      ((s.raise code info).memWrite 0x004 w).errinfo = (s.raise code info).errinfo

/-- R212: the three causes of an error are the only ones. An event with one of them latches that code and information
word and has no other effect; any other event, and any completion whatever its operands, leaves ERR at 0. -/
def Obligations.OnlyThreeErrorCauses : Prop :=
  ∀ (s t : State) (e : HostEvent), handleEvent e s = .next t →
    (∀ code info, errorCause s e = some (code, info) →
      LatchedError code info s t ∧ (code = 1 ∨ code = 2 ∨ code = 3)) ∧
    (errorCause s e = none → s.err = false → t.err = false)

/-- R216: as long as only the host moves and does not reset, whatever it reads and writes, for as long as it likes, the
running command's registers, every other data register, the flags, the latch and CMD stay as they are. -/
def Obligations.RunningCommandUndisturbed : Prop :=
  ∀ (k : Nat) (s : State), s.busy = true → k ≤ s.pending.length →
    (∀ e ∈ s.pending.take k, e.isAccess = true ∧ e.wellFormed = true ∧ e.resets = false) →
    ∃ t, Runs k s t ∧ CommandUndisturbed s t ∧ t.pending = s.pending.drop k

/-- R213, R219: over a run of any length, completions included, the first error stays latched until the host clears it
or resets. -/
def Obligations.FirstErrorKept : Prop :=
  ∀ (k : Nat) (s t : State), s.err = true →
    (∀ e ∈ s.pending.take k, e.resets = false ∧ e.clearsError = false) →
    Runs k s t → t.err = true ∧ t.errcode = s.errcode ∧ t.errinfo = s.errinfo

/-- R211, R224: whatever the command and its operands, the unit's turn either completes it, changing nothing but its
destination, the flags its rule names, BUSY and DONE, or leaves the whole state as it was; idle, it keeps all state. -/
def Obligations.CompletionChangesOnlyItsDestination : Prop :=
  (∀ (i : Instr) (s : State), ∃ t, exec i s = .next t ∧ ControlKept s t ∧ DestinationFrame s t i ∧
    (Completed t ∨ t = s)) ∧
  ∀ s : State, s.latch = none → unitTurn s = .next s

/-- R146, R248, the spec's own inference from R145: INV of 0 or of p never completes: whatever the host does short of a
reset, and however often the unit has its turn, the command stays latched and DONE stays 0. And R247, R248: any command whose
turn does not complete it, whatever the cause, never completes either (that the two outcomes are told apart by a free Bool
is log entry 5). -/
def Obligations.InverseOfZeroNeverCompletes : Prop :=
  (∀ (k : Nat) (s : State) (w : Word) (rd ra : FReg), s.latch = some w → decodeWord w = .ok (.inv rd ra) →
    (s.readF ra = 0 ∨ (s.readF ra).toNat = Config.p) → s.done = false →
    (∀ e ∈ s.pending.take k, e.wellFormed = true ∧ e.resets = false) →
    ∃ t, Runs k s t ∧ t.latch = some w ∧ t.busy = true ∧ t.done = false ∧ t.readF ra = s.readF ra) ∧
  ∀ (k : Nat) (s : State) (w : Word) (i : Instr), s.latch = some w → decodeWord w = .ok i → exec i s = .next s →
    s.done = false → (∀ e ∈ s.pending.take k, e.wellFormed = true ∧ e.resets = false) →
    ∃ t, Runs k s t ∧ t.busy = true ∧ t.done = false ∧ CommandUndisturbed s t ∧ exec i t = .next t

/-- R50, R240, R241: after a hardware reset, and after a write to CTRL with bit 31 = 1 (which has exactly that effect,
IE included, whatever was running), the control registers are at their reset values; so is `State.reset`. The data
registers are draws, of which nothing is said. -/
def Obligations.ResetLeavesControlRegisters : Prop :=
  ControlReset State.reset ∧ State.reset.readSlot .id = 0xECC25601#32 ∧
  ∀ (s : State) (v : Word), v.getLsbD 31 = true →
    handleEvent .hwReset s = .next (s.memWrite 0x00C v) ∧ ControlReset (s.memWrite 0x00C v) ∧
    (s.memWrite 0x00C v).readSlot .id = 0xECC25601#32 ∧ (s.memWrite 0x00C v).ie = false ∧
    (s.memWrite 0x00C v).busy = false

/-! ## Control registers -/

/-- R219: the acknowledgements 0x4, 0x2 and 0x6 and what each clears, nothing else changing; a second error while
ERR = 1 is not recorded; after the clear the next one is. -/
def Obligations.AcknowledgeClearsExactly : Prop :=
  ∀ s : State,
    s.memWrite 0x008 0x4 = { s with err := false, errcode := 0, errinfo := 0 } ∧
    s.memWrite 0x008 0x2 = { s with done := false } ∧
    s.memWrite 0x008 0x6 = { s with done := false, err := false, errcode := 0, errinfo := 0 } ∧
    (∀ (c1 c2 : BitVec 4) (i1 i2 : Word), (s.raise c1 i1).raise c2 i2 = s.raise c1 i1) ∧
    (∀ (c : BitVec 4) (i : Word), ((s.memWrite 0x008 0x4).raise c i).err = true ∧
      ((s.memWrite 0x008 0x4).raise c i).errcode = c ∧ ((s.memWrite 0x008 0x4).raise c i).errinfo = i)

/-- R42: the bits of STATUS as a read returns them, and what a write of any word does, in any state of the unit: bit 1
clears DONE, bit 2 clears ERR with ERRCODE and ERRINFO, a 0 changes nothing, the other bits are ignored. -/
def Obligations.StatusReadsAndClears : Prop :=
  ∀ (s : State) (v : Word),
    (s.memRead 0x008).2 = s ∧ (s.memRead 0x008).1.getLsbD 0 = s.busy ∧ (s.memRead 0x008).1.getLsbD 1 = s.done ∧
    (s.memRead 0x008).1.getLsbD 2 = s.err ∧ (s.memRead 0x008).1.getLsbD 3 = false ∧
    (s.memRead 0x008).1.extractLsb' 4 4 = s.errcode ∧ (s.memRead 0x008).1.extractLsb' 8 24 = 0 ∧
    s.memWrite 0x008 v = { s with
      done := s.done && !v.getLsbD 1
      err := s.err && !v.getLsbD 2
      errcode := if v.getLsbD 2 then 0 else s.errcode
      errinfo := if v.getLsbD 2 then 0 else s.errinfo }

/-- R43: CTRL reads IE in bit 0 and 0 elsewhere, SRST included; a write with bit 31 = 1 resets and discards IE; any other
write sets IE to bit 0 and does nothing else, in any state of the unit. -/
def Obligations.CtrlHoldsIeAndResets : Prop :=
  ∀ (s : State) (v : Word),
    s.memRead 0x00C = (if s.ie then 1 else 0, s) ∧
    (v.getLsbD 31 = true → s.memWrite 0x00C v = s.resetUnit ∧ (s.memWrite 0x00C v).ie = false) ∧
    (v.getLsbD 31 = false → s.memWrite 0x00C v = { s with ie := v.getLsbD 0 })

/-- R44: FLAGS reads C, EQ, LT, GT in bits 0 to 3 and 0 elsewhere, also while BUSY; a write is ignored; and the only steps
that change a flag are a completion of CMP, SHR1, ADD or SUB and a reset. -/
def Obligations.FlagsChangeOnlyAtNamedCompletions : Prop :=
  (∀ (s : State) (v : Word),
    (s.memRead 0x010).2 = s ∧ (s.memRead 0x010).1.getLsbD 0 = s.flags.c ∧ (s.memRead 0x010).1.getLsbD 1 = s.flags.eq ∧
    (s.memRead 0x010).1.getLsbD 2 = s.flags.lt ∧ (s.memRead 0x010).1.getLsbD 3 = s.flags.gt ∧
    (s.memRead 0x010).1.extractLsb' 4 28 = 0 ∧ s.memWrite 0x010 v = s) ∧
  ∀ s t : State, step s = .next t → t.flags ≠ s.flags →
    (∃ e, s.pending.head? = some e ∧ e.resets = true) ∨
    ∃ w i, s.latch = some w ∧ decodeWord w = .ok i ∧ t.busy = false ∧
      ((∃ a b, i = .cmp a b) ∨ (∃ d a, i = .shr1 d a) ∨ (∃ d a b, i = .add d a b) ∨ ∃ d a b, i = .sub d a b)

/-- R46, R218: irq is IE AND (DONE OR ERR), and each of the ways of clearing it clears it: clearing DONE and ERR, clearing
IE, accepting a command when no error is latched, a reset. -/
def Obligations.IrqFollowsIeDoneErr : Prop :=
  ∀ s : State,
    (s.irq = true ↔ s.ie = true ∧ (s.done = true ∨ s.err = true)) ∧
    (s.memWrite 0x008 0x6).irq = false ∧
    (∀ v : Word, v.getLsbD 31 = false → v.getLsbD 0 = false → (s.memWrite 0x00C v).irq = false) ∧
    (∀ (w : Word) (i : Instr), s.busy = false → decodeWord w = .ok i → (s.memWrite 0x004 w).irq = (s.ie && s.err)) ∧
    s.resetUnit.irq = false

/-! ## The window -/

/-- R61, R64 to R70: every aligned offset of the window holds the one word whose offset the map gives as that, and the
ranges the map calls unmapped hold none. -/
def Obligations.WindowMapPlacesEveryWord : Prop :=
  ∀ off : Offset, off.toNat % 4 = 0 →
    (∀ slot, slot.offset = some off.toNat ↔ (slotAt off = slot ∧ slot ≠ .unmapped)) ∧
    ((0x018 ≤ off.toNat ∧ off.toNat ≤ 0x0FF) ∨ (0x1C0 ≤ off.toNat ∧ off.toNat ≤ 0x1FF) ∨
      (0x300 ≤ off.toNat ∧ off.toNat ≤ 0x3FF) ∨ (0x600 ≤ off.toNat ∧ off.toNat ≤ 0x7FF) ∨
      (∃ i : Fin 8, 0x844 + 0x80 * i.val ≤ off.toNat ∧ off.toNat ≤ 0x87C + 0x80 * i.val) ∨
      (∃ i : Fin 8, 0xC64 + 0x80 * i.val ≤ off.toNat ∧ off.toNat ≤ 0xC7C + 0x80 * i.val) ↔
      slotAt off = .unmapped)

/-- R62, R74: an access that is not an aligned 32-bit word is refused. Any other read answers, and what it answers is 0 if
the offset is unmapped, the register's word if it is a control register, a constant, or a data word while idle, and a
draw if it is a data word while BUSY. ID reads 0xECC25601, CMD the last accepted word, ERRINFO what the error latch
holds, in every state (R40, R41, R45). Any other write is performed: nothing if unmapped or read-only, a data word stored
while idle, dropped with error 3 while BUSY. -/
def Obligations.AccessPrimitivesAnswerAndStore : Prop :=
  ∀ (s : State) (off : Offset) (size : Nat) (v : Word),
    s.memRead 0x000 = (0xECC25601#32, s) ∧ s.memRead 0x004 = (s.cmd, s) ∧ s.memRead 0x014 = (s.errinfo, s) ∧
    (¬(size = 4 ∧ off.toNat % 4 = 0) →
      hostRead s off size = .refused .accessNotExpressible ∧ hostWrite s off size v = .refused .accessNotExpressible) ∧
    (size = 4 ∧ off.toNat % 4 = 0 →
      (∃ x t, hostRead s off size = .next { t with answers := (off, x) :: s.answers } ∧
        (slotAt off = .unmapped → x = 0 ∧ t = s) ∧
        ((slotAt off).isData = false ∨ s.busy = false → x = s.readSlot (slotAt off) ∧ t = s) ∧
        ((slotAt off).isData = true ∧ s.busy = true → t = s.tickPort)) ∧
      ∃ t, hostWrite s off size v = .next t ∧
        (slotAt off = .unmapped ∨ slotAt off = .id ∨ slotAt off = .flags ∨ slotAt off = .errinfo ∨
          (∃ c j, slotAt off = .const c j) → t = s) ∧
        ((slotAt off).isData = true → s.busy = false → t = s.storeSlot v (slotAt off)) ∧
        ((slotAt off).isData = true → s.busy = true → LatchedError 3 (off.setWidth 32) s t))

/-- R66 to R69: while BUSY = 0, the word at each register's offsets is that limb of that register (for an INF word, the
flag in bit 0 and 0 above it), a read of it changes nothing, and a write to it stores it there and nowhere else. -/
def Obligations.RegisterWordsReadAndWritten : Prop :=
  ∀ (s : State) (i : Fin 8) (v : Word), s.busy = false →
    (∀ j : Fin 8, s.memRead (BitVec.ofNat 12 (0x200 + 0x20 * i.val + 4 * j.val)) = ((s.f.get i).get j, s) ∧
      s.memWrite (BitVec.ofNat 12 (0x200 + 0x20 * i.val + 4 * j.val)) v =
        { s with f := s.f.set i ((s.f.get i).set j v) }) ∧
    (∀ j : Fin 16, s.memRead (BitVec.ofNat 12 (0x400 + 0x40 * i.val + 4 * j.val)) = ((s.w.get i).get j, s) ∧
      s.memWrite (BitVec.ofNat 12 (0x400 + 0x40 * i.val + 4 * j.val)) v =
        { s with w := s.w.set i ((s.w.get i).set j v) }) ∧
    (∀ j : Fin 8, s.memRead (BitVec.ofNat 12 (0x800 + 0x80 * i.val + 4 * j.val)) = ((s.a.get i).x.get j, s) ∧
      s.memRead (BitVec.ofNat 12 (0x820 + 0x80 * i.val + 4 * j.val)) = ((s.a.get i).y.get j, s) ∧
      s.memWrite (BitVec.ofNat 12 (0x800 + 0x80 * i.val + 4 * j.val)) v =
        { s with a := s.a.set i { s.a.get i with x := (s.a.get i).x.set j v } } ∧
      s.memWrite (BitVec.ofNat 12 (0x820 + 0x80 * i.val + 4 * j.val)) v =
        { s with a := s.a.set i { s.a.get i with y := (s.a.get i).y.set j v } }) ∧
    s.memRead (BitVec.ofNat 12 (0x840 + 0x80 * i.val)) = (if (s.a.get i).inf then 1 else 0, s) ∧
    s.memWrite (BitVec.ofNat 12 (0x840 + 0x80 * i.val)) v =
      { s with a := s.a.set i { s.a.get i with inf := v.getLsbD 0 } } ∧
    (∀ k : Fin 15, s.memRead (BitVec.ofNat 12 (0x844 + 0x80 * i.val + 4 * k.val)) = (0, s) ∧
      s.memWrite (BitVec.ofNat 12 (0x844 + 0x80 * i.val + 4 * k.val)) v = s) ∧
    (∀ j : Fin 8, s.memRead (BitVec.ofNat 12 (0xC00 + 0x80 * i.val + 4 * j.val)) = ((s.j.get i).x.get j, s) ∧
      s.memRead (BitVec.ofNat 12 (0xC20 + 0x80 * i.val + 4 * j.val)) = ((s.j.get i).y.get j, s) ∧
      s.memRead (BitVec.ofNat 12 (0xC40 + 0x80 * i.val + 4 * j.val)) = ((s.j.get i).z.get j, s) ∧
      s.memWrite (BitVec.ofNat 12 (0xC00 + 0x80 * i.val + 4 * j.val)) v =
        { s with j := s.j.set i { s.j.get i with x := (s.j.get i).x.set j v } } ∧
      s.memWrite (BitVec.ofNat 12 (0xC20 + 0x80 * i.val + 4 * j.val)) v =
        { s with j := s.j.set i { s.j.get i with y := (s.j.get i).y.set j v } } ∧
      s.memWrite (BitVec.ofNat 12 (0xC40 + 0x80 * i.val + 4 * j.val)) v =
        { s with j := s.j.set i { s.j.get i with z := (s.j.get i).z.set j v } }) ∧
    s.memRead (BitVec.ofNat 12 (0xC60 + 0x80 * i.val)) = (if (s.j.get i).inf then 1 else 0, s) ∧
    s.memWrite (BitVec.ofNat 12 (0xC60 + 0x80 * i.val)) v =
      { s with j := s.j.set i { s.j.get i with inf := v.getLsbD 0 } } ∧
    (∀ k : Fin 7, s.memRead (BitVec.ofNat 12 (0xC64 + 0x80 * i.val + 4 * k.val)) = (0, s) ∧
      s.memWrite (BitVec.ofNat 12 (0xC64 + 0x80 * i.val + 4 * k.val)) v = s)

/-- R63: a byte-addressed bridge sees a register as little-endian bytes, least significant first, while BUSY = 0: 32
consecutive bytes for a 256-bit value, 64 for a DoubleWidth. A byte is bits 8k+7 to 8k of what the aligned read of its word
returns, busy or not. -/
def Obligations.RegistersAreLittleEndian : Prop :=
  (∀ (s : State) (j : Fin 1024) (k : Fin 4),
    s.windowByte (BitVec.ofNat 12 (4 * j.val + k.val)) =
      (s.memRead (BitVec.ofNat 12 (4 * j.val))).1.extractLsb' (8 * k.val) 8) ∧
  ∀ (s : State) (i : Fin 8), s.busy = false →
    (∀ k : Fin 32, s.windowByte (BitVec.ofNat 12 (0x200 + 0x20 * i.val + k.val)) =
      (s.readF i).extractLsb' (8 * k.val) 8) ∧
    (∀ k : Fin 64, s.windowByte (BitVec.ofNat 12 (0x400 + 0x40 * i.val + k.val)) =
      (s.readW i).extractLsb' (8 * k.val) 8) ∧
    (∀ k : Fin 32, s.windowByte (BitVec.ofNat 12 (0x800 + 0x80 * i.val + k.val)) =
      (s.a.get i).x.value.extractLsb' (8 * k.val) 8) ∧
    (∀ k : Fin 32, s.windowByte (BitVec.ofNat 12 (0x820 + 0x80 * i.val + k.val)) =
      (s.a.get i).y.value.extractLsb' (8 * k.val) 8) ∧
    (∀ k : Fin 32, s.windowByte (BitVec.ofNat 12 (0xC00 + 0x80 * i.val + k.val)) =
      (s.j.get i).x.value.extractLsb' (8 * k.val) 8) ∧
    (∀ k : Fin 32, s.windowByte (BitVec.ofNat 12 (0xC20 + 0x80 * i.val + k.val)) =
      (s.j.get i).y.value.extractLsb' (8 * k.val) 8) ∧
    (∀ k : Fin 32, s.windowByte (BitVec.ofNat 12 (0xC40 + 0x80 * i.val + k.val)) =
      (s.j.get i).z.value.extractLsb' (8 * k.val) 8)

/-- R70: in any state of the unit, an unmapped offset reads 0 and ignores writes, a read-only register ignores writes,
and a write of reserved bits alone changes nothing (STATUS; the upper bits of CTRL beside the IE it holds). -/
def Obligations.UnmappedAndReadOnlyIgnoreWrites : Prop :=
  ∀ (s : State) (off : Offset) (v : Word),
    (slotAt off = .unmapped → s.memRead off = (0, s) ∧ s.memWrite off v = s) ∧
    (slotAt off = .id ∨ slotAt off = .flags ∨ slotAt off = .errinfo ∨ (∃ c j, slotAt off = .const c j) →
      s.memWrite off v = s) ∧
    (v.getLsbD 1 = false → v.getLsbD 2 = false → s.memWrite 0x008 v = s) ∧
    (v.getLsbD 31 = false → v.getLsbD 0 = s.ie → s.memWrite 0x00C v = s)

/-- R65: the six constants, limb j at the base offset plus 4·j, read their values at all times, BUSY or not, and ignore
writes. -/
def Obligations.ConstantsAlwaysReadTrue : Prop :=
  ∀ (s : State) (v : Word) (j : Fin 8) (base value : Nat),
    (base, value) ∈ [(0x100, Config.p), (0x120, Config.gx), (0x140, Config.gy), (0x160, Config.pprime),
      (0x180, Config.rmodp), (0x1A0, Config.r2modp)] →
    s.memRead (BitVec.ofNat 12 (base + 4 * j.val)) = (BitVec.ofNat 32 (value / 2 ^ (32 * j.val)), s) ∧
    s.memWrite (BitVec.ofNat 12 (base + 4 * j.val)) v = s

/-- R73: while BUSY = 1 a control register or constant reads its true value; what a read of a data register returns tells
nothing of any register: two busy states that agree on the port's draw counter alone give the same word, and the read
changes nothing but that counter. That a word drawn is a function of the counter is the model's own law (DESIGN CHOICE, log
entry 1), no rule's. -/
def Obligations.BusyReadsTellNothing : Prop :=
  ∀ (s : State) (off : Offset), s.busy = true →
    ((slotAt off).isData = false → s.memRead off = (s.readSlot (slotAt off), s)) ∧
    ((slotAt off).isData = true →
      (s.memRead off).2 = { s with portDraws := s.portDraws + 1 } ∧
      ∀ s' : State, s'.busy = true → s'.portDraws = s.portDraws → (s'.memRead off).1 = (s.memRead off).1)

/-- R8, R30, R31: the constants meet their definitions; the literals of G and b are what the spec supplies from general
knowledge (log entry 9), and G satisfies the curve equation with that b. -/
def Obligations.ConstantsMeetDefinitions : Prop :=
  Config.p = 2 ^ 256 - 2 ^ 224 + 2 ^ 192 + 2 ^ 96 - 1 ∧ Config.p % 2 = 1 ∧
  (Config.p * Config.pprime + 1) % 2 ^ 256 = 0 ∧ Config.pprime < 2 ^ 256 ∧
  Config.rmodp = 2 ^ 256 - Config.p ∧ Config.r2modp = (2 ^ 256 * 2 ^ 256) % Config.p ∧
  Config.gx < Config.p ∧ Config.gy < Config.p ∧ Config.b < Config.p ∧
  (Config.gy ^ 2 + 3 * Config.gx) % Config.p = (Config.gx ^ 3 + Config.b) % Config.p

/-- R99: each writing pseudo-instruction, run while BUSY = 0, leaves its register with its value and everything else as it
was; LDG leaves the base point, copied as R99 writes it. WAIT reads STATUS again while BUSY = 1, and then the run continues
only if DONE = 1 and ERR = 0. RUN, from an idle unit without an error, runs its command, however often the host polls, and
when the command has completed the program continues. (How host and unit are interleaved is log entries 3 and 22.) -/
def Obligations.PseudoInstructionsWrite : Prop :=
  (∀ (s : State) (i : Fin 8) (rest : List HostEvent), s.busy = false →
    (∀ v : U256, s.pending = wrf i v ++ rest → Runs 8 s { s.writeF i v with pending := rest }) ∧
    (∀ v : U512, s.pending = wrw i v ++ rest → Runs 16 s { s.writeW i v with pending := rest }) ∧
    (∀ x y : U256, s.pending = wra i x y ++ rest →
      Runs 17 s { s.writeA i (.point x y) with pending := rest }) ∧
    (s.pending = wrainf i ++ rest →
      Runs 1 s { s with a := s.a.set i { s.a.get i with inf := true }, pending := rest }) ∧
    (∀ x y z : U256, s.pending = wrj i x y z ++ rest →
      Runs 25 s { s.writeJ i (.point x y z) with pending := rest }) ∧
    (s.pending = wrjinf i ++ rest →
      Runs 1 s { s with j := s.j.set i { s.j.get i with inf := true }, pending := rest }) ∧
    (s.pending = ldg i ++ rest →
      ∃ answers, Runs 33 s { s.writeA i baseG with pending := rest, answers := answers })) ∧
  (∀ (s : State) (i : Fin 8) (rest : List HostOp), s.busy = false →
    ∃ answers, Session.run (List.replicate 33 .host) { ops := (Pseudo.ldg i).expand ++ rest, stopped := false, unit := s } =
      .next { ops := rest, stopped := false, unit := { s.writeA i baseG with answers := answers } }) ∧
  (∀ (s : State) (rest : List HostOp),
    let polled : State := { s with answers := (0x008, s.statusWord) :: s.answers }
    let x : Session := { ops := .wait :: rest, stopped := false, unit := s }
    (s.busy = true → x.hostMove = .next { x with unit := polled }) ∧
    (s.busy = false → s.done = true → s.err = false → x.hostMove = .next { x with ops := rest, unit := polled }) ∧
    (s.busy = false → s.done = false ∨ s.err = true →
      x.hostMove = .next { ops := rest, stopped := true, unit := polled } ∧
      Session.hostMove { ops := rest, stopped := true, unit := polled } =
        .next { ops := rest, stopped := true, unit := polled })) ∧
  ∀ (s : State) (c : Instr) (polls : Nat) (rest : List HostOp), s.busy = false → s.err = false →
    ∃ answers u, exec c { s with cmd := encode c, latch := some (encode c), done := false, answers := answers } = .next u ∧
      (Completed u →
        Session.run (.host :: List.replicate polls .host ++ [.unit, .host])
            { ops := (Pseudo.run c).expand ++ rest, stopped := false, unit := s } =
          .next { ops := rest, stopped := false, unit := { u with answers := (0x008, u.statusWord) :: u.answers } })

/-! ## The machine invariant -/

/-- The invariant holds after reset (R50). -/
def Obligations.ResetMeetsInvariant : Prop := Inv State.reset

/-- Every step keeps the invariant: the error latch is clear when ERR = 0 and holds one of the three codes when it is 1,
the latched command is legal and is what CMD reads, DONE is 0 while it runs, the compare flags stay one-hot or all 0
(R29, R41, R42, R210, R212). -/
def Obligations.StepKeepsInvariant : Prop := ∀ s t : State, Inv s → step s = .next t → Inv t

/-- From a state with the invariant no step faults, and a step is refused only where the next event is an access the port
cannot express (R62, R214). -/
def Obligations.StepsOnlyRefuseIllFormedAccesses : Prop :=
  ∀ s : State, Inv s →
    (∀ f, step s ≠ .fault f) ∧
    (∀ r, step s = .refused r → ∃ e, s.pending.head? = some e ∧ e.wellFormed = false)

/-! ## The fixed-width core -/

/-- R111: CMP compares the two 256-bit values as unsigned integers, most significant limb first; EQ, LT, GT one-hot, C
kept, no data register written. -/
def Obligations.CmpSetsOneHotFlags : Prop :=
  ∀ (s : State) (a b : FReg),
    EncodedAs (.cmp a b) .c2 0x10 0 a b ∧
    cmpLimbs (s.f.get a) (s.f.get b) = compare (s.readF a).toNat (s.readF b).toNat ∧
    ∃ t, exec (.cmp a b) s = .next t ∧ Completed t ∧ DestinationFrame s t (.cmp a b) ∧
      t.flags = { c := s.flags.c
                  eq := decide ((s.readF a).toNat = (s.readF b).toNat)
                  lt := decide ((s.readF a).toNat < (s.readF b).toNat)
                  gt := decide ((s.readF b).toNat < (s.readF a).toNat) }

/-- R112: SHR1 halves, a 0 entering at bit 255, and C takes the bit shifted out; EQ, LT, GT kept. -/
def Obligations.Shr1HalvesAndShiftsOutBitZero : Prop :=
  ∀ (s : State) (rd a : FReg),
    EncodedAs (.shr1 rd a) .r2 0x11 rd a 0 ∧
    ∃ t, exec (.shr1 rd a) s = .next t ∧ Completed t ∧ DestinationFrame s t (.shr1 rd a) ∧
      (t.readF rd).toNat = (s.readF a).toNat / 2 ∧ (t.readF rd).getLsbD 255 = false ∧
      (∀ j : Fin 7, ((t.f.get rd)[j.val]'(by omega)).getLsbD 31 = ((s.f.get a)[j.val + 1]'(by omega)).getLsbD 0) ∧
      t.flags = { s.flags with c := (s.readF a).getLsbD 0 }

/-- R113: ADD, modulo 2^256 with the carry in C, which is not an input; the ripple-carry limb form gives the same. -/
def Obligations.AddGivesSumAndCarry : Prop :=
  ∀ (s : State) (rd a b : FReg),
    EncodedAs (.add rd a b) .r3 0x12 rd a b ∧
    ∃ t, exec (.add rd a b) s = .next t ∧ Completed t ∧ DestinationFrame s t (.add rd a b) ∧
      (t.readF rd).toNat = ((s.readF a).toNat + (s.readF b).toNat) % 2 ^ 256 ∧
      t.flags = { s.flags with c := t.flags.c } ∧
      t.flags.c.toNat = ((s.readF a).toNat + (s.readF b).toNat) / 2 ^ 256 ∧
      addLimbs 0 (s.f.get a).toList (s.f.get b).toList = ((t.f.get rd).toList, t.flags.c.toNat)

/-- R114: SUB, first source minus second modulo 2^256 with the borrow in C; the ripple-borrow limb form gives the same. -/
def Obligations.SubGivesDifferenceAndBorrow : Prop :=
  ∀ (s : State) (rd a b : FReg),
    EncodedAs (.sub rd a b) .r3 0x13 rd a b ∧
    ∃ t, exec (.sub rd a b) s = .next t ∧ Completed t ∧ DestinationFrame s t (.sub rd a b) ∧
      ((t.readF rd).toNat : Int) = (((s.readF a).toNat : Int) - (s.readF b).toNat) % 2 ^ 256 ∧
      t.flags = { s.flags with c := decide ((s.readF a).toNat < (s.readF b).toNat) } ∧
      subLimbs 0 (s.f.get a).toList (s.f.get b).toList = ((t.f.get rd).toList, t.flags.c.toNat)

/-! ## The modular engine -/

/-- R121, R122: ADDMOD gives (a + b) mod p and SUBMOD (a - b) mod p for operands below p; out of domain both complete,
changing nothing but F[RD]. -/
def Obligations.AddmodSubmodGiveResidues : Prop :=
  ∀ (s : State) (rd a b : FReg),
    EncodedAs (.addmod rd a b) .r3 0x20 rd a b ∧ EncodedAs (.submod rd a b) .r3 0x21 rd a b ∧
    (∃ t, exec (.addmod rd a b) s = .next t ∧ Completed t ∧ DestinationFrame s t (.addmod rd a b) ∧
      ((s.readF a).toNat < Config.p → (s.readF b).toNat < Config.p →
        (t.readF rd).toNat = ((s.readF a).toNat + (s.readF b).toNat) % Config.p)) ∧
    ∃ t, exec (.submod rd a b) s = .next t ∧ Completed t ∧ DestinationFrame s t (.submod rd a b) ∧
      ((s.readF a).toNat < Config.p → (s.readF b).toNat < Config.p →
        ((t.readF rd).toNat : Int) = (((s.readF a).toNat : Int) - (s.readF b).toNat) % Config.p)

/-- R123, R124: MULFULL and MULFULLPS write the exact product of any two 256-bit values, and both limb orders, operand
scanning and product scanning, give its limbs (the limb loops are the spec's general knowledge, log entry 19). -/
def Obligations.MulfullGivesExactProduct : Prop :=
  ∀ (s : State) (rd : WReg) (a b : FReg),
    EncodedAs (.mulfull rd a b) .r3 0x22 rd a b ∧ EncodedAs (.mulfullps rd a b) .r3 0x23 rd a b ∧
    ∃ t, exec (.mulfull rd a b) s = .next t ∧ exec (.mulfullps rd a b) s = .next t ∧ Completed t ∧
      DestinationFrame s t (.mulfull rd a b) ∧
      (t.readW rd).toNat = (s.readF a).toNat * (s.readF b).toNat ∧
      mulFullOperandScanning (s.f.get a) (s.f.get b) = (t.w.get rd).toList ∧
      mulFullProductScanning (s.f.get a) (s.f.get b) = (t.w.get rd).toList

/-- R125: SQRFULL writes the exact square of any 256-bit value, the same as MULFULL of it with itself, and the symmetric
limb form gives its limbs (that form is the spec's general knowledge, log entry 19). -/
def Obligations.SqrfullGivesExactSquare : Prop :=
  ∀ (s : State) (rd : WReg) (a : FReg),
    EncodedAs (.sqrfull rd a) .r2 0x24 rd a 0 ∧
    ∃ t, exec (.sqrfull rd a) s = .next t ∧ exec (.mulfull rd a a) s = .next t ∧ Completed t ∧
      DestinationFrame s t (.sqrfull rd a) ∧ (t.readW rd).toNat = (s.readF a).toNat ^ 2 ∧
      sqrFullScanning (s.f.get a) = (t.w.get rd).toList

/-- R126: FRED gives T mod p for every product of two values below p; for any other T it completes, changing nothing but
F[RD]. -/
def Obligations.FredReducesProducts : Prop :=
  ∀ (s : State) (rd : FReg) (a : WReg),
    EncodedAs (.fred rd a) .r2 0x25 rd a 0 ∧
    ∃ t, exec (.fred rd a) s = .next t ∧ Completed t ∧ DestinationFrame s t (.fred rd a) ∧
      ((∃ x y, x < Config.p ∧ y < Config.p ∧ (s.readW a).toNat = x * y) →
        (t.readF rd).toNat = (s.readW a).toNat % Config.p)

/-- R127, R128: the nine partial values are 256-bit and their signed sum is congruent to T modulo p, for every 512-bit T;
subtracting the net carry count times p keeps the congruence. The table is the spec's general knowledge (log entry 19). -/
def Obligations.NinePartialValuesCongruent : Prop :=
  ∀ T : Nat, T < 2 ^ 512 →
    (fastPartials T).length = 9 ∧ (∀ x ∈ fastPartials T, x < 2 ^ 256) ∧
    (fastPartials T).head? = some (T % 2 ^ 256) ∧
    fastSum T % (Config.p : Int) = (T : Int) % Config.p ∧
    fastCorrected T % (Config.p : Int) = (T : Int) % Config.p ∧
    (0 ≤ fastSum T - fastCarries T * 2 ^ 256 ∧ fastSum T - fastCarries T * 2 ^ 256 < 2 ^ 256)

/-- R141: MONTRED gives, for T < p·2^256, the canonical value that R = 2^256 multiplies back to T modulo p; out of domain
it completes, changing nothing but F[RD]. -/
def Obligations.MontredDividesByR : Prop :=
  ∀ (s : State) (rd : FReg) (a : WReg),
    EncodedAs (.montred rd a) .r2 0x26 rd a 0 ∧
    ∃ t, exec (.montred rd a) s = .next t ∧ Completed t ∧ DestinationFrame s t (.montred rd a) ∧
      ((s.readW a).toNat < Config.p * 2 ^ 256 →
        (t.readF rd).toNat < Config.p ∧
        ((t.readF rd).toNat * 2 ^ 256) % Config.p = (s.readW a).toNat % Config.p ∧
        (let U := ((s.readW a).toNat % 2 ^ 256 * Config.pprime) % 2 ^ 256
         let V := ((s.readW a).toNat + U * Config.p) / 2 ^ 256
         ((s.readW a).toNat + U * Config.p) % 2 ^ 256 = 0 ∧ V < 2 * Config.p ∧
           (t.readF rd).toNat = if Config.p ≤ V then V - Config.p else V))

/-- R142, R143: MULMOD gives a·b mod p and SQRMOD a·a mod p for operands below p, by the chained reductions; out of domain
both complete, changing nothing but F[RD]. -/
def Obligations.MulmodSqrmodGiveProducts : Prop :=
  ∀ (s : State) (rd a b : FReg),
    EncodedAs (.mulmod rd a b) .r3 0x27 rd a b ∧ EncodedAs (.sqrmod rd a) .r2 0x28 rd a 0 ∧
    (∃ t, exec (.mulmod rd a b) s = .next t ∧ Completed t ∧ DestinationFrame s t (.mulmod rd a b) ∧
      ((s.readF a).toNat < Config.p → (s.readF b).toNat < Config.p →
        (t.readF rd).toNat = ((s.readF a).toNat * (s.readF b).toNat) % Config.p ∧
        t.readF rd = montred (mulfull (montred (mulfull (s.readF a) (s.readF b))) (BitVec.ofNat 256 Config.r2modp)))) ∧
    ∃ t, exec (.sqrmod rd a) s = .next t ∧ Completed t ∧ DestinationFrame s t (.sqrmod rd a) ∧
      ((s.readF a).toNat < Config.p →
        (t.readF rd).toNat = ((s.readF a).toNat ^ 2) % Config.p ∧
        t.readF rd = montred (mulfull (montred (sqrfull (s.readF a))) (BitVec.ofNat 256 Config.r2modp)))

/-- R144: halving a residue: x/2 if x is even, (x + p)/2 if it is odd, in [0, p), and twice the half is x modulo p. -/
def Obligations.HalfHalvesResidues : Prop :=
  ∀ x : U256, x.toNat < Config.p →
    (half x).toNat = (if x.toNat % 2 = 0 then x.toNat / 2 else (x.toNat + Config.p) / 2) ∧
    (half x).toNat < Config.p ∧ 2 * (half x).toNat % Config.p = x.toNat

/-- R145, R146: for 0 < a < p INV completes with the unique x in [1, p) with a·x ≡ 1 modulo p, which is a^(p-2) mod p; for
0 and p it never completes, by the spec's own inference in R146; above p it completes or it does not, changing nothing
but F[RD]. -/
def Obligations.InvGivesUniqueInverse : Prop :=
  ∀ (s : State) (rd a : FReg),
    EncodedAs (.inv rd a) .r2 0x29 rd a 0 ∧
    (0 < (s.readF a).toNat → (s.readF a).toNat < Config.p →
      ∃ t, exec (.inv rd a) s = .next t ∧ Completed t ∧ DestinationFrame s t (.inv rd a) ∧
        0 < (t.readF rd).toNat ∧ (t.readF rd).toNat < Config.p ∧
        (s.readF a).toNat * (t.readF rd).toNat % Config.p = 1 ∧
        residue (t.readF rd) = residue (s.readF a) ^ (Config.p - 2) ∧
        ∀ y, y < Config.p → (s.readF a).toNat * y % Config.p = 1 → y = (t.readF rd).toNat) ∧
    ((s.readF a).toNat = 0 ∨ (s.readF a).toNat = Config.p → exec (.inv rd a) s = .next s) ∧
    (Config.p < (s.readF a).toNat →
      ∃ t, exec (.inv rd a) s = .next t ∧ (t = s ∨ Completed t ∧ DestinationFrame s t (.inv rd a)))

/-- R147 and the document's other field properties: commutativity, the square, the inverse, `subMod` undoing `addMod`, and
the two reduction paths agreeing. -/
def Obligations.FieldIdentitiesHold : Prop :=
  ∀ a b : U256, a.toNat < Config.p → b.toNat < Config.p →
    mulmod a b = mulmod b a ∧ sqrmod a = mulmod a a ∧
    (a ≠ 0 → ∃ x, inv a = some x ∧ mulmod x a = 1) ∧
    submod (addmod a b) b = a ∧ addmod a b = addmod b a ∧ fred (mulfull a b) = mulmod a b

/-! ## Points -/

/-- R160: A2J copies a finite point with Z = 1 and passes infinity on, whatever the coordinates; it always completes. -/
def Obligations.A2jLiftsPoint : Prop :=
  ∀ (s : State) (rd : JReg) (a : AReg),
    EncodedAs (.a2j rd a) .r2 0x30 rd a 0 ∧
    ∃ t, exec (.a2j rd a) s = .next t ∧ Completed t ∧ DestinationFrame s t (.a2j rd a) ∧
      (t.j.get rd).inf = (s.a.get a).inf ∧
      ((s.a.get a).inf = false →
        (t.j.get rd).x.value = (s.a.get a).x.value ∧ (t.j.get rd).y.value = (s.a.get a).y.value ∧
        (t.j.get rd).z.value = 1)

/-- R161: J2A in domain completes with the canonical (x, y) with x·Z² ≡ X and y·Z³ ≡ Y, or with infinity, the same for
every equivalent triple; with Z = 0 and inf = 0 it never completes. -/
def Obligations.J2aGivesAffinePoint : Prop :=
  (∀ (s : State) (rd : AReg) (a : JReg),
    EncodedAs (.j2a rd a) .r2 0x31 rd a 0 ∧
    ((s.readJ a).inDomain = true →
      ∃ t, exec (.j2a rd a) s = .next t ∧ Completed t ∧ DestinationFrame s t (.j2a rd a) ∧
        (s.readJ a = .inf → t.readA rd = .inf) ∧
        ∀ x y z, s.readJ a = .point x y z →
          ∃ u v, t.readA rd = .point u v ∧ u.toNat < Config.p ∧ v.toNat < Config.p ∧
            u.toNat * z.toNat ^ 2 % Config.p = x.toNat ∧ v.toNat * z.toNat ^ 3 % Config.p = y.toNat) ∧
    (∀ x y, s.readJ a = .point x y 0 → exec (.j2a rd a) s = .next s)) ∧
  ∀ x y z l : U256, (JacobianValue.point x y z).inDomain = true → l.toNat < Config.p → l ≠ 0 →
    j2a (.point (mulmod (sqrmod l) x) (mulmod (mulmod (sqrmod l) l) y) (mulmod l z)) = j2a (.point x y z)

/-- R171: ADDAFF in domain completes: infinity is neutral, equal points double, equal x with different y gives infinity,
else the chord; and the addition is commutative. The chord and the order of the cases are the spec's (log entry 18). -/
def Obligations.AddaffFollowsCases : Prop :=
  (∀ (s : State) (rd a b : AReg),
    EncodedAs (.addaff rd a b) .r3 0x40 rd a b ∧
    ((s.readA a).inDomain = true → (s.readA b).inDomain = true →
      ∃ t, exec (.addaff rd a b) s = .next t ∧ Completed t ∧ DestinationFrame s t (.addaff rd a b) ∧
        (s.readA a = .inf → t.readA rd = s.readA b) ∧ (s.readA b = .inf → t.readA rd = s.readA a) ∧
        ∀ x1 y1 x2 y2, s.readA a = .point x1 y1 → s.readA b = .point x2 y2 →
          (x1 = x2 → y1 ≠ y2 → t.readA rd = .inf) ∧
          (x1 = x2 → y1 = y2 → some (t.readA rd) = dblaff (.point x1 y1)) ∧
          (x1 ≠ x2 → ∃ (x3 y3 : U256) (lam : ZMod Config.p), t.readA rd = .point x3 y3 ∧
            x3.toNat < Config.p ∧ y3.toNat < Config.p ∧
            lam * (residue x2 - residue x1) = residue y2 - residue y1 ∧
            residue x3 = lam ^ 2 - residue x1 - residue x2 ∧
            residue y3 = lam * (residue x1 - residue x3) - residue y1))) ∧
  ∀ q r : AffineValue, q.inDomain = true → r.inDomain = true → addaff q r = addaff r q

/-- R172: DBLAFF in domain completes: infinity and y = 0 give infinity, else the tangent with a = -3; twice G is the
value the spec gives. The tangent and the case y = 0 are the spec's (log entry 18). -/
def Obligations.DblaffFollowsTangent : Prop :=
  (∀ (s : State) (rd a : AReg),
    EncodedAs (.dblaff rd a) .r2 0x41 rd a 0 ∧
    ((s.readA a).inDomain = true →
      ∃ t, exec (.dblaff rd a) s = .next t ∧ Completed t ∧ DestinationFrame s t (.dblaff rd a) ∧
        (s.readA a = .inf → t.readA rd = .inf) ∧
        ∀ x y, s.readA a = .point x y →
          (y = 0 → t.readA rd = .inf) ∧
          (y ≠ 0 → ∃ (x3 y3 : U256) (lam : ZMod Config.p), t.readA rd = .point x3 y3 ∧
            x3.toNat < Config.p ∧ y3.toNat < Config.p ∧
            lam * (2 * residue y) = 3 * residue x ^ 2 - 3 ∧ residue x3 = lam ^ 2 - 2 * residue x ∧
            residue y3 = lam * (residue x - residue x3) - residue y))) ∧
  dblaff baseG = some (.point 0x7CF27B188D034F7E8A52380304B51AC3C08969E277F21B35A60B48FC47669978#256
    0x07775510DB8ED040293D9AC69F7430DBBA7DADE63CE982299E04B79D227873D1#256)

/-- R173: DBLJ in domain completes: infinity and Y = 0 give infinity, else the triple of the closed form, in domain; out
of domain it completes, changing nothing but J[RD]. The formula is the spec's (log entry 18). -/
def Obligations.DbljWritesClosedForm : Prop :=
  ∀ (s : State) (rd a : JReg),
    EncodedAs (.dblj rd a) .r2 0x42 rd a 0 ∧
    ∃ t, exec (.dblj rd a) s = .next t ∧ Completed t ∧ DestinationFrame s t (.dblj rd a) ∧
      ((s.readJ a).inDomain = true →
        (s.readJ a = .inf → t.readJ rd = .inf) ∧
        ∀ x1 y1 z1, s.readJ a = .point x1 y1 z1 →
          (y1 = 0 → t.readJ rd = .inf) ∧
          (y1 ≠ 0 → ∃ x3 y3 z3, t.readJ rd = .point x3 y3 z3 ∧ (t.readJ rd).inDomain = true ∧
            let M := 3 * (residue x1 - residue z1 ^ 2) * (residue x1 + residue z1 ^ 2)
            let S := 4 * residue x1 * residue y1 ^ 2
            residue x3 = M ^ 2 - 2 * S ∧ residue y3 = M * (S - residue x3) - 8 * residue y1 ^ 4 ∧
              residue z3 = 2 * residue y1 * residue z1))

/-- R174: ADDJA in domain completes: the four cases in their order, then the generic triple, in domain; out of domain it
completes, changing nothing but J[RD]. The generic formula is the spec's (log entry 18). -/
def Obligations.AddjaFollowsFourCases : Prop :=
  ∀ (s : State) (rd a : JReg) (b : AReg),
    EncodedAs (.addja rd a b) .r3 0x43 rd a b ∧
    ∃ t, exec (.addja rd a b) s = .next t ∧ Completed t ∧ DestinationFrame s t (.addja rd a b) ∧
      ((s.readJ a).inDomain = true → (s.readA b).inDomain = true →
        (s.readJ a = .inf → t.readJ rd = a2j (s.readA b)) ∧
        (s.readA b = .inf → t.readJ rd = s.readJ a) ∧
        ∀ x1 y1 z1 x2 y2, s.readJ a = .point x1 y1 z1 → s.readA b = .point x2 y2 →
          let H := residue x2 * residue z1 ^ 2 - residue x1
          let r := residue y2 * residue z1 ^ 3 - residue y1
          (H = 0 → r = 0 → t.readJ rd = dblj (.point x1 y1 z1)) ∧
          (H = 0 → r ≠ 0 → t.readJ rd = .inf) ∧
          (H ≠ 0 → ∃ x3 y3 z3, t.readJ rd = .point x3 y3 z3 ∧ (t.readJ rd).inDomain = true ∧
            residue x3 = r ^ 2 - H ^ 3 - 2 * (residue x1 * H ^ 2) ∧
            residue y3 = r * (residue x1 * H ^ 2 - residue x3) - residue y1 * H ^ 3 ∧
            residue z3 = residue z1 * H))

/-- R175, the spec's own inference from R171 to R174: on the curve the commands compute the group law, every special case
included: ADDAFF P + Q, DBLAFF P + P, DBLJ
P + P, ADDJA P + Q, and A2J and J2A keep the point. The group is Mathlib's, of the points of y² = x³ - 3x + b. -/
def Obligations.PointCommandsComputeGroupLaw : Prop :=
  ∀ [Fact (Nat.Prime Config.p)] (s : State) (da a b : AReg) (dj j : JReg) (P Q R : curve.Point),
    (s.readA a).StandsFor P → (s.readA b).StandsFor Q → (s.readJ j).StandsFor R →
    (∃ t, exec (.addaff da a b) s = .next t ∧ Completed t ∧ (t.readA da).StandsFor (P + Q)) ∧
    (∃ t, exec (.dblaff da a) s = .next t ∧ Completed t ∧ (t.readA da).StandsFor (P + P)) ∧
    (∃ t, exec (.dblj dj j) s = .next t ∧ Completed t ∧ (t.readJ dj).StandsFor (R + R)) ∧
    (∃ t, exec (.addja dj j a) s = .next t ∧ Completed t ∧ (t.readJ dj).StandsFor (R + P)) ∧
    (∃ t, exec (.a2j dj a) s = .next t ∧ Completed t ∧ (t.readJ dj).StandsFor P) ∧
    (∃ t, exec (.j2a da j) s = .next t ∧ Completed t ∧ (t.readA da).StandsFor R)

/-- R190 to R194: the four scalar multiplications complete for every scalar and every base in domain, on the curve or
not, with a result in domain, changing nothing but A[RD]; a base or a scalar of 0 gives infinity, a scalar of 1 the base. -/
def Obligations.ScalarCommandsComplete : Prop :=
  ∀ (s : State) (rd : AReg) (k : FReg) (b : AReg),
    EncodedAs (.smulltr rd k b) .r3 0x50 rd k b ∧ EncodedAs (.smulrtl rd k b) .r3 0x51 rd k b ∧
    EncodedAs (.smulwin rd k) .r2 0x52 rd k 0 ∧ EncodedAs (.smulbit rd k) .r2 0x53 rd k 0 ∧
    ((s.readA b).inDomain = true →
      (∃ t, exec (.smulltr rd k b) s = .next t ∧ Completed t ∧ DestinationFrame s t (.smulltr rd k b) ∧
        some (t.readA rd) = smulLtr (s.readF k) (s.readA b) ∧ (t.readA rd).inDomain = true ∧
        (s.readF k = 0 ∨ s.readA b = .inf → t.readA rd = .inf) ∧ (s.readF k = 1 → t.readA rd = s.readA b)) ∧
      (∃ t, exec (.smulrtl rd k b) s = .next t ∧ Completed t ∧ DestinationFrame s t (.smulrtl rd k b) ∧
        some (t.readA rd) = smulRtl (s.readF k) (s.readA b) ∧ (t.readA rd).inDomain = true ∧
        (s.readF k = 0 ∨ s.readA b = .inf → t.readA rd = .inf) ∧ (s.readF k = 1 → t.readA rd = s.readA b))) ∧
    (∃ t, exec (.smulwin rd k) s = .next t ∧ Completed t ∧ DestinationFrame s t (.smulwin rd k) ∧
      some (t.readA rd) = smulWin (s.readF k) ∧ (t.readA rd).inDomain = true ∧
      (s.readF k = 0 → t.readA rd = .inf) ∧ (s.readF k = 1 → t.readA rd = baseG)) ∧
    ∃ t, exec (.smulbit rd k) s = .next t ∧ Completed t ∧ DestinationFrame s t (.smulbit rd k) ∧
      some (t.readA rd) = smulBit (s.readF k) ∧ (t.readA rd).inDomain = true ∧
      (s.readF k = 0 → t.readA rd = .inf) ∧ (s.readF k = 1 → t.readA rd = baseG)

/-- R195, the spec's own inference from R191 to R194: for a base on the curve SMULLTR and SMULRTL give [k]B, SMULWIN and
SMULBIT give [k]G, for every 256-bit k, in
Mathlib's group of points; [n]G is the identity, so k and k + n give the same multiple of G. -/
def Obligations.ScalarMultiplesAgree : Prop :=
  ∀ [Fact (Nat.Prime Config.p)] (s : State) (rd : AReg) (k : FReg) (G : curve.Point), baseG.StandsFor G →
    (∀ (b : AReg) (B : curve.Point), (s.readA b).StandsFor B →
      (∃ t, exec (.smulltr rd k b) s = .next t ∧ Completed t ∧ (t.readA rd).StandsFor ((s.readF k).toNat • B)) ∧
      (∃ t, exec (.smulrtl rd k b) s = .next t ∧ Completed t ∧ (t.readA rd).StandsFor ((s.readF k).toNat • B))) ∧
    (∃ t, exec (.smulwin rd k) s = .next t ∧ Completed t ∧ (t.readA rd).StandsFor ((s.readF k).toNat • G)) ∧
    (∃ t, exec (.smulbit rd k) s = .next t ∧ Completed t ∧ (t.readA rd).StandsFor ((s.readF k).toNat • G)) ∧
    Config.n • G = 0 ∧ ∀ m : Nat, (m + Config.n) • G = m • G

/-- R33, R34: the window table has 256 entries, entry v the point [v]G, entry 0 infinity and no other; the bit table has
256 entries, entry i the point [2^i]G, none of them infinity. -/
def Obligations.TableEntriesAreMultiples : Prop :=
  ∀ [Fact (Nat.Prime Config.p)] (G : curve.Point), baseG.StandsFor G →
    windowTableLTR.length = 256 ∧ bitTableRTL.length = 256 ∧
    (∀ v, v < 256 → ∃ q, windowTableLTR[v]? = some q ∧ q.StandsFor (v • G) ∧ (q = .inf ↔ v = 0)) ∧
    (∀ i, i < 256 → ∃ q, bitTableRTL[i]? = some q ∧ q.StandsFor ((2 ^ i) • G) ∧ q ≠ .inf)

/-! ## Domain -/

/-- R247: a command issued out of domain completes like any other, changing nothing but its destination, and only a command
with an inversion may instead never complete; no error is raised. INV of 0 or p, and J2A of Z = 0 with inf = 0, never
complete. A2J, CMP, SHR1, ADD, SUB and the three full products are never out of domain (A2J by R247, log entry 20), nor are
SMULWIN and SMULBIT. -/
def Obligations.OutOfDomainTouchesOnlyDestination : Prop :=
  ∀ (i : Instr) (s : State),
    (¬ inDomain s i → ∃ t, exec i s = .next t ∧ t.err = s.err ∧
      ((Completed t ∧ DestinationFrame s t i) ∨ (classHCommand i = true ∧ t = s))) ∧
    (∀ rd a, i = .inv rd a → (s.readF a = 0 ∨ (s.readF a).toNat = Config.p) → exec i s = .next s) ∧
    (∀ rd a x y, i = .j2a rd a → s.readJ a = .point x y 0 → exec i s = .next s) ∧
    (i.row.1 < 0x20 ∨ i.row.1 = 0x22 ∨ i.row.1 = 0x23 ∨ i.row.1 = 0x24 ∨ i.row.1 = 0x30 ∨ i.row.1 = 0x52 ∨ i.row.1 = 0x53 →
      inDomain s i)

/-- R211, R246: every command in domain completes, and its field or point result is in domain, A2J's when its source is (log
entry 20): the domain is closed. -/
def Obligations.DomainIsClosed : Prop :=
  ∀ (i : Instr) (s : State), inDomain s i → ∃ t, exec i s = .next t ∧ Completed t ∧ ResultInDomain s t i

/-- R26 (a): no command's result depends on the coordinates of a source register whose inf is 1: from two states that
differ only in such coordinates, every command leads to two states that differ only in such coordinates. (The two states
have one draw counter, and that equal counters give equal draws is the model's own law, log entry 1.) -/
def Obligations.InfinityCoordinatesIrrelevant : Prop :=
  ∀ (i : Instr) (s s' : State), SameButInfCoordinates s s' →
    ∃ t t', exec i s = .next t ∧ exec i s' = .next t' ∧ SameButInfCoordinates t t'
end

