-- ==== Sys2Proof/Laws/Prime.lean ====
section
/-! SUPPORT. The field prime is prime (spec/00_scope.md R8; spec/93_implementation_defined.md G3), by Lucas certificates of p and of the large prime factors met on the way. -/

namespace Sys2Proof.Laws

/-- Exponentiation by squaring on integers modulo m, `fuel` bits. -/
def powMod (m : Nat) : Nat → Nat → Nat → Nat
  | 0, _, _ => 1 % m
  | fuel + 1, a, e =>
    let r := powMod m fuel (a * a % m) (e / 2)
    if e % 2 = 1 then a * r % m else r

theorem powMod_eq (m : Nat) : ∀ fuel a e, e < 2 ^ fuel → powMod m fuel a e = a ^ e % m := by
  intro fuel
  induction fuel with
  | zero => intro a e h; have h0 : e = 0 := by simpa using h
            subst h0; simp [powMod]
  | succ fuel ih =>
    intro a e h
    have hr := ih (a * a % m) (e / 2) (by rw [pow_succ] at h; omega)
    have hsq : (a * a % m) ^ (e / 2) % m = a ^ (2 * (e / 2)) % m := by
      rw [← Nat.pow_mod, ← pow_two, ← pow_mul]
    unfold powMod
    simp only [hr, hsq]
    split
    · rename_i h1
      conv_rhs => rw [← Nat.div_add_mod e 2, h1, pow_succ]
      rw [Nat.mul_mod, Nat.mod_mod, ← Nat.mul_mod, mul_comm]
    · rename_i h1
      conv_rhs => rw [← Nat.div_add_mod e 2, show e % 2 = 0 by omega, add_zero]

/-- Lucas: a certificate (a, the prime factors of q - 1) shows q prime. -/
theorem prime_of_lucas (q a : Nat) (factors : List Nat) (hq : 1 < q) (hsize : q < 2 ^ 256)
    (hprod : factors.prod = q - 1) (hprime : ∀ f ∈ factors, f.Prime)
    (hone : powMod q 256 a (q - 1) = 1)
    (hne : ∀ f ∈ factors, powMod q 256 a ((q - 1) / f) ≠ 1) : q.Prime := by
  have cast : ∀ e, e ≤ q - 1 → ((a : ZMod q) ^ e = 1 ↔ powMod q 256 a e = 1) := by
    intro e he
    rw [powMod_eq q 256 a e (by omega), ← Nat.cast_pow, ← Nat.cast_one (R := ZMod q),
      ZMod.natCast_eq_natCast_iff, Nat.ModEq, Nat.mod_eq_of_lt hq]
  refine lucas_primality q (a : ZMod q) ((cast _ le_rfl).2 hone) ?_
  intro f hf hdvd h
  rw [← hprod] at hdvd
  obtain ⟨g, hg, hfg⟩ := (Nat.Prime.prime hf).exists_mem_multiset_dvd (s := (factors : Multiset Nat)) (by simpa using hdvd)
  have hg' : g ∈ factors := by simpa using hg
  obtain rfl := (Nat.prime_dvd_prime_iff_eq hf (hprime g hg')).1 hfg
  exact hne f hg' ((cast _ (Nat.div_le_self _ _)).1 h)

theorem prime_204061199 : Nat.Prime 204061199 :=
  prime_of_lucas _ 11 [2, 11, 23, 107, 3769] (by norm_num) (by norm_num) (by norm_num)
    (by simp only [List.forall_mem_cons]; norm_num) (by decide +kernel) (by decide +kernel)

theorem prime_34282281433 : Nat.Prime 34282281433 :=
  prime_of_lucas _ 17 [2, 2, 2, 3, 7, 204061199] (by norm_num) (by norm_num) (by norm_num)
    (by simp only [List.forall_mem_cons]
        exact ⟨by norm_num, by norm_num, by norm_num, by norm_num, by norm_num, prime_204061199, by simp⟩)
    (by decide +kernel) (by decide +kernel)

theorem prime_66417393611 : Nat.Prime 66417393611 :=
  prime_of_lucas _ 6 [2, 5, 53, 173, 197, 3677] (by norm_num) (by norm_num) (by norm_num)
    (by simp only [List.forall_mem_cons]; norm_num) (by decide +kernel) (by decide +kernel)

theorem prime_11290956913871 : Nat.Prime 11290956913871 :=
  prime_of_lucas _ 13 [2, 5, 17, 66417393611] (by norm_num) (by norm_num) (by norm_num)
    (by simp only [List.forall_mem_cons]; exact ⟨by norm_num, by norm_num, by norm_num, prime_66417393611, by simp⟩) (by decide +kernel) (by decide +kernel)

theorem prime_46076956964474543 : Nat.Prime 46076956964474543 :=
  prime_of_lucas _ 5 [2, 23, 18169, 78283, 704251] (by norm_num) (by norm_num) (by norm_num)
    (by simp only [List.forall_mem_cons]; norm_num) (by decide +kernel) (by decide +kernel)

theorem prime_774023 : Nat.Prime 774023187263532362759620327192479577272145303 :=
  prime_of_lucas _ 3 [2, 3, 3, 2411, 34282281433, 11290956913871, 46076956964474543] (by norm_num) (by norm_num)
    (by norm_num)
    (by simp only [List.forall_mem_cons]
        exact ⟨by norm_num, by norm_num, by norm_num, by norm_num, prime_34282281433, prime_11290956913871,
          prime_46076956964474543, by simp⟩)
    (by decide +kernel) (by decide +kernel)

theorem prime_835945 : Nat.Prime 835945042244614951780389953367877943453916927241 :=
  prime_of_lucas _ 11 [2, 2, 2, 3, 3, 3, 5, 774023187263532362759620327192479577272145303] (by norm_num) (by norm_num)
    (by norm_num)
    (by simp only [List.forall_mem_cons]
        exact ⟨by norm_num, by norm_num, by norm_num, by norm_num, by norm_num, by norm_num, by norm_num, prime_774023,
          by simp⟩)
    (by decide +kernel) (by decide +kernel)

/-- p is prime (R8, G3). -/
theorem p_prime : Nat.Prime Config.p :=
  prime_of_lucas _ 6
    [2, 3, 5, 5, 17, 257, 641, 1531, 65537, 490463, 6700417, 835945042244614951780389953367877943453916927241]
    (by norm_num [Config.p]) (by norm_num [Config.p]) (by norm_num [Config.p])
    (by simp only [List.forall_mem_cons]
        exact ⟨by norm_num, by norm_num, by norm_num, by norm_num, by norm_num, by norm_num, by norm_num, by norm_num,
          by norm_num, by norm_num, by norm_num, prime_835945, by simp⟩)
    (by decide +kernel) (by decide +kernel)

end Sys2Proof.Laws
end

