-- ==== Sys2Proof/Laws/Field.lean ====
section
/-! SUPPORT. What the field functions compute, as numbers and as residues modulo p (spec/41_modular.md R121 to R126; spec/42_montgomery_inverse.md R141 to R144). -/

namespace Sys2Proof.Laws

open Sys2Proof.Machine

theorem fact_p_prime : Fact (Nat.Prime Config.p) := ⟨p_prime⟩

@[simp] theorem pWord_toNat : pWord.toNat = Config.p := by decide

@[simp] theorem r2Word_toNat : r2Word.toNat = Config.r2modp := by decide

theorem fieldElement_iff (v : U256) : fieldElement v = true ↔ v.toNat < Config.p := by simp [fieldElement]

/-- Equal residues of field elements are equal values. -/
theorem residue_inj {a b : U256} (ha : a.toNat < Config.p) (hb : b.toNat < Config.p) (h : residue a = residue b) :
    a = b := by
  apply BitVec.eq_of_toNat_eq
  rw [residue, residue, ZMod.natCast_eq_natCast_iff, Nat.ModEq, Nat.mod_eq_of_lt ha, Nat.mod_eq_of_lt hb] at h
  exact h

theorem addmod_toNat {a b : U256} (ha : a.toNat < Config.p) (hb : b.toNat < Config.p) :
    (addmod a b).toNat = (a.toNat + b.toNat) % Config.p := by
  have hp : Config.p < 2 ^ 256 := by decide
  have hp2 : 2 ^ 256 < 2 * Config.p := by decide
  unfold addmod
  split
  rename_i s c hsc
  simp only [add256, Prod.mk.injEq] at hsc
  obtain ⟨rfl, rfl⟩ := hsc
  split
  · rename_i h
    simp only [carryOut, Bool.or_eq_true, decide_eq_true_eq, BitVec.toNat_ofNat] at h
    simp only [sub256, BitVec.toNat_sub, pWord_toNat, BitVec.toNat_ofNat]
    generalize Config.p = p at *
    rw [Nat.mod_eq_sub_mod (a := a.toNat + b.toNat) (b := p)
      (by rcases h with h | h <;> [omega; exact h.trans (Nat.mod_le _ _)]),
      Nat.mod_eq_of_lt (a := a.toNat + b.toNat - p) (by omega)]
    omega
  · rename_i h
    simp only [carryOut, Bool.or_eq_true, decide_eq_true_eq, BitVec.toNat_ofNat, not_or] at h
    simp only [BitVec.toNat_ofNat]
    generalize Config.p = p at *
    rw [Nat.mod_eq_of_lt (by omega), Nat.mod_eq_of_lt (b := p) (by omega)]

theorem submod_toNat {a b : U256} (ha : a.toNat < Config.p) (hb : b.toNat < Config.p) :
    (submod a b).toNat = (a.toNat + Config.p - b.toNat) % Config.p := by
  have hp : Config.p < 2 ^ 256 := by decide
  unfold submod
  split
  rename_i d w hdw
  simp only [sub256, Prod.mk.injEq] at hdw
  obtain ⟨rfl, rfl⟩ := hdw
  split
  · rename_i h
    simp only [borrowOut, decide_eq_true_eq] at h
    simp only [add256, BitVec.toNat_sub, pWord_toNat, BitVec.toNat_ofNat]
    generalize Config.p = p at *
    rw [Nat.mod_eq_of_lt (a := a.toNat + p - b.toNat) (by omega)]
    omega
  · rename_i h
    simp only [borrowOut, decide_eq_true_eq] at h
    simp only [BitVec.toNat_sub]
    generalize Config.p = p at *
    rw [show a.toNat + p - b.toNat = (a.toNat - b.toNat) + p by omega,
      Nat.add_mod_right, Nat.mod_eq_of_lt (a := a.toNat - b.toNat) (by omega)]
    omega

theorem addmod_lt {a b : U256} (ha : a.toNat < Config.p) (hb : b.toNat < Config.p) :
    (addmod a b).toNat < Config.p := by
  rw [addmod_toNat ha hb]; exact Nat.mod_lt _ (by decide)

theorem submod_lt {a b : U256} (ha : a.toNat < Config.p) (hb : b.toNat < Config.p) :
    (submod a b).toNat < Config.p := by
  rw [submod_toNat ha hb]; exact Nat.mod_lt _ (by decide)

theorem residue_addmod {a b : U256} (ha : a.toNat < Config.p) (hb : b.toNat < Config.p) :
    residue (addmod a b) = residue a + residue b := by
  simp [residue, addmod_toNat ha hb]

theorem residue_submod {a b : U256} (ha : a.toNat < Config.p) (hb : b.toNat < Config.p) :
    residue (submod a b) = residue a - residue b := by
  rw [residue, submod_toNat ha hb, ZMod.natCast_mod, Nat.cast_sub (by omega)]
  simp [residue]

set_option exponentiation.threshold 600 in
@[simp] theorem mulfull_toNat (a b : U256) : (mulfull a b).toNat = a.toNat * b.toNat := by
  rw [mulfull, BitVec.toNat_ofNat, Nat.mod_eq_of_lt]
  calc a.toNat * b.toNat < 2 ^ 256 * 2 ^ 256 := Nat.mul_lt_mul'' a.isLt b.isLt
    _ = 2 ^ 512 := by norm_num

theorem sqrfull_eq_mulfull (a : U256) : sqrfull a = mulfull a a := rfl

theorem fred_toNat (T : U512) : (fred T).toNat = T.toNat % Config.p := by
  rw [fred, BitVec.toNat_ofNat, Nat.mod_eq_of_lt]
  exact (Nat.mod_lt _ (by decide)).trans (by decide)

/-- The number R141 divides out is a multiple of 2^256, and the quotient is below 2p. -/
theorem montred_quotient {T : Nat} (hT : T < Config.p * 2 ^ 256) :
    let U := (T % 2 ^ 256 * Config.pprime) % 2 ^ 256
    (T + U * Config.p) / 2 ^ 256 * 2 ^ 256 = T + U * Config.p ∧ (T + U * Config.p) / 2 ^ 256 < 2 * Config.p := by
  intro U
  have hU : U < 2 ^ 256 := Nat.mod_lt _ (by norm_num)
  have hdvd : 2 ^ 256 ∣ T + U * Config.p := by
    have h1 : U * Config.p ≡ T * (Config.pprime * Config.p) [MOD 2 ^ 256] := by
      rw [← mul_assoc]
      exact ((Nat.mod_modEq _ _).trans ((Nat.mod_modEq _ _).mul_right _)).mul_right _
    have h2 : T + U * Config.p ≡ T + T * (Config.pprime * Config.p) [MOD 2 ^ 256] := h1.add_left T
    have h3 : T + T * (Config.pprime * Config.p) = T * (1 + Config.pprime * Config.p) := by ring
    rw [h3] at h2
    have h4 : 2 ^ 256 ∣ 1 + Config.pprime * Config.p := by decide +kernel
    exact (Nat.modEq_zero_iff_dvd).1 (h2.trans ((Nat.modEq_zero_iff_dvd).2 (h4.mul_left T)))
  refine ⟨Nat.div_mul_cancel hdvd, ?_⟩
  rw [Nat.div_lt_iff_lt_mul (by norm_num)]
  have : U * Config.p < 2 ^ 256 * Config.p := Nat.mul_lt_mul_of_pos_right hU (by decide)
  calc T + U * Config.p < Config.p * 2 ^ 256 + 2 ^ 256 * Config.p := Nat.add_lt_add hT this
    _ = 2 * Config.p * 2 ^ 256 := by ring

/-- MONTRED's value in domain: canonical, and T when multiplied by R (R141). -/
theorem montred_spec {T : U512} (hT : T.toNat < Config.p * 2 ^ 256) :
    (montred T).toNat < Config.p ∧ ((montred T).toNat * 2 ^ 256) % Config.p = T.toNat % Config.p := by
  obtain ⟨h1, h2⟩ := montred_quotient hT
  simp only [montred]
  generalize hV : (T.toNat + T.toNat % 2 ^ 256 * Config.pprime % 2 ^ 256 * Config.p) / 2 ^ 256 = V at *
  have hred : (V * 2 ^ 256) % Config.p = T.toNat % Config.p := by rw [h1, Nat.add_mul_mod_self_right]
  have hp : Config.p < 2 ^ 256 := by decide
  rw [BitVec.toNat_ofNat]
  split
  · rename_i h
    rw [Nat.mod_eq_of_lt (by omega)]
    refine ⟨by omega, ?_⟩
    rw [← hred]
    conv_rhs => rw [show V = (V - Config.p) + Config.p by omega, add_mul, Nat.add_mul_mod_self_left]
  · rename_i h
    rw [Nat.mod_eq_of_lt (by omega)]
    exact ⟨by omega, hred⟩

/-- R = 2^256 is invertible modulo p. -/
theorem two_pow_ne_zero : ((2 : ZMod Config.p) ^ 256) ≠ 0 := by
  have := fact_p_prime
  have h2 : (2 : ZMod Config.p) ≠ 0 := by
    have : ((2 : Nat) : ZMod Config.p) ≠ 0 := by
      rw [Ne, ZMod.natCast_eq_zero_iff]; decide
    simpa using this
  exact pow_ne_zero _ h2

theorem residue_montred {T : U512} (hT : T.toNat < Config.p * 2 ^ 256) :
    residue (montred T) * 2 ^ 256 = (T.toNat : ZMod Config.p) := by
  have h := (montred_spec hT).2
  have : (((montred T).toNat * 2 ^ 256 : Nat) : ZMod Config.p) = (T.toNat : ZMod Config.p) :=
    (ZMod.natCast_eq_natCast_iff _ _ _).2 h
  rw [Nat.cast_mul, Nat.cast_pow, Nat.cast_ofNat] at this
  exact this

theorem mulfull_montred_domain {a b : U256} (hb : b.toNat < Config.p) :
    (mulfull a b).toNat < Config.p * 2 ^ 256 := by
  rw [mulfull_toNat, Nat.mul_comm]
  exact Nat.mul_lt_mul'' hb a.isLt

theorem mulmod_lt {a b : U256} : (mulmod a b).toNat < Config.p :=
  (montred_spec (mulfull_montred_domain (by rw [r2Word_toNat]; decide))).1

theorem residue_mulmod {a b : U256} (hb : b.toNat < Config.p) : residue (mulmod a b) = residue a * residue b := by
  have := fact_p_prime
  have h1 := residue_montred (mulfull_montred_domain (a := a) hb)
  have h2 := residue_montred (mulfull_montred_domain (a := montred (mulfull a b)) (b := r2Word) (by rw [r2Word_toNat]; decide))
  rw [mulfull_toNat, r2Word_toNat, Nat.cast_mul] at h2
  rw [mulfull_toNat, Nat.cast_mul] at h1
  have h3 : (Config.r2modp : ZMod Config.p) = 2 ^ 256 * 2 ^ 256 := by
    have : ((Config.r2modp : Nat) : ZMod Config.p) = ((2 ^ 256 * 2 ^ 256 : Nat) : ZMod Config.p) := by
      rw [ZMod.natCast_eq_natCast_iff]; decide +kernel
    rw [this]; push_cast; ring
  rw [h3] at h2
  have key : residue (mulmod a b) * 2 ^ 256 = residue a * residue b * 2 ^ 256 := by
    have e : residue (mulmod a b) * 2 ^ 256 = (residue (montred (mulfull a b)) * 2 ^ 256) * 2 ^ 256 := by
      rw [mulmod, h2, residue]; ring
    rw [e, h1]; rfl
  exact mul_right_cancel₀ two_pow_ne_zero key

/-- MULMOD's value: a·b mod p (R142). -/
theorem mulmod_toNat {a b : U256} (hb : b.toNat < Config.p) :
    (mulmod a b).toNat = a.toNat * b.toNat % Config.p := by
  have h := residue_mulmod (a := a) hb
  rw [residue, residue, residue, ← Nat.cast_mul, ZMod.natCast_eq_natCast_iff, Nat.ModEq, Nat.mod_eq_of_lt mulmod_lt] at h
  exact h

/-- `sqrMod(a) == mulMod(a,a)` (R143, R147). -/
theorem sqrmod_eq_mulmod (a : U256) : sqrmod a = mulmod a a := rfl

theorem sqrmod_lt {a : U256} : (sqrmod a).toNat < Config.p := mulmod_lt

theorem residue_sqrmod {a : U256} (ha : a.toNat < Config.p) : residue (sqrmod a) = residue a ^ 2 := by
  rw [sqrmod_eq_mulmod, residue_mulmod ha, pow_two]

/-- `half` halves: the result is a field element whose double is x (R144). -/
theorem half_spec {x : U256} (hx : x.toNat < Config.p) :
    (half x).toNat < Config.p ∧ 2 * residue (half x) = residue x := by
  have hp : Config.p < 2 ^ 256 := by decide
  have hodd : Config.p % 2 = 1 := by decide
  have hbit : x.getLsbD 0 = decide (x.toNat % 2 = 1) := by
    rw [BitVec.getLsbD, Nat.testBit_zero]
  have cast : ∀ m : Nat, 2 * m = x.toNat ∨ 2 * m = x.toNat + Config.p → 2 * ((m : Nat) : ZMod Config.p) = residue x := by
    intro m hm
    have : ((2 * m : Nat) : ZMod Config.p) = residue x := by
      rcases hm with hm | hm <;> simp [hm, residue]
    simpa using this
  unfold half
  rw [hbit]
  split
  · rename_i h
    simp only [decide_eq_true_eq] at h
    have e : (BitVec.ofNat 256 ((x.toNat + Config.p) / 2)).toNat = (x.toNat + Config.p) / 2 := by
      rw [BitVec.toNat_ofNat, Nat.mod_eq_of_lt (by omega)]
    refine ⟨by rw [e]; omega, ?_⟩
    rw [residue, e]
    exact cast _ (Or.inr (by omega))
  · rename_i h
    simp only [decide_eq_true_eq] at h
    have e : (BitVec.ofNat 256 (x.toNat / 2)).toNat = x.toNat / 2 := by
      rw [BitVec.toNat_ofNat, Nat.mod_eq_of_lt (by omega)]
    refine ⟨by rw [e]; omega, ?_⟩
    rw [residue, e]
    exact cast _ (Or.inl (by omega))

/-- The search of FRED's domain finds exactly the products (R126). -/
theorem productBelow_iff (n T : Nat) : productBelow n T = true ↔ ∃ a < n, ∃ b < Config.p, T = a * b := by
  induction n with
  | zero => simp [productBelow]
  | succ n ih =>
    rw [productBelow, Bool.or_eq_true, ih]
    constructor
    · rintro (h | ⟨a, ha, b, hb, h⟩)
      · simp only [Bool.and_eq_true, beq_iff_eq, decide_eq_true_eq] at h
        exact ⟨n, Nat.lt_succ_self n, T / n, h.2, h.1.symm⟩
      · exact ⟨a, Nat.lt_succ_of_lt ha, b, hb, h⟩
    · rintro ⟨a, ha, b, hb, h⟩
      rcases Nat.lt_succ_iff_lt_or_eq.1 ha with ha | rfl
      · exact Or.inr ⟨a, ha, b, hb, h⟩
      · left
        simp only [Bool.and_eq_true, beq_iff_eq, decide_eq_true_eq]
        rcases Nat.eq_zero_or_pos a with rfl | hpos
        · simp [h]; decide
        · rw [h, Nat.mul_div_cancel_left _ hpos]; exact ⟨rfl, hb⟩

theorem reducedProduct_iff (T : U512) :
    reducedProduct T = true ↔ ∃ a < Config.p, ∃ b < Config.p, T.toNat = a * b :=
  productBelow_iff Config.p T.toNat

end Sys2Proof.Laws
end

