-- ==== Sys2Proof/Laws/Inverse.lean ====
section
/-! SUPPORT. The inverter ends in domain, with the inverse (spec/42_montgomery_inverse.md R145, R146). -/

namespace Sys2Proof.Laws

open Sys2Proof.Machine

theorem getLsbD_zero_iff (u : U256) : u.getLsbD 0 = true ↔ u.toNat % 2 = 1 := by
  rw [BitVec.getLsbD, Nat.testBit_zero, decide_eq_true_eq]

theorem halved_toNat (u : U256) : (BitVec.ofNat 256 (u.toNat / 2)).toNat = u.toNat / 2 := by
  rw [BitVec.toNat_ofNat, Nat.mod_eq_of_lt]
  exact (Nat.div_le_self _ _).trans_lt u.isLt

/-- Two values agree if their doubles do, p being odd. -/
theorem two_ne_zero_p : (2 : ZMod Config.p) ≠ 0 := by
  intro h
  exact two_pow_ne_zero (by rw [h]; exact zero_pow (by norm_num))

/-- The inner loop of the inverter on a nonzero u: it ends, with the odd part of u and the matching cofactor. -/
theorem stripTwos_spec (a : U256) : ∀ fuel (u x : U256), 0 < u.toNat → u.toNat < 2 ^ fuel → x.toNat < Config.p →
    residue a * residue x = residue u →
    ∃ u' x' e, stripTwos fuel u x = some (u', x') ∧ u'.toNat % 2 = 1 ∧ x'.toNat < Config.p ∧
      residue a * residue x' = residue u' ∧ u.toNat = 2 ^ e * u'.toNat ∧ (u.toNat % 2 = 0 → 0 < e) ∧
      (u.toNat % 2 = 1 → u' = u) := by
  have := fact_p_prime
  intro fuel
  induction fuel with
  | zero => intro u x h0 h1; simp at h1; omega
  | succ fuel ih =>
    intro u x h0 h1 hx hr
    unfold stripTwos
    split
    · rename_i hodd
      have hodd' := (getLsbD_zero_iff u).1 hodd
      exact ⟨u, x, 0, rfl, hodd', hx, hr, by simp, by omega, fun _ => rfl⟩
    · rename_i heven
      have heven' : u.toNat % 2 = 0 := by
        have := mt (getLsbD_zero_iff u).2 heven; omega
      obtain ⟨hlt, hhalf⟩ := half_spec hx
      have hres : residue u = 2 * residue (BitVec.ofNat 256 (u.toNat / 2)) := by
        rw [residue, residue, halved_toNat]
        have e : u.toNat = 2 * (u.toNat / 2) := by omega
        conv_lhs => rw [e]
        push_cast; rfl
      obtain ⟨u', x', e, h⟩ := ih (BitVec.ofNat 256 (u.toNat / 2)) (half x) (by rw [halved_toNat]; omega)
        (by rw [halved_toNat]; rw [pow_succ] at h1; omega) hlt
        (mul_left_cancel₀ two_ne_zero_p (by rw [← hres, ← hr, ← hhalf]; ring))
      refine ⟨u', x', e + 1, h.1, h.2.1, h.2.2.1, h.2.2.2.1, ?_, fun _ => Nat.succ_pos _, fun ho => by omega⟩
      have := h.2.2.2.2.1
      rw [halved_toNat] at this
      rw [pow_succ]
      have : u.toNat = 2 * (u.toNat / 2) := by omega
      rw [this, ‹u.toNat / 2 = _›]; ring

/-- What holds at every test of the inverter's outer loop (R145). -/
structure InvState (a u x1 v x2 : U256) : Prop where
  upos : 0 < u.toNat
  vpos : 0 < v.toNat
  coprime : Nat.Coprime u.toNat v.toNat
  odd : u.toNat % 2 = 1 ∨ v.toNat % 2 = 1
  x1lt : x1.toNat < Config.p
  x2lt : x2.toNat < Config.p
  left : residue a * residue x1 = residue u
  right : residue a * residue x2 = residue v

theorem residue_sub_of_le {u v : U256} (h : v.toNat ≤ u.toNat) : residue (sub256 u v).1 = residue u - residue v := by
  have : (u - v).toNat = u.toNat - v.toNat := by rw [BitVec.toNat_sub]; omega
  rw [residue, sub256, this, Nat.cast_sub h]; rfl

theorem sub256_toNat_of_le {u v : U256} (h : v.toNat ≤ u.toNat) : (sub256 u v).1.toNat = u.toNat - v.toNat := by
  rw [sub256, BitVec.toNat_sub]; omega

theorem ne_one_toNat {u : U256} (h : u ≠ 1) : u.toNat ≠ 1 := fun e => h (BitVec.eq_of_toNat_eq (by rw [e]; rfl))

set_option exponentiation.threshold 600 in
/-- One pass of the outer loop keeps the invariant and leaves exactly one of u and v odd; a pass that starts so at
least halves u·v (R146). -/
theorem invLoop_step {a u x1 v x2 : U256} (fuel : Nat) (h : InvState a u x1 v x2) (hu : u ≠ 1) (hv : v ≠ 1) :
    ∃ u' x1' v' x2', invLoop (fuel + 1) u x1 v x2 = invLoop fuel u' x1' v' x2' ∧ InvState a u' x1' v' x2' ∧
      (u'.toNat + v'.toNat) % 2 = 1 ∧ u'.toNat * v'.toNat ≤ u.toNat * v.toNat ∧
      ((u.toNat + v.toNat) % 2 = 1 → 2 * (u'.toNat * v'.toNat) ≤ u.toNat * v.toNat) := by
  have hu257 : u.toNat < 2 ^ 257 := u.isLt.trans (Nat.pow_lt_pow_right (by norm_num) (by norm_num))
  have hv257 : v.toNat < 2 ^ 257 := v.isLt.trans (Nat.pow_lt_pow_right (by norm_num) (by norm_num))
  obtain ⟨u1, y1, e, su, uodd, y1lt, uleft, ue, ueven, usame⟩ := stripTwos_spec a 257 u x1 h.upos hu257 h.x1lt h.left
  obtain ⟨v1, y2, f, sv, vodd, y2lt, vright, vf, veven, vsame⟩ := stripTwos_spec a 257 v x2 h.vpos hv257 h.x2lt h.right
  have hcop : Nat.Coprime u1.toNat v1.toNat :=
    Nat.Coprime.coprime_dvd_left (Dvd.intro_left _ ue.symm) (Nat.Coprime.coprime_dvd_right (Dvd.intro_left _ vf.symm) h.coprime)
  have hne : u1.toNat ≠ v1.toNat := by
    intro e1
    rw [e1, Nat.coprime_self] at hcop
    rcases h.odd with ho | ho
    · have := usame ho; subst this; exact ne_one_toNat hu (e1.trans hcop)
    · have := vsame ho; subst this; exact ne_one_toNat hv hcop
  have hu1 : u1.toNat ≤ u.toNat := by rw [ue]; exact Nat.le_mul_of_pos_left _ (by positivity)
  have hv1 : v1.toNat ≤ v.toNat := by rw [vf]; exact Nat.le_mul_of_pos_left _ (by positivity)
  have hprod : u1.toNat * v1.toNat ≤ u.toNat * v.toNat := Nat.mul_le_mul hu1 hv1
  have hhalf : (u.toNat + v.toNat) % 2 = 1 → 2 * (u1.toNat * v1.toNat) ≤ u.toNat * v.toNat := by
    intro hp
    rcases Nat.mod_two_eq_zero_or_one u.toNat with h0 | h0
    · have he := ueven h0
      have : 2 * u1.toNat ≤ u.toNat := by
        rw [ue]; exact Nat.mul_le_mul_right _ (by calc 2 = 2 ^ 1 := rfl
                                                   _ ≤ 2 ^ e := Nat.pow_le_pow_right (by norm_num) he)
      calc 2 * (u1.toNat * v1.toNat) = (2 * u1.toNat) * v1.toNat := by ring
        _ ≤ _ := Nat.mul_le_mul this hv1
    · have he := veven (by omega)
      have : 2 * v1.toNat ≤ v.toNat := by
        rw [vf]; exact Nat.mul_le_mul_right _ (by calc 2 = 2 ^ 1 := rfl
                                                   _ ≤ 2 ^ f := Nat.pow_le_pow_right (by norm_num) he)
      calc 2 * (u1.toNat * v1.toNat) = u1.toNat * (2 * v1.toNat) := by ring
        _ ≤ _ := Nat.mul_le_mul hu1 this
  by_cases hle : v1.toNat ≤ u1.toNat
  · have hs := sub256_toNat_of_le hle
    have hp2 : (sub256 u1 v1).1.toNat * v1.toNat ≤ u1.toNat * v1.toNat := Nat.mul_le_mul_right _ (by omega)
    refine ⟨(sub256 u1 v1).1, submod y1 y2, v1, y2, ?_, ⟨by omega, by omega, ?_, Or.inr vodd, submod_lt y1lt y2lt, y2lt, ?_, vright⟩,
      by omega, hp2.trans hprod, fun hp => (Nat.mul_le_mul_left 2 hp2).trans (hhalf hp)⟩
    · rw [invLoop, if_neg hu, if_neg hv]; simp only [su, sv, if_pos hle]
    · rw [hs]; exact (Nat.coprime_sub_self_left hle).2 hcop
    · rw [residue_submod y1lt y2lt, residue_sub_of_le hle, mul_sub, uleft, vright]
  · have hle' : u1.toNat ≤ v1.toNat := by omega
    have hs := sub256_toNat_of_le hle'
    have hp2 : u1.toNat * (sub256 v1 u1).1.toNat ≤ u1.toNat * v1.toNat := Nat.mul_le_mul_left _ (by omega)
    refine ⟨u1, y1, (sub256 v1 u1).1, submod y2 y1, ?_, ⟨by omega, by omega, ?_, Or.inl uodd, y1lt, submod_lt y2lt y1lt, uleft, ?_⟩,
      by omega, hp2.trans hprod, fun hp => (Nat.mul_le_mul_left 2 hp2).trans (hhalf hp)⟩
    · rw [invLoop, if_neg hu, if_neg hv]; simp only [su, sv, if_neg hle]
    · rw [hs]; exact (Nat.coprime_sub_self_right hle').2 hcop
    · rw [residue_submod y2lt y1lt, residue_sub_of_le hle', mul_sub, uleft, vright]

theorem residue_one : residue 1 = 1 := by
  have : (1 : U256).toNat = 1 := rfl
  rw [residue, this, Nat.cast_one]

/-- From a state of the outer loop with exactly one odd value, as many passes as u·v has bits are enough. -/
theorem invLoop_ends (a : U256) : ∀ fuel u x1 v x2, InvState a u x1 v x2 → (u.toNat + v.toNat) % 2 = 1 →
    u.toNat * v.toNat < 2 ^ fuel →
    ∃ x, invLoop fuel u x1 v x2 = some x ∧ x.toNat < Config.p ∧ residue a * residue x = 1 := by
  intro fuel
  induction fuel with
  | zero => intro u x1 v x2 h _ hlt; have := Nat.mul_pos h.upos h.vpos; simp at hlt; have := h.upos; have := h.vpos; omega
  | succ fuel ih =>
    intro u x1 v x2 h hp hlt
    by_cases hu : u = 1
    · exact ⟨x1, by rw [invLoop, if_pos hu], h.x1lt, by rw [h.left, hu, residue_one]⟩
    by_cases hv : v = 1
    · exact ⟨x2, by rw [invLoop, if_neg hu, if_pos hv], h.x2lt, by rw [h.right, hv, residue_one]⟩
    obtain ⟨u', x1', v', x2', e, h', hp', -, hh⟩ := invLoop_step fuel h hu hv
    rw [e]
    have h2 := hh hp
    rw [pow_succ] at hlt
    exact ih u' x1' v' x2' h' hp' (by omega)

theorem residue_zero : residue 0 = 0 := by
  have : (0 : U256).toNat = 0 := rfl
  rw [residue, this, Nat.cast_zero]

theorem residue_pWord : residue pWord = 0 := by
  rw [residue, pWord_toNat, ZMod.natCast_self]

set_option exponentiation.threshold 600 in
/-- In domain the inverter ends, and its result is the canonical inverse (R145, R146). -/
theorem inv_spec {a : U256} (h0 : a ≠ 0) (hp : a.toNat < Config.p) :
    ∃ x, inv a = some x ∧ x.toNat < Config.p ∧ residue a * residue x = 1 := by
  have hpos : 0 < a.toNat := Nat.pos_of_ne_zero (fun e => h0 (BitVec.eq_of_toNat_eq e))
  have hp1 : (1 : U256).toNat < Config.p := by decide
  have hp0 : (0 : U256).toNat < Config.p := by decide
  have h : InvState a a 1 pWord 0 :=
    { upos := hpos
      vpos := by rw [pWord_toNat]; decide
      coprime := by
        rw [pWord_toNat]
        exact ((Nat.Prime.coprime_iff_not_dvd p_prime).2 (Nat.not_dvd_of_pos_of_lt hpos hp)).symm
      odd := Or.inr (by rw [pWord_toNat]; decide)
      x1lt := hp1
      x2lt := hp0
      left := by rw [residue_one, mul_one]
      right := by rw [residue_zero, mul_zero, residue_pWord] }
  have hne : pWord ≠ 1 := by decide
  by_cases hu : a = 1
  · exact ⟨1, by rw [inv, invLoop, if_pos hu], hp1, by rw [residue_one, mul_one, hu, residue_one]⟩
  obtain ⟨u', x1', v', x2', e, h', hp', hle, -⟩ := invLoop_step 513 h hu hne
  have hlt : a.toNat * pWord.toNat < 2 ^ 512 := by
    calc a.toNat * pWord.toNat < 2 ^ 256 * 2 ^ 256 := Nat.mul_lt_mul'' a.isLt pWord.isLt
      _ = 2 ^ 512 := by rw [← pow_add]
  rw [inv, e]
  exact invLoop_ends a 513 u' x1' v' x2' h' hp' ((hle.trans_lt hlt).trans (Nat.pow_lt_pow_right (by norm_num) (by norm_num)))

/-- The inverse is not zero. -/
theorem inv_ne_zero {a x : U256} (h : residue a * residue x = 1) : x ≠ 0 := by
  have := fact_p_prime
  rintro rfl
  rw [residue_zero, mul_zero] at h
  exact zero_ne_one h

/-- A nonzero field element has a nonzero residue. -/
theorem residue_ne_zero {a : U256} (h0 : a ≠ 0) (hp : a.toNat < Config.p) : residue a ≠ 0 := by
  intro h
  exact h0 (residue_inj hp (by decide) (h.trans residue_zero.symm))

end Sys2Proof.Laws
end

