-- ==== Sys2Proof/Laws/Points.lean ====
section
/-! SUPPORT. What the point functions compute on operands in domain, as residues modulo p: they end, they stay in domain, and they satisfy the formulas of their rules (spec/43_point_conversion.md R160, R161; spec/44_point_group.md R171 to R174). -/

namespace Sys2Proof.Laws

open Sys2Proof.Machine

theorem AffineValue.inDomain_point (x y : U256) :
    (AffineValue.point x y).inDomain = true ↔ x.toNat < Config.p ∧ y.toNat < Config.p := by
  simp [AffineValue.inDomain, fieldElement]

theorem JacobianValue.inDomain_point (x y z : U256) :
    (JacobianValue.point x y z).inDomain = true ↔
      x.toNat < Config.p ∧ y.toNat < Config.p ∧ z.toNat < Config.p ∧ z ≠ 0 := by
  simp [JacobianValue.inDomain, fieldElement, and_assoc]

/-- A field element is 0 exactly when its residue is. -/
theorem residue_eq_zero {a : U256} (ha : a.toNat < Config.p) : residue a = 0 ↔ a = 0 :=
  ⟨fun h => by_contra fun h0 => residue_ne_zero h0 ha h, fun h => by rw [h, residue_zero]⟩

theorem submod_eq_zero {a b : U256} (ha : a.toNat < Config.p) (hb : b.toNat < Config.p) :
    submod a b = 0 ↔ a = b := by
  rw [← residue_eq_zero (submod_lt ha hb), residue_submod ha hb, sub_eq_zero]
  exact ⟨residue_inj ha hb, fun h => by rw [h]⟩

theorem twice_lt {v : U256} (h : v.toNat < Config.p) : (twice v).toNat < Config.p := addmod_lt h h

theorem thrice_lt {v : U256} (h : v.toNat < Config.p) : (thrice v).toNat < Config.p := addmod_lt (addmod_lt h h) h

theorem residue_twice {v : U256} (h : v.toNat < Config.p) : residue (twice v) = 2 * residue v := by
  rw [twice, residue_addmod h h]; ring

theorem residue_thrice {v : U256} (h : v.toNat < Config.p) : residue (thrice v) = 3 * residue v := by
  rw [thrice, residue_addmod (addmod_lt h h) h, residue_addmod h h]; ring

theorem residue_three : residue 3 = 3 := by
  have : (3 : U256).toNat = 3 := rfl
  rw [residue, this]; rfl

theorem three_lt : (3 : U256).toNat < Config.p := by decide

theorem twice_ne_zero {v : U256} (h : v.toNat < Config.p) (h0 : v ≠ 0) : twice v ≠ 0 := by
  have := fact_p_prime
  rw [Ne, ← residue_eq_zero (twice_lt h), residue_twice h, mul_eq_zero]
  rintro (h2 | h2)
  · exact two_ne_zero_p h2
  · exact h0 ((residue_eq_zero h).1 h2)

/-- A2J keeps the domain (R160). -/
theorem a2j_inDomain {q : AffineValue} (h : q.inDomain = true) : (a2j q).inDomain = true := by
  cases q with
  | inf => rfl
  | point x y =>
    obtain ⟨hx, hy⟩ := (AffineValue.inDomain_point x y).1 h
    exact (JacobianValue.inDomain_point _ _ _).2 ⟨hx, hy, by decide, by decide⟩

/-- J2A in domain: the unique affine point the triple stands for (R161). -/
theorem j2a_spec {x y z : U256} (h : (JacobianValue.point x y z).inDomain = true) :
    ∃ u v, j2a (.point x y z) = some (.point u v) ∧ (AffineValue.point u v).inDomain = true ∧
      residue u * residue z ^ 2 = residue x ∧ residue v * residue z ^ 3 = residue y := by
  have := fact_p_prime
  obtain ⟨hx, hy, hz, hz0⟩ := (JacobianValue.inDomain_point x y z).1 h
  have hrz : residue z ≠ 0 := residue_ne_zero hz0 hz
  have e2 : residue (sqrmod z) = residue z ^ 2 := residue_sqrmod hz
  have e3 : residue (mulmod (sqrmod z) z) = residue z ^ 3 := by rw [residue_mulmod hz, e2]; ring
  have n2 : sqrmod z ≠ 0 := by
    rw [Ne, ← residue_eq_zero sqrmod_lt, e2]; exact pow_ne_zero _ hrz
  have n3 : mulmod (sqrmod z) z ≠ 0 := by
    rw [Ne, ← residue_eq_zero mulmod_lt, e3]; exact pow_ne_zero _ hrz
  obtain ⟨i2, h2, l2, r2⟩ := inv_spec n2 sqrmod_lt
  obtain ⟨i3, h3, l3, r3⟩ := inv_spec n3 mulmod_lt
  refine ⟨mulmod x i2, mulmod y i3, ?_, (AffineValue.inDomain_point _ _).2 ⟨mulmod_lt, mulmod_lt⟩, ?_, ?_⟩
  · simp only [j2a, h2, h3, Option.bind_some, Option.map_some]
  · rw [residue_mulmod l2, mul_assoc, ← e2, mul_comm (residue i2), r2, mul_one]
  · rw [residue_mulmod l3, mul_assoc, ← e3, mul_comm (residue i3), r3, mul_one]

/-- J2A ends on every operand in domain, in domain (R161). -/
theorem j2a_total {pt : JacobianValue} (h : pt.inDomain = true) :
    ∃ v, j2a pt = some v ∧ v.inDomain = true := by
  cases pt with
  | inf => exact ⟨.inf, rfl, rfl⟩
  | point x y z =>
    obtain ⟨u, v, e, d, -⟩ := j2a_spec h
    exact ⟨_, e, d⟩

/-- The point of slope lam: what `thirdPoint` computes (R171). -/
theorem thirdPoint_spec {lam x1 y1 x2 : U256} (hl : lam.toNat < Config.p) (h1 : x1.toNat < Config.p)
    (hy : y1.toNat < Config.p) (h2 : x2.toNat < Config.p) :
    ∃ u v, thirdPoint lam x1 y1 x2 = .point u v ∧ (AffineValue.point u v).inDomain = true ∧
      residue u = residue lam ^ 2 - residue x1 - residue x2 ∧
      residue v = residue lam * (residue x1 - residue u) - residue y1 := by
  have l1 := submod_lt (sqrmod_lt (a := lam)) h1
  have l2 := submod_lt l1 h2
  refine ⟨_, _, rfl, (AffineValue.inDomain_point _ _).2 ⟨l2, submod_lt mulmod_lt hy⟩, ?_, ?_⟩
  · rw [residue_submod l1 h2, residue_submod sqrmod_lt h1, residue_sqrmod hl]
  · rw [residue_submod mulmod_lt hy, residue_mulmod (submod_lt h1 l2), residue_submod h1 l2]

/-- DBLAFF on a finite point in domain with y ≠ 0: the tangent formula (R172). -/
theorem dblaff_spec {x y : U256} (h : (AffineValue.point x y).inDomain = true) (h0 : y ≠ 0) :
    ∃ u v, ∃ lam : ZMod Config.p, dblaff (.point x y) = some (.point u v) ∧ (AffineValue.point u v).inDomain = true ∧
      lam * (2 * residue y) = 3 * residue x ^ 2 - 3 ∧ residue u = lam ^ 2 - 2 * residue x ∧
      residue v = lam * (residue x - residue u) - residue y := by
  have := fact_p_prime
  obtain ⟨hx, hy⟩ := (AffineValue.inDomain_point x y).1 h
  obtain ⟨i, hi, li, ri⟩ := inv_spec (twice_ne_zero hy h0) (twice_lt hy)
  have lnum : (submod (thrice (sqrmod x)) 3).toNat < Config.p := submod_lt (thrice_lt sqrmod_lt) three_lt
  have enum : residue (submod (thrice (sqrmod x)) 3) = 3 * residue x ^ 2 - 3 := by
    rw [residue_submod (thrice_lt sqrmod_lt) three_lt, residue_thrice sqrmod_lt, residue_sqrmod hx, residue_three]
  have llam : (mulmod (submod (thrice (sqrmod x)) 3) i).toNat < Config.p := mulmod_lt
  have lx3 := submod_lt (sqrmod_lt (a := mulmod (submod (thrice (sqrmod x)) 3) i)) (twice_lt hx)
  refine ⟨_, _, residue (mulmod (submod (thrice (sqrmod x)) 3) i),
    by simp only [dblaff, if_neg h0, hi, Option.map_some]; rfl, ?_, ?_, ?_, ?_⟩
  · exact (AffineValue.inDomain_point _ _).2 ⟨lx3, submod_lt mulmod_lt hy⟩
  · rw [residue_mulmod li, mul_assoc, ← residue_twice hy, mul_comm (residue i), ri, mul_one, enum]
  · rw [residue_submod sqrmod_lt (twice_lt hx), residue_sqrmod llam, residue_twice hx]
  · rw [residue_submod mulmod_lt hy, residue_mulmod (submod_lt hx lx3), residue_submod hx lx3]

/-- DBLAFF ends on every operand in domain, in domain (R172). -/
theorem dblaff_total {q : AffineValue} (h : q.inDomain = true) : ∃ v, dblaff q = some v ∧ v.inDomain = true := by
  cases q with
  | inf => exact ⟨.inf, rfl, rfl⟩
  | point x y =>
    by_cases h0 : y = 0
    · exact ⟨.inf, by simp [dblaff, h0], rfl⟩
    · obtain ⟨u, v, lam, e, d, -⟩ := dblaff_spec h h0
      exact ⟨_, e, d⟩

/-- ADDAFF on two finite points in domain with different x: the chord formula (R171). -/
theorem addaff_spec {x1 y1 x2 y2 : U256} (h1 : (AffineValue.point x1 y1).inDomain = true)
    (h2 : (AffineValue.point x2 y2).inDomain = true) (hne : x1 ≠ x2) :
    ∃ u v, ∃ lam : ZMod Config.p, addaff (.point x1 y1) (.point x2 y2) = some (.point u v) ∧
      (AffineValue.point u v).inDomain = true ∧
      lam * (residue x2 - residue x1) = residue y2 - residue y1 ∧
      residue u = lam ^ 2 - residue x1 - residue x2 ∧
      residue v = lam * (residue x1 - residue u) - residue y1 := by
  have := fact_p_prime
  obtain ⟨hx1, hy1⟩ := (AffineValue.inDomain_point x1 y1).1 h1
  obtain ⟨hx2, hy2⟩ := (AffineValue.inDomain_point x2 y2).1 h2
  have n : submod x2 x1 ≠ 0 := fun e => hne ((submod_eq_zero hx2 hx1).1 e).symm
  obtain ⟨i, hi, li, ri⟩ := inv_spec n (submod_lt hx2 hx1)
  obtain ⟨u, v, e, d, eu, ev⟩ := thirdPoint_spec (lam := mulmod (submod y2 y1) i) mulmod_lt hx1 hy1 hx2
  refine ⟨u, v, residue (mulmod (submod y2 y1) i), ?_, d, ?_, eu, ev⟩
  · simp only [addaff, if_neg hne, hi, e, Option.map_some]
  · rw [residue_mulmod li, mul_assoc, ← residue_submod hx2 hx1, mul_comm (residue i), ri, mul_one,
      residue_submod hy2 hy1]

/-- ADDAFF ends on operands in domain, in domain (R171). -/
theorem addaff_total {q r : AffineValue} (hq : q.inDomain = true) (hr : r.inDomain = true) :
    ∃ v, addaff q r = some v ∧ v.inDomain = true := by
  cases q with
  | inf => exact ⟨r, by cases r <;> rfl, hr⟩
  | point x1 y1 =>
    cases r with
    | inf => exact ⟨_, rfl, hq⟩
    | point x2 y2 =>
      by_cases hx : x1 = x2
      · by_cases hy : y1 = y2
        · obtain ⟨v, e, d⟩ := dblaff_total hq
          exact ⟨v, by simp only [addaff, if_pos hx, if_pos hy, e], d⟩
        · exact ⟨.inf, by simp only [addaff, if_pos hx, if_neg hy], rfl⟩
      · obtain ⟨u, v, lam, e, d, -⟩ := addaff_spec hq hr hx
        exact ⟨_, e, d⟩

/-- DBLJ on a finite triple in domain with Y ≠ 0: the closed form (R173). -/
theorem dblj_spec {x y z : U256} (h : (JacobianValue.point x y z).inDomain = true) (h0 : y ≠ 0) :
    ∃ x3 y3 z3, dblj (.point x y z) = .point x3 y3 z3 ∧ (JacobianValue.point x3 y3 z3).inDomain = true ∧
      ∃ M S : ZMod Config.p, M = 3 * (residue x - residue z ^ 2) * (residue x + residue z ^ 2) ∧
        S = 4 * residue x * residue y ^ 2 ∧ residue x3 = M ^ 2 - 2 * S ∧
        residue y3 = M * (S - residue x3) - 8 * residue y ^ 4 ∧ residue z3 = 2 * residue y * residue z := by
  have := fact_p_prime
  obtain ⟨hx, hy, hz, hz0⟩ := (JacobianValue.inDomain_point x y z).1 h
  have lm : (mulmod (submod x (sqrmod z)) (addmod x (sqrmod z))).toNat < Config.p := mulmod_lt
  have lM := thrice_lt lm
  have ly2 := twice_lt hy
  have lq : (sqrmod (twice y)).toNat < Config.p := sqrmod_lt
  have lS : (mulmod (sqrmod (twice y)) x).toNat < Config.p := mulmod_lt
  obtain ⟨lh, eh⟩ := half_spec (sqrmod_lt (a := sqrmod (twice y)))
  have eM : residue (thrice (mulmod (submod x (sqrmod z)) (addmod x (sqrmod z)))) =
      3 * (residue x - residue z ^ 2) * (residue x + residue z ^ 2) := by
    rw [residue_thrice lm, residue_mulmod (addmod_lt hx sqrmod_lt), residue_submod hx sqrmod_lt,
      residue_addmod hx sqrmod_lt, residue_sqrmod hz]; ring
  have eq : residue (sqrmod (twice y)) = 4 * residue y ^ 2 := by rw [residue_sqrmod ly2, residue_twice hy]; ring
  have eS : residue (mulmod (sqrmod (twice y)) x) = 4 * residue x * residue y ^ 2 := by
    rw [residue_mulmod hx, eq]; ring
  have eh8 : residue (half (sqrmod (sqrmod (twice y)))) = 8 * residue y ^ 4 := by
    refine mul_left_cancel₀ two_ne_zero_p ?_
    rw [eh, residue_sqrmod lq, eq]; ring
  have ez : residue (mulmod (twice y) z) = 2 * residue y * residue z := by rw [residue_mulmod hz, residue_twice hy]
  have lx3 := submod_lt (sqrmod_lt (a := thrice (mulmod (submod x (sqrmod z)) (addmod x (sqrmod z))))) (twice_lt lS)
  refine ⟨_, _, _, by simp only [dblj, if_neg h0]; rfl, (JacobianValue.inDomain_point _ _ _).2 ⟨lx3, ?_, mulmod_lt, ?_⟩,
    _, _, rfl, rfl, ?_, ?_, ez⟩
  · exact submod_lt mulmod_lt lh
  · rw [Ne, ← residue_eq_zero mulmod_lt, ez]
    exact mul_ne_zero (mul_ne_zero two_ne_zero_p (residue_ne_zero h0 hy)) (residue_ne_zero hz0 hz)
  · rw [residue_submod sqrmod_lt (twice_lt lS), residue_sqrmod lM, residue_twice lS, eM, eS]
  · rw [residue_submod mulmod_lt lh, residue_mulmod (submod_lt lS lx3), residue_submod lS lx3, eM, eS, eh8]

/-- DBLJ keeps the domain (R173). -/
theorem dblj_inDomain {pt : JacobianValue} (h : pt.inDomain = true) : (dblj pt).inDomain = true := by
  cases pt with
  | inf => rfl
  | point x y z =>
    by_cases h0 : y = 0
    · simp [dblj, h0]; rfl
    · obtain ⟨x3, y3, z3, e, d, -⟩ := dblj_spec h h0
      rw [e]; exact d

/-- The two cross-differences of ADDJA (R174). -/
theorem addja_cross {x1 y1 z1 x2 y2 : U256} (h1 : (JacobianValue.point x1 y1 z1).inDomain = true) :
    (submod (mulmod x2 (sqrmod z1)) x1 = 0 ↔ residue x2 * residue z1 ^ 2 = residue x1) ∧
    (submod (mulmod y2 (mulmod (sqrmod z1) z1)) y1 = 0 ↔ residue y2 * residue z1 ^ 3 = residue y1) := by
  obtain ⟨hx, hy, hz, hz0⟩ := (JacobianValue.inDomain_point x1 y1 z1).1 h1
  have e3 : residue (mulmod (sqrmod z1) z1) = residue z1 ^ 3 := by
    rw [residue_mulmod hz, residue_sqrmod hz]; ring
  constructor
  · rw [← residue_eq_zero (submod_lt mulmod_lt hx), residue_submod mulmod_lt hx, residue_mulmod sqrmod_lt,
      residue_sqrmod hz, sub_eq_zero]
  · rw [← residue_eq_zero (submod_lt mulmod_lt hy), residue_submod mulmod_lt hy, residue_mulmod mulmod_lt, e3,
      sub_eq_zero]

/-- ADDJA on finite operands in domain whose x cross-difference is not 0: the generic formula (R174). -/
theorem addja_spec {x1 y1 z1 x2 y2 : U256} (h1 : (JacobianValue.point x1 y1 z1).inDomain = true)
    (hne : residue x2 * residue z1 ^ 2 ≠ residue x1) :
    ∃ x3 y3 z3, addja (.point x1 y1 z1) (.point x2 y2) = .point x3 y3 z3 ∧
      (JacobianValue.point x3 y3 z3).inDomain = true ∧
      ∃ H r : ZMod Config.p, H = residue x2 * residue z1 ^ 2 - residue x1 ∧
        r = residue y2 * residue z1 ^ 3 - residue y1 ∧
        residue x3 = r ^ 2 - H ^ 3 - 2 * (residue x1 * H ^ 2) ∧
        residue y3 = r * (residue x1 * H ^ 2 - residue x3) - residue y1 * H ^ 3 ∧ residue z3 = residue z1 * H := by
  have := fact_p_prime
  obtain ⟨hx, hy, hz, hz0⟩ := (JacobianValue.inDomain_point x1 y1 z1).1 h1
  have hh : submod (mulmod x2 (sqrmod z1)) x1 ≠ 0 := mt (addja_cross (x2 := x2) (y2 := y2) h1).1.1 hne
  have lh := submod_lt (mulmod_lt (a := x2) (b := sqrmod z1)) hx
  have lr := submod_lt (mulmod_lt (a := y2) (b := mulmod (sqrmod z1) z1)) hy
  have eH : residue (submod (mulmod x2 (sqrmod z1)) x1) = residue x2 * residue z1 ^ 2 - residue x1 := by
    rw [residue_submod mulmod_lt hx, residue_mulmod sqrmod_lt, residue_sqrmod hz]
  have er : residue (submod (mulmod y2 (mulmod (sqrmod z1) z1)) y1) = residue y2 * residue z1 ^ 3 - residue y1 := by
    rw [residue_submod mulmod_lt hy, residue_mulmod mulmod_lt, residue_mulmod hz, residue_sqrmod hz]; ring
  refine ⟨_, _, _, by simp only [addja, if_neg hh]; rfl, ?_, _, _, rfl, rfl, ?_, ?_, ?_⟩
  all_goals
    generalize submod (mulmod x2 (sqrmod z1)) x1 = h at *
    generalize submod (mulmod y2 (mulmod (sqrmod z1) z1)) y1 = r at *
    have eh3 : residue (mulmod (sqrmod h) h) = residue h ^ 3 := by
      rw [residue_mulmod lh, residue_sqrmod lh]; ring
    have eV : residue (mulmod x1 (sqrmod h)) = residue x1 * residue h ^ 2 := by
      rw [residue_mulmod sqrmod_lt, residue_sqrmod lh]
    have l1 := submod_lt (sqrmod_lt (a := r)) (mulmod_lt (a := sqrmod h) (b := h))
    have lV : (mulmod x1 (sqrmod h)).toNat < Config.p := mulmod_lt
    have lx3 := submod_lt l1 (twice_lt lV)
    have ez : residue (mulmod z1 h) = residue z1 * residue h := residue_mulmod lh
  · refine (JacobianValue.inDomain_point _ _ _).2 ⟨lx3, submod_lt mulmod_lt mulmod_lt, mulmod_lt, ?_⟩
    rw [Ne, ← residue_eq_zero mulmod_lt, ez]
    exact mul_ne_zero (residue_ne_zero hz0 hz) (residue_ne_zero hh lh)
  · rw [residue_submod l1 (twice_lt lV), residue_submod sqrmod_lt mulmod_lt, residue_sqrmod lr, residue_twice lV, eh3, eV,
      er, eH]
  · rw [residue_submod mulmod_lt mulmod_lt, residue_mulmod (submod_lt lV lx3), residue_submod lV lx3,
      residue_mulmod mulmod_lt, eh3, eV, er, eH]
  · rw [ez, eH]

/-- ADDJA keeps the domain (R174). -/
theorem addja_inDomain {pt : JacobianValue} {q : AffineValue} (hp : pt.inDomain = true) (hq : q.inDomain = true) :
    (addja pt q).inDomain = true := by
  cases pt with
  | inf => exact a2j_inDomain hq
  | point x1 y1 z1 =>
    cases q with
    | inf => exact hp
    | point x2 y2 =>
      by_cases hh : residue x2 * residue z1 ^ 2 = residue x1
      · have h0 := (addja_cross (x2 := x2) (y2 := y2) hp).1.2 hh
        simp only [addja, if_pos h0]
        split
        · exact dblj_inDomain hp
        · rfl
      · obtain ⟨x3, y3, z3, e, d, -⟩ := addja_spec (y2 := y2) hp hh
        rw [e]; exact d

end Sys2Proof.Laws
end

