-- ==== Sys2Proof/Laws/ScalarMul.lean ====
section
/-! SUPPORT. The scalar multiplications end on every operand in domain, with a result in domain, and the two tables have their 256 entries (spec/45_scalar_mul.md R190 to R194; spec/10_state.md R33, R34). -/

namespace Sys2Proof.Laws

open Sys2Proof.Machine

theorem baseG_inDomain : baseG.inDomain = true := by decide

/-- A chain made by a function that stays in domain has every one of its entries, each in domain. -/
theorem pointChain_spec {next : AffineValue → Option AffineValue}
    (hnext : ∀ q, q.inDomain = true → ∃ r, next q = some r ∧ r.inDomain = true) :
    ∀ len q, q.inDomain = true →
      (pointChain next len q).length = len ∧ ∀ r ∈ pointChain next len q, r.inDomain = true := by
  intro len
  induction len with
  | zero => intro q _; exact ⟨rfl, by simp [pointChain]⟩
  | succ len ih =>
    intro q hq
    obtain ⟨r, e, d⟩ := hnext q hq
    obtain ⟨hl, hd⟩ := ih r d
    rw [pointChain, e, Option.elim_some]
    exact ⟨by rw [List.length_cons, hl], fun t ht => by
      rcases List.mem_cons.1 ht with rfl | ht
      · exact hq
      · exact hd t ht⟩

/-- Entry i of a chain, and the entry after it. -/
theorem pointChain_getElem {next : AffineValue → Option AffineValue} :
    ∀ len i q, i < len → (pointChain next (len + 1) q)[i + 1]? = (pointChain next (len + 1) q)[i]?.bind next := by
  intro len
  induction len with
  | zero => intro i q h; omega
  | succ len ih =>
    intro i q h
    rw [pointChain]
    cases e : next q with
    | none =>
      rw [Option.elim_none]
      cases i with
      | zero => simp [e]
      | succ i => simp
    | some r =>
      rw [Option.elim_some]
      cases i with
      | zero => rw [List.getElem?_cons_succ, List.getElem?_cons_zero, Option.bind_some, e, pointChain,
                  List.getElem?_cons_zero]
      | succ i => rw [List.getElem?_cons_succ, List.getElem?_cons_succ]; exact ih i r (by omega)

theorem windowTable_spec : windowTableLTR.length = 256 ∧ ∀ r ∈ windowTableLTR, r.inDomain = true :=
  pointChain_spec (fun _ hq => addaff_total hq baseG_inDomain) 256 .inf rfl

theorem bitTable_spec : bitTableRTL.length = 256 ∧ ∀ r ∈ bitTableRTL, r.inDomain = true :=
  pointChain_spec (fun _ hq => dblaff_total hq) 256 baseG baseG_inDomain

theorem getElem?_of_length {l : List AffineValue} (hl : l.length = 256) (hd : ∀ r ∈ l, r.inDomain = true) {i : Nat}
    (hi : i < 256) : ∃ q, l[i]? = some q ∧ q.inDomain = true :=
  ⟨l[i]'(by omega), List.getElem?_eq_getElem _, hd _ (List.getElem_mem _)⟩

theorem ltrLoop_inDomain (k : U256) {base : AffineValue} (hb : base.inDomain = true) :
    ∀ i acc, acc.inDomain = true → (ltrLoop k base i acc).inDomain = true := by
  intro i
  induction i with
  | zero => intro acc h; exact h
  | succ i ih =>
    intro acc h
    rw [ltrLoop]
    refine ih _ ?_
    split
    · exact addja_inDomain (dblj_inDomain h) hb
    · exact dblj_inDomain h

/-- SMULLTR ends on a base in domain, in domain (R191). -/
theorem smulLtr_total (k : U256) {base : AffineValue} (hb : base.inDomain = true) :
    ∃ v, smulLtr k base = some v ∧ v.inDomain = true :=
  j2a_total (ltrLoop_inDomain k hb 256 .inf rfl)

theorem rtlLoop_total (k : U256) : ∀ left i acc run, acc.inDomain = true → run.inDomain = true →
    ∃ r, rtlLoop k left i acc run = some r ∧ r.inDomain = true := by
  intro left
  induction left with
  | zero => intro i acc run ha _; exact ⟨acc, rfl, ha⟩
  | succ left ih =>
    intro i acc run ha hr
    obtain ⟨next, e, d⟩ := dblaff_total hr
    rw [rtlLoop, e, Option.bind_some]
    refine ih _ _ _ ?_ d
    split
    · exact addja_inDomain ha hr
    · exact ha

/-- SMULRTL ends on a base in domain, in domain (R192). -/
theorem smulRtl_total (k : U256) {base : AffineValue} (hb : base.inDomain = true) :
    ∃ v, smulRtl k base = some v ∧ v.inDomain = true := by
  obtain ⟨r, e, d⟩ := rtlLoop_total k 256 0 .inf base rfl hb
  rw [smulRtl, e, Option.bind_some]
  exact j2a_total d

theorem dbljEight_inDomain {acc : JacobianValue} (h : acc.inDomain = true) : (dbljEight acc).inDomain = true :=
  dblj_inDomain (dblj_inDomain (dblj_inDomain (dblj_inDomain (dblj_inDomain (dblj_inDomain (dblj_inDomain (dblj_inDomain h)))))))

theorem winLoop_total (k : U256) : ∀ j acc, acc.inDomain = true → ∃ r, winLoop k j acc = some r ∧ r.inDomain = true := by
  intro j
  induction j with
  | zero => intro acc h; exact ⟨acc, rfl, h⟩
  | succ j ih =>
    intro acc h
    obtain ⟨q, e, d⟩ := getElem?_of_length windowTable_spec.1 windowTable_spec.2
      (show scalarByte k j < 256 from Nat.mod_lt _ (by norm_num))
    rw [winLoop, e, Option.bind_some]
    exact ih _ (addja_inDomain (dbljEight_inDomain h) d)

/-- SMULWIN ends on every scalar, in domain (R193). -/
theorem smulWin_total (k : U256) : ∃ v, smulWin k = some v ∧ v.inDomain = true := by
  obtain ⟨r, e, d⟩ := winLoop_total k 32 .inf rfl
  rw [smulWin, e, Option.bind_some]
  exact j2a_total d

theorem bitLoop_total (k : U256) : ∀ left i acc, i + left ≤ 256 → acc.inDomain = true →
    ∃ r, bitLoop k left i acc = some r ∧ r.inDomain = true := by
  intro left
  induction left with
  | zero => intro i acc _ h; exact ⟨acc, rfl, h⟩
  | succ left ih =>
    intro i acc hi h
    obtain ⟨q, e, d⟩ := getElem?_of_length bitTable_spec.1 bitTable_spec.2 (show i < 256 by omega)
    rw [bitLoop, e, Option.bind_some]
    refine ih _ _ (by omega) ?_
    split
    · exact addja_inDomain h d
    · exact h

/-- SMULBIT ends on every scalar, in domain (R194). -/
theorem smulBit_total (k : U256) : ∃ v, smulBit k = some v ∧ v.inDomain = true := by
  obtain ⟨r, e, d⟩ := bitLoop_total k 256 0 .inf (by norm_num) rfl
  rw [smulBit, e, Option.bind_some]
  exact j2a_total d

end Sys2Proof.Laws
end

