-- ==== Sys2Proof/Laws/Curve.lean ====
section
/-! SUPPORT. On the curve the point functions compute the group law of Mathlib's group of points, every special case included (spec/44_point_group.md R175; spec/43_point_conversion.md R160, R161). -/

namespace Sys2Proof.Laws

open Sys2Proof.Machine WeierstrassCurve

theorem curve_negY (x y : ZMod Config.p) : curve.negY x y = -y := by
  simp [Affine.negY, curve]

/-- A point of the curve satisfies its equation. -/
theorem curve_equation {x y : ZMod Config.p} (h : curve.Nonsingular x y) :
    y ^ 2 = x ^ 3 - 3 * x + (Config.b : ZMod Config.p) := by
  have := (Affine.equation_iff x y).1 h.1
  simp only [curve] at this
  linear_combination this

/-- The discriminant is not 0 modulo p, so every solution of the equation is a point. -/
theorem curve_discriminant : curve.Δ ≠ 0 := by
  have : curve.Δ = ((-16 * (4 * (-3) ^ 3 + 27 * (Config.b : Int) ^ 2) : Int) : ZMod Config.p) := by
    simp [WeierstrassCurve.Δ, WeierstrassCurve.b₂, WeierstrassCurve.b₄, WeierstrassCurve.b₆, WeierstrassCurve.b₈, curve]
    ring
  rw [this, Ne, ZMod.intCast_zmod_eq_zero_iff_dvd]
  decide +kernel

theorem affine_inDomain_of_standsFor {q : AffineValue} {P : curve.Point} (h : q.StandsFor P) : q.inDomain = true := by
  cases q with
  | inf => rfl
  | point x y =>
    cases P with
    | zero => cases h
    | some X Y hn => rw [AffineValue.inDomain, h.1, h.2.1]; rfl

theorem jacobian_inDomain_of_standsFor {q : JacobianValue} {P : curve.Point} (h : q.StandsFor P) : q.inDomain = true := by
  cases q with
  | inf => rfl
  | point x y z =>
    cases P with
    | zero => cases h
    | some X Y hn => exact h.1

/-- Different field elements have different residues. -/
theorem residue_ne {x1 x2 : U256} (h1 : x1.toNat < Config.p) (h2 : x2.toNat < Config.p) : x1 ≠ x2 → residue x1 ≠ residue x2 :=
  fun h e => h (residue_inj h1 h2 e)

/-- DBLAFF doubles (R172, R175). -/
theorem dblaff_standsFor [Fact (Nat.Prime Config.p)] {q : AffineValue} {P : curve.Point} (h : q.StandsFor P) :
    ∃ v, dblaff q = some v ∧ v.StandsFor (P + P) := by
  cases q with
  | inf => cases P with
    | zero => exact ⟨.inf, rfl, by rw [← Affine.Point.zero_def, add_zero]; trivial⟩
    | some X Y hn => cases h
  | point x y => cases P with
    | zero => cases h
    | some X Y hn =>
      obtain ⟨hx, hy, rfl, rfl⟩ := h
      by_cases h0 : y = 0
      · refine ⟨.inf, by simp [dblaff, h0], ?_⟩
        rw [Affine.Point.add_self_of_Y_eq]
        · trivial
        · rw [curve_negY, h0, residue_zero, neg_zero]
      · have hd : (AffineValue.point x y).inDomain = true := by simp [AffineValue.inDomain, hx, hy]
        obtain ⟨u, v, lam, e, d, e1, e2, e3⟩ := dblaff_spec hd h0
        refine ⟨_, e, ?_⟩
        have hy0 : residue y ≠ 0 := residue_ne_zero h0 ((fieldElement_iff _).1 hy)
        have h2y : 2 * residue y ≠ 0 := mul_ne_zero two_ne_zero_p hy0
        have hne : residue y ≠ curve.negY (residue x) (residue y) := by
          rw [curve_negY]; intro e
          apply h2y; linear_combination e
        rw [Affine.Point.add_self_of_Y_ne hne]
        have hs : curve.slope (residue x) (residue x) (residue y) (residue y) = lam := by
          rw [Affine.slope_of_Y_ne rfl hne, curve_negY]
          rw [div_eq_iff (by intro e; apply h2y; linear_combination e)]
          simp only [curve]
          linear_combination -e1
        obtain ⟨hu, hv⟩ := (AffineValue.inDomain_point _ _).1 d
        refine ⟨(fieldElement_iff _).2 hu, (fieldElement_iff _).2 hv, ?_, ?_⟩
        · rw [hs, e2]; simp [Affine.addX, curve]; ring
        · rw [hs, e3, e2]; simp [Affine.addY, Affine.negAddY, Affine.negY, Affine.addX, curve]; ring

/-- ADDAFF adds (R171, R175). -/
theorem addaff_standsFor [Fact (Nat.Prime Config.p)] {q r : AffineValue} {P Q : curve.Point} (h : q.StandsFor P) (h' : r.StandsFor Q) :
    ∃ v, addaff q r = some v ∧ v.StandsFor (P + Q) := by
  cases q with
  | inf => cases P with
    | zero => exact ⟨r, by cases r <;> rfl, by rw [← Affine.Point.zero_def, zero_add]; exact h'⟩
    | some X Y hn => cases h
  | point x1 y1 => cases P with
    | zero => cases h
    | some X Y hn =>
      cases r with
      | inf => cases Q with
        | zero => exact ⟨_, rfl, by rw [← Affine.Point.zero_def, add_zero]; exact h⟩
        | some X Y hn => cases h'
      | point x2 y2 => cases Q with
        | zero => cases h'
        | some X' Y' hn' =>
          have hP := h
          obtain ⟨hx1, hy1, rfl, rfl⟩ := h
          obtain ⟨hx2, hy2, rfl, rfl⟩ := h'
          by_cases hx : x1 = x2
          · subst hx
            by_cases hy : y1 = y2
            · subst hy
              obtain ⟨v, e, s⟩ := dblaff_standsFor hP
              exact ⟨v, by simp only [addaff, if_true, e], s⟩
            · refine ⟨.inf, by simp only [addaff, if_true, if_neg hy], ?_⟩
              rw [Affine.Point.add_of_Y_eq rfl]
              · trivial
              · rw [curve_negY]
                have e1 := curve_equation hn; have e2 := curve_equation hn'
                have : (residue y1 - residue y2) * (residue y1 + residue y2) = 0 := by linear_combination e1 - e2
                rcases mul_eq_zero.1 this with h | h
                · exact absurd (sub_eq_zero.1 h) (residue_ne ((fieldElement_iff _).1 hy1) ((fieldElement_iff _).1 hy2) hy)
                · linear_combination h
          · have hd1 : (AffineValue.point x1 y1).inDomain = true := by simp [AffineValue.inDomain, hx1, hy1]
            have hd2 : (AffineValue.point x2 y2).inDomain = true := by simp [AffineValue.inDomain, hx2, hy2]
            obtain ⟨u, v, lam, e, d, e1, e2, e3⟩ := addaff_spec hd1 hd2 hx
            have hxr := residue_ne ((fieldElement_iff _).1 hx1) ((fieldElement_iff _).1 hx2) hx
            refine ⟨_, e, ?_⟩
            rw [Affine.Point.add_of_X_ne hxr]
            have hs : curve.slope (residue x1) (residue x2) (residue y1) (residue y2) = lam := by
              rw [Affine.slope_of_X_ne hxr, div_eq_iff (sub_ne_zero.2 hxr)]
              linear_combination e1
            obtain ⟨hu, hv⟩ := (AffineValue.inDomain_point _ _).1 d
            refine ⟨(fieldElement_iff _).2 hu, (fieldElement_iff _).2 hv, ?_, ?_⟩
            · rw [hs, e2]; simp [Affine.addX, curve]
            · rw [hs, e3, e2]; simp [Affine.addY, Affine.negAddY, Affine.negY, Affine.addX, curve]; ring

/-- A Jacobian triple in domain stands for the point whose coordinates it scales (R28). -/
theorem jacobian_standsFor {x y z : U256} {X Y : ZMod Config.p} (hn : curve.Nonsingular X Y)
    (hd : (JacobianValue.point x y z).inDomain = true) (hx : residue x = X * residue z ^ 2)
    (hy : residue y = Y * residue z ^ 3) : (JacobianValue.point x y z).StandsFor (.some X Y hn) := ⟨hd, hx, hy⟩

/-- A2J keeps the point (R160). -/
theorem a2j_standsFor {q : AffineValue} {P : curve.Point} (h : q.StandsFor P) : (a2j q).StandsFor P := by
  cases q with
  | inf => cases P with
    | zero => trivial
    | some X Y hn => cases h
  | point x y => cases P with
    | zero => cases h
    | some X Y hn =>
      have hd := a2j_inDomain (affine_inDomain_of_standsFor h)
      obtain ⟨hx, hy, rfl, rfl⟩ := h
      exact ⟨hd, by rw [residue_one]; ring, by rw [residue_one]; ring⟩

/-- J2A keeps the point (R161). -/
theorem j2a_standsFor [Fact (Nat.Prime Config.p)] {q : JacobianValue} {P : curve.Point} (h : q.StandsFor P) :
    ∃ v, j2a q = some v ∧ v.StandsFor P := by
  cases q with
  | inf => cases P with
    | zero => exact ⟨.inf, rfl, trivial⟩
    | some X Y hn => cases h
  | point x y z => cases P with
    | zero => cases h
    | some X Y hn =>
      obtain ⟨hd, ex, ey⟩ := h
      obtain ⟨u, v, e, d, eu, ev⟩ := j2a_spec hd
      obtain ⟨hx, hy, hz, hz0⟩ := (JacobianValue.inDomain_point x y z).1 hd
      have hrz := residue_ne_zero hz0 hz
      obtain ⟨hu, hv⟩ := (AffineValue.inDomain_point _ _).1 d
      exact ⟨_, e, (fieldElement_iff _).2 hu, (fieldElement_iff _).2 hv,
        mul_right_cancel₀ (pow_ne_zero 2 hrz) (eu.trans ex), mul_right_cancel₀ (pow_ne_zero 3 hrz) (ev.trans ey)⟩

/-- DBLJ doubles (R173, R175). -/
theorem dblj_standsFor [Fact (Nat.Prime Config.p)] {q : JacobianValue} {P : curve.Point} (h : q.StandsFor P) :
    (dblj q).StandsFor (P + P) := by
  cases q with
  | inf => cases P with
    | zero => rw [← Affine.Point.zero_def, add_zero]; trivial
    | some X Y hn => cases h
  | point x y z => cases P with
    | zero => cases h
    | some X Y hn =>
      obtain ⟨hd, ex, ey⟩ := h
      obtain ⟨hx, hy, hz, hz0⟩ := (JacobianValue.inDomain_point x y z).1 hd
      have hrz := residue_ne_zero hz0 hz
      by_cases h0 : y = 0
      · have hY : Y = 0 := by
          rw [h0, residue_zero] at ey
          exact (mul_eq_zero.1 ey.symm).resolve_right (pow_ne_zero 3 hrz)
        rw [Affine.Point.add_self_of_Y_eq (by rw [curve_negY, hY, neg_zero])]
        simp only [dblj, if_pos h0]
        trivial
      · obtain ⟨x3, y3, z3, e, d, M, S, eM, eS, e1, e2, e3⟩ := dblj_spec hd h0
        have hY : Y ≠ 0 := by
          rintro rfl
          rw [zero_mul] at ey
          exact residue_ne_zero h0 hy ey
        have h2Y : 2 * Y ≠ 0 := mul_ne_zero two_ne_zero_p hY
        have hne : Y ≠ curve.negY X Y := by
          rw [curve_negY]; intro e; apply h2Y; linear_combination e
        rw [Affine.Point.add_self_of_Y_ne hne, e]
        have hl : curve.slope X X Y Y * (2 * Y) = 3 * X ^ 2 - 3 := by
          have hd2 : Y - -Y ≠ 0 := by intro e; apply h2Y; linear_combination e
          rw [Affine.slope_of_Y_ne rfl hne, curve_negY, show 2 * Y = Y - -Y by ring, div_mul_cancel₀ _ hd2]
          simp only [curve]
          ring
        suffices hc : residue x3 = curve.addX X X (curve.slope X X Y Y) * residue z3 ^ 2 ∧
            residue y3 = curve.addY X X Y (curve.slope X X Y Y) * residue z3 ^ 3 from ⟨d, hc.1, hc.2⟩
        generalize curve.slope X X Y Y = L at hl ⊢
        have eM' : M = L * (2 * Y) * residue z ^ 4 := by rw [eM, ex, hl]; ring
        have eS' : S = 4 * X * Y ^ 2 * residue z ^ 8 := by rw [eS, ex, ey]; ring
        have ez : residue z3 = 2 * Y * residue z ^ 4 := by rw [e3, ey]; ring
        have eX : curve.addX X X L = L ^ 2 - 2 * X := by simp only [Affine.addX, curve]; ring
        have e1' : residue x3 = (L ^ 2 - 2 * X) * residue z3 ^ 2 := by rw [e1, eM', eS', ez]; ring
        refine ⟨by rw [eX, e1'], ?_⟩
        have eY : curve.addY X X Y L = L * (X - (L ^ 2 - 2 * X)) - Y := by
          rw [Affine.addY, curve_negY, Affine.negAddY, eX]; ring
        rw [eY, e2, e1', eM', eS', ez, ey]; ring

/-- ADDJA adds, in each of its cases (R174, R175). -/
theorem addja_standsFor [Fact (Nat.Prime Config.p)] {q : JacobianValue} {r : AffineValue} {P Q : curve.Point}
    (h : q.StandsFor P) (h' : r.StandsFor Q) : (addja q r).StandsFor (P + Q) := by
  cases q with
  | inf => cases P with
    | zero => rw [← Affine.Point.zero_def, zero_add]; exact a2j_standsFor h'
    | some X Y hn => cases h
  | point x1 y1 z1 => cases P with
    | zero => cases h
    | some X Y hn =>
      cases r with
      | inf => cases Q with
        | zero => rw [← Affine.Point.zero_def, add_zero]; exact h
        | some X' Y' hn' => cases h'
      | point x2 y2 => cases Q with
        | zero => cases h'
        | some X' Y' hn' =>
          have hP := h
          obtain ⟨hd, ex, ey⟩ := h
          obtain ⟨hx2, hy2, rfl, rfl⟩ := h'
          obtain ⟨hx, hy, hz, hz0⟩ := (JacobianValue.inDomain_point x1 y1 z1).1 hd
          have hrz := residue_ne_zero hz0 hz
          obtain ⟨c1, c2⟩ := addja_cross (x2 := x2) (y2 := y2) hd
          by_cases hh : residue x2 * residue z1 ^ 2 = residue x1
          · have hX : X = residue x2 := mul_right_cancel₀ (pow_ne_zero 2 hrz) (ex.symm.trans hh.symm)
            by_cases hr : residue y2 * residue z1 ^ 3 = residue y1
            · have hY : Y = residue y2 := mul_right_cancel₀ (pow_ne_zero 3 hrz) (ey.symm.trans hr.symm)
              subst hX; subst hY
              have := dblj_standsFor hP
              simp only [addja, if_pos (c1.2 hh), if_pos (c2.2 hr)]
              exact this
            · simp only [addja, if_pos (c1.2 hh), if_neg (mt c2.1 hr)]
              have hYne : Y ≠ residue y2 := by
                rintro rfl; exact hr ey.symm
              rw [Affine.Point.add_of_Y_eq hX]
              · trivial
              · rw [curve_negY]
                have e1 := curve_equation hn; have e2 := curve_equation hn'
                rw [hX] at e1
                have : (Y - residue y2) * (Y + residue y2) = 0 := by linear_combination e1 - e2
                rcases mul_eq_zero.1 this with h | h
                · exact absurd (sub_eq_zero.1 h) hYne
                · linear_combination h
          · obtain ⟨x3, y3, z3, e, d, H, r, eH, er, e1, e2, e3⟩ := addja_spec (y2 := y2) hd hh
            have hXne : X ≠ residue x2 := by
              rintro rfl; exact hh ex.symm
            rw [Affine.Point.add_of_X_ne hXne, e]
            have hl : curve.slope X (residue x2) Y (residue y2) * (X - residue x2) = Y - residue y2 := by
              rw [Affine.slope_of_X_ne hXne, div_mul_cancel₀ _ (sub_ne_zero.2 hXne)]
            suffices hc : residue x3 = curve.addX X (residue x2) (curve.slope X (residue x2) Y (residue y2)) * residue z3 ^ 2 ∧
                residue y3 = curve.addY X (residue x2) Y (curve.slope X (residue x2) Y (residue y2)) * residue z3 ^ 3 from
              ⟨d, hc.1, hc.2⟩
            generalize curve.slope X (residue x2) Y (residue y2) = L at hl ⊢
            have eH' : H = (residue x2 - X) * residue z1 ^ 2 := by rw [eH, ex]; ring
            have er' : r = L * (residue x2 - X) * residue z1 ^ 3 := by
              rw [er, ey]; linear_combination (residue z1 ^ 3) * hl
            have ez : residue z3 = (residue x2 - X) * residue z1 ^ 3 := by rw [e3, eH']; ring
            have eX : curve.addX X (residue x2) L = L ^ 2 - X - residue x2 := by simp only [Affine.addX, curve]; ring
            have e1' : residue x3 = (L ^ 2 - X - residue x2) * residue z3 ^ 2 := by
              rw [e1, er', eH', ez, ex]; ring
            refine ⟨by rw [eX, e1'], ?_⟩
            have eY : curve.addY X (residue x2) Y L = L * (X - (L ^ 2 - X - residue x2)) - Y := by
              rw [Affine.addY, curve_negY, Affine.negAddY, eX]; ring
            rw [eY, e2, e1', er', eH', ez, ex, ey]; ring

/-- G satisfies the curve equation, so it stands for a point (R30). -/
theorem baseG_standsFor [Fact (Nat.Prime Config.p)] : ∃ G : curve.Point, baseG.StandsFor G := by
  have e : curve.Equation (residue (BitVec.ofNat 256 Config.gx)) (residue (BitVec.ofNat 256 Config.gy)) := by
    rw [Affine.equation_iff]
    have h : ((Config.gy ^ 2 : Nat) : ZMod Config.p) = ((Config.gx ^ 3 + Config.b + (Config.p - 3) * Config.gx : Nat) : ZMod Config.p) := by
      rw [ZMod.natCast_eq_natCast_iff]; decide +kernel
    have h3 : ((Config.p - 3 : Nat) : ZMod Config.p) = -3 := by
      rw [Nat.cast_sub (by decide), ZMod.natCast_self]; simp
    push_cast [h3] at h
    simp only [curve, residue, BitVec.toNat_ofNat, Nat.mod_eq_of_lt (show Config.gx < 2 ^ 256 by decide),
      Nat.mod_eq_of_lt (show Config.gy < 2 ^ 256 by decide)]
    linear_combination h
  exact ⟨.some _ _ ((Affine.equation_iff_nonsingular_of_Δ_ne_zero curve_discriminant).1 e), by decide, by decide, rfl, rfl⟩

end Sys2Proof.Laws
end

