-- ==== Sys2Proof/Laws/Encoding.lean ====
section
/-! SUPPORT. Once per command: it is well formed, and its opcode and format stand in the opcode map, whose opcodes differ (spec/30_encoding.md R95, R97). -/

namespace Sys2Proof.Laws

/-- Every index of every command names a register (R97). -/
theorem wellFormed (i : Instr) : i.wellFormed = true := by
  cases i <;> simp [Instr.wellFormed, Instr.operands, indexWellFormed]

/-- The row of every command stands in the opcode map (R95). -/
theorem row_mem (i : Instr) : i.row ∈ opcodeRows := by
  cases i <;> simp [Instr.row, opcodeRows]

/-- Different opcodes stand in different rows (R95). -/
theorem opcodes_nodup : (opcodeRows.map Prod.fst).Nodup := by decide

end Sys2Proof.Laws
end

