-- ==== Sys2Proof/Laws/State.lean ====
section
/-! SUPPORT. One lemma per field per update of State, true by rfl. -/

namespace Sys2Proof.Machine

variable (s : State)

@[simp] theorem State.writeF_f (i : Fin 8) (v : U256) : (s.writeF i v).f = s.f.set i (FixedReg.ofValue v) i.isLt := rfl
@[simp] theorem State.writeF_w (i : Fin 8) (v : U256) : (s.writeF i v).w = s.w := rfl
@[simp] theorem State.writeF_a (i : Fin 8) (v : U256) : (s.writeF i v).a = s.a := rfl
@[simp] theorem State.writeF_j (i : Fin 8) (v : U256) : (s.writeF i v).j = s.j := rfl
@[simp] theorem State.writeF_flags (i : Fin 8) (v : U256) : (s.writeF i v).flags = s.flags := rfl
@[simp] theorem State.writeF_cmd (i : Fin 8) (v : U256) : (s.writeF i v).cmd = s.cmd := rfl
@[simp] theorem State.writeF_latch (i : Fin 8) (v : U256) : (s.writeF i v).latch = s.latch := rfl
@[simp] theorem State.writeF_done (i : Fin 8) (v : U256) : (s.writeF i v).done = s.done := rfl
@[simp] theorem State.writeF_err (i : Fin 8) (v : U256) : (s.writeF i v).err = s.err := rfl
@[simp] theorem State.writeF_errcode (i : Fin 8) (v : U256) : (s.writeF i v).errcode = s.errcode := rfl
@[simp] theorem State.writeF_ie (i : Fin 8) (v : U256) : (s.writeF i v).ie = s.ie := rfl
@[simp] theorem State.writeF_errinfo (i : Fin 8) (v : U256) : (s.writeF i v).errinfo = s.errinfo := rfl
@[simp] theorem State.writeF_draws (i : Fin 8) (v : U256) : (s.writeF i v).draws = s.draws := rfl
@[simp] theorem State.writeF_portDraws (i : Fin 8) (v : U256) : (s.writeF i v).portDraws = s.portDraws := rfl
@[simp] theorem State.writeF_pending (i : Fin 8) (v : U256) : (s.writeF i v).pending = s.pending := rfl
@[simp] theorem State.writeF_answers (i : Fin 8) (v : U256) : (s.writeF i v).answers = s.answers := rfl

@[simp] theorem State.writeW_f (i : Fin 8) (v : U512) : (s.writeW i v).f = s.f := rfl
@[simp] theorem State.writeW_w (i : Fin 8) (v : U512) : (s.writeW i v).w = s.w.set i (DoubleReg.ofValue v) i.isLt := rfl
@[simp] theorem State.writeW_a (i : Fin 8) (v : U512) : (s.writeW i v).a = s.a := rfl
@[simp] theorem State.writeW_j (i : Fin 8) (v : U512) : (s.writeW i v).j = s.j := rfl
@[simp] theorem State.writeW_flags (i : Fin 8) (v : U512) : (s.writeW i v).flags = s.flags := rfl
@[simp] theorem State.writeW_cmd (i : Fin 8) (v : U512) : (s.writeW i v).cmd = s.cmd := rfl
@[simp] theorem State.writeW_latch (i : Fin 8) (v : U512) : (s.writeW i v).latch = s.latch := rfl
@[simp] theorem State.writeW_done (i : Fin 8) (v : U512) : (s.writeW i v).done = s.done := rfl
@[simp] theorem State.writeW_err (i : Fin 8) (v : U512) : (s.writeW i v).err = s.err := rfl
@[simp] theorem State.writeW_errcode (i : Fin 8) (v : U512) : (s.writeW i v).errcode = s.errcode := rfl
@[simp] theorem State.writeW_ie (i : Fin 8) (v : U512) : (s.writeW i v).ie = s.ie := rfl
@[simp] theorem State.writeW_errinfo (i : Fin 8) (v : U512) : (s.writeW i v).errinfo = s.errinfo := rfl
@[simp] theorem State.writeW_draws (i : Fin 8) (v : U512) : (s.writeW i v).draws = s.draws := rfl
@[simp] theorem State.writeW_portDraws (i : Fin 8) (v : U512) : (s.writeW i v).portDraws = s.portDraws := rfl
@[simp] theorem State.writeW_pending (i : Fin 8) (v : U512) : (s.writeW i v).pending = s.pending := rfl
@[simp] theorem State.writeW_answers (i : Fin 8) (v : U512) : (s.writeW i v).answers = s.answers := rfl

@[simp] theorem State.setA_f (i : Fin 8) (r : AffineReg) : (s.setA i r).f = s.f := rfl
@[simp] theorem State.setA_w (i : Fin 8) (r : AffineReg) : (s.setA i r).w = s.w := rfl
@[simp] theorem State.setA_a (i : Fin 8) (r : AffineReg) : (s.setA i r).a = s.a.set i r i.isLt := rfl
@[simp] theorem State.setA_j (i : Fin 8) (r : AffineReg) : (s.setA i r).j = s.j := rfl
@[simp] theorem State.setA_flags (i : Fin 8) (r : AffineReg) : (s.setA i r).flags = s.flags := rfl
@[simp] theorem State.setA_cmd (i : Fin 8) (r : AffineReg) : (s.setA i r).cmd = s.cmd := rfl
@[simp] theorem State.setA_latch (i : Fin 8) (r : AffineReg) : (s.setA i r).latch = s.latch := rfl
@[simp] theorem State.setA_done (i : Fin 8) (r : AffineReg) : (s.setA i r).done = s.done := rfl
@[simp] theorem State.setA_err (i : Fin 8) (r : AffineReg) : (s.setA i r).err = s.err := rfl
@[simp] theorem State.setA_errcode (i : Fin 8) (r : AffineReg) : (s.setA i r).errcode = s.errcode := rfl
@[simp] theorem State.setA_ie (i : Fin 8) (r : AffineReg) : (s.setA i r).ie = s.ie := rfl
@[simp] theorem State.setA_errinfo (i : Fin 8) (r : AffineReg) : (s.setA i r).errinfo = s.errinfo := rfl
@[simp] theorem State.setA_draws (i : Fin 8) (r : AffineReg) : (s.setA i r).draws = s.draws := rfl
@[simp] theorem State.setA_portDraws (i : Fin 8) (r : AffineReg) : (s.setA i r).portDraws = s.portDraws := rfl
@[simp] theorem State.setA_pending (i : Fin 8) (r : AffineReg) : (s.setA i r).pending = s.pending := rfl
@[simp] theorem State.setA_answers (i : Fin 8) (r : AffineReg) : (s.setA i r).answers = s.answers := rfl

@[simp] theorem State.setJ_f (i : Fin 8) (r : JacobianReg) : (s.setJ i r).f = s.f := rfl
@[simp] theorem State.setJ_w (i : Fin 8) (r : JacobianReg) : (s.setJ i r).w = s.w := rfl
@[simp] theorem State.setJ_a (i : Fin 8) (r : JacobianReg) : (s.setJ i r).a = s.a := rfl
@[simp] theorem State.setJ_j (i : Fin 8) (r : JacobianReg) : (s.setJ i r).j = s.j.set i r i.isLt := rfl
@[simp] theorem State.setJ_flags (i : Fin 8) (r : JacobianReg) : (s.setJ i r).flags = s.flags := rfl
@[simp] theorem State.setJ_cmd (i : Fin 8) (r : JacobianReg) : (s.setJ i r).cmd = s.cmd := rfl
@[simp] theorem State.setJ_latch (i : Fin 8) (r : JacobianReg) : (s.setJ i r).latch = s.latch := rfl
@[simp] theorem State.setJ_done (i : Fin 8) (r : JacobianReg) : (s.setJ i r).done = s.done := rfl
@[simp] theorem State.setJ_err (i : Fin 8) (r : JacobianReg) : (s.setJ i r).err = s.err := rfl
@[simp] theorem State.setJ_errcode (i : Fin 8) (r : JacobianReg) : (s.setJ i r).errcode = s.errcode := rfl
@[simp] theorem State.setJ_ie (i : Fin 8) (r : JacobianReg) : (s.setJ i r).ie = s.ie := rfl
@[simp] theorem State.setJ_errinfo (i : Fin 8) (r : JacobianReg) : (s.setJ i r).errinfo = s.errinfo := rfl
@[simp] theorem State.setJ_draws (i : Fin 8) (r : JacobianReg) : (s.setJ i r).draws = s.draws := rfl
@[simp] theorem State.setJ_portDraws (i : Fin 8) (r : JacobianReg) : (s.setJ i r).portDraws = s.portDraws := rfl
@[simp] theorem State.setJ_pending (i : Fin 8) (r : JacobianReg) : (s.setJ i r).pending = s.pending := rfl
@[simp] theorem State.setJ_answers (i : Fin 8) (r : JacobianReg) : (s.setJ i r).answers = s.answers := rfl

@[simp] theorem State.tick_f : s.tick.f = s.f := rfl
@[simp] theorem State.tick_w : s.tick.w = s.w := rfl
@[simp] theorem State.tick_a : s.tick.a = s.a := rfl
@[simp] theorem State.tick_j : s.tick.j = s.j := rfl
@[simp] theorem State.tick_flags : s.tick.flags = s.flags := rfl
@[simp] theorem State.tick_cmd : s.tick.cmd = s.cmd := rfl
@[simp] theorem State.tick_latch : s.tick.latch = s.latch := rfl
@[simp] theorem State.tick_done : s.tick.done = s.done := rfl
@[simp] theorem State.tick_err : s.tick.err = s.err := rfl
@[simp] theorem State.tick_errcode : s.tick.errcode = s.errcode := rfl
@[simp] theorem State.tick_ie : s.tick.ie = s.ie := rfl
@[simp] theorem State.tick_errinfo : s.tick.errinfo = s.errinfo := rfl
@[simp] theorem State.tick_draws : s.tick.draws = s.draws + 1 := rfl
@[simp] theorem State.tick_portDraws : s.tick.portDraws = s.portDraws := rfl
@[simp] theorem State.tick_pending : s.tick.pending = s.pending := rfl
@[simp] theorem State.tick_answers : s.tick.answers = s.answers := rfl

@[simp] theorem State.tickPort_f : s.tickPort.f = s.f := rfl
@[simp] theorem State.tickPort_w : s.tickPort.w = s.w := rfl
@[simp] theorem State.tickPort_a : s.tickPort.a = s.a := rfl
@[simp] theorem State.tickPort_j : s.tickPort.j = s.j := rfl
@[simp] theorem State.tickPort_flags : s.tickPort.flags = s.flags := rfl
@[simp] theorem State.tickPort_cmd : s.tickPort.cmd = s.cmd := rfl
@[simp] theorem State.tickPort_latch : s.tickPort.latch = s.latch := rfl
@[simp] theorem State.tickPort_done : s.tickPort.done = s.done := rfl
@[simp] theorem State.tickPort_err : s.tickPort.err = s.err := rfl
@[simp] theorem State.tickPort_errcode : s.tickPort.errcode = s.errcode := rfl
@[simp] theorem State.tickPort_ie : s.tickPort.ie = s.ie := rfl
@[simp] theorem State.tickPort_errinfo : s.tickPort.errinfo = s.errinfo := rfl
@[simp] theorem State.tickPort_draws : s.tickPort.draws = s.draws := rfl
@[simp] theorem State.tickPort_pending : s.tickPort.pending = s.pending := rfl
@[simp] theorem State.tickPort_answers : s.tickPort.answers = s.answers := rfl
@[simp] theorem State.tickPort_portDraws : s.tickPort.portDraws = s.portDraws + 1 := rfl

@[simp] theorem State.retire_f : s.retire.f = s.f := rfl
@[simp] theorem State.retire_w : s.retire.w = s.w := rfl
@[simp] theorem State.retire_a : s.retire.a = s.a := rfl
@[simp] theorem State.retire_j : s.retire.j = s.j := rfl
@[simp] theorem State.retire_flags : s.retire.flags = s.flags := rfl
@[simp] theorem State.retire_cmd : s.retire.cmd = s.cmd := rfl
@[simp] theorem State.retire_latch : s.retire.latch = none := rfl
@[simp] theorem State.retire_done : s.retire.done = true := rfl
@[simp] theorem State.retire_err : s.retire.err = s.err := rfl
@[simp] theorem State.retire_errcode : s.retire.errcode = s.errcode := rfl
@[simp] theorem State.retire_ie : s.retire.ie = s.ie := rfl
@[simp] theorem State.retire_errinfo : s.retire.errinfo = s.errinfo := rfl
@[simp] theorem State.retire_draws : s.retire.draws = s.draws := rfl
@[simp] theorem State.retire_portDraws : s.retire.portDraws = s.portDraws := rfl
@[simp] theorem State.retire_pending : s.retire.pending = s.pending := rfl
@[simp] theorem State.retire_answers : s.retire.answers = s.answers := rfl

@[simp] theorem State.accept_f (v : Word) : (s.accept v).f = s.f := rfl
@[simp] theorem State.accept_w (v : Word) : (s.accept v).w = s.w := rfl
@[simp] theorem State.accept_a (v : Word) : (s.accept v).a = s.a := rfl
@[simp] theorem State.accept_j (v : Word) : (s.accept v).j = s.j := rfl
@[simp] theorem State.accept_flags (v : Word) : (s.accept v).flags = s.flags := rfl
@[simp] theorem State.accept_cmd (v : Word) : (s.accept v).cmd = v := rfl
@[simp] theorem State.accept_latch (v : Word) : (s.accept v).latch = some v := rfl
@[simp] theorem State.accept_done (v : Word) : (s.accept v).done = false := rfl
@[simp] theorem State.accept_err (v : Word) : (s.accept v).err = s.err := rfl
@[simp] theorem State.accept_errcode (v : Word) : (s.accept v).errcode = s.errcode := rfl
@[simp] theorem State.accept_ie (v : Word) : (s.accept v).ie = s.ie := rfl
@[simp] theorem State.accept_errinfo (v : Word) : (s.accept v).errinfo = s.errinfo := rfl
@[simp] theorem State.accept_draws (v : Word) : (s.accept v).draws = s.draws := rfl
@[simp] theorem State.accept_portDraws (v : Word) : (s.accept v).portDraws = s.portDraws := rfl
@[simp] theorem State.accept_pending (v : Word) : (s.accept v).pending = s.pending := rfl
@[simp] theorem State.accept_answers (v : Word) : (s.accept v).answers = s.answers := rfl

@[simp] theorem State.clearError_f : s.clearError.f = s.f := rfl
@[simp] theorem State.clearError_w : s.clearError.w = s.w := rfl
@[simp] theorem State.clearError_a : s.clearError.a = s.a := rfl
@[simp] theorem State.clearError_j : s.clearError.j = s.j := rfl
@[simp] theorem State.clearError_flags : s.clearError.flags = s.flags := rfl
@[simp] theorem State.clearError_cmd : s.clearError.cmd = s.cmd := rfl
@[simp] theorem State.clearError_latch : s.clearError.latch = s.latch := rfl
@[simp] theorem State.clearError_done : s.clearError.done = s.done := rfl
@[simp] theorem State.clearError_err : s.clearError.err = false := rfl
@[simp] theorem State.clearError_errcode : s.clearError.errcode = 0 := rfl
@[simp] theorem State.clearError_ie : s.clearError.ie = s.ie := rfl
@[simp] theorem State.clearError_errinfo : s.clearError.errinfo = 0 := rfl
@[simp] theorem State.clearError_draws : s.clearError.draws = s.draws := rfl
@[simp] theorem State.clearError_portDraws : s.clearError.portDraws = s.portDraws := rfl
@[simp] theorem State.clearError_pending : s.clearError.pending = s.pending := rfl
@[simp] theorem State.clearError_answers : s.clearError.answers = s.answers := rfl

@[simp] theorem State.clearDone_f : s.clearDone.f = s.f := rfl
@[simp] theorem State.clearDone_w : s.clearDone.w = s.w := rfl
@[simp] theorem State.clearDone_a : s.clearDone.a = s.a := rfl
@[simp] theorem State.clearDone_j : s.clearDone.j = s.j := rfl
@[simp] theorem State.clearDone_flags : s.clearDone.flags = s.flags := rfl
@[simp] theorem State.clearDone_cmd : s.clearDone.cmd = s.cmd := rfl
@[simp] theorem State.clearDone_latch : s.clearDone.latch = s.latch := rfl
@[simp] theorem State.clearDone_done : s.clearDone.done = false := rfl
@[simp] theorem State.clearDone_err : s.clearDone.err = s.err := rfl
@[simp] theorem State.clearDone_errcode : s.clearDone.errcode = s.errcode := rfl
@[simp] theorem State.clearDone_ie : s.clearDone.ie = s.ie := rfl
@[simp] theorem State.clearDone_errinfo : s.clearDone.errinfo = s.errinfo := rfl
@[simp] theorem State.clearDone_draws : s.clearDone.draws = s.draws := rfl
@[simp] theorem State.clearDone_portDraws : s.clearDone.portDraws = s.portDraws := rfl
@[simp] theorem State.clearDone_pending : s.clearDone.pending = s.pending := rfl
@[simp] theorem State.clearDone_answers : s.clearDone.answers = s.answers := rfl

end Sys2Proof.Machine
end

