-- ==== Sys2Proof/Laws/Registers.lean ====
section
/-! SUPPORT. Registers as limbs and as values: the round trip, and reading back what was written (spec/00_scope.md R9, R10). -/

namespace Sys2Proof.Machine

/-- Joining the limbs of a value gives the value back, limb by limb from limb j up. -/
theorem limb_toNat {width : Nat} (v : BitVec width) (j : Nat) :
    (limb v j).toNat = v.toNat / 2 ^ (32 * j) % 2 ^ 32 := by
  simp [limb, BitVec.extractLsb'_toNat, Nat.shiftRight_eq_div_pow]

/-- The first `count` limbs of a number, from limb j up, stand for that number modulo 2^(32·count). -/
theorem limbsToNat_split (x : Nat) : ∀ (count j : Nat) (l : List Word), l.length = count →
    (∀ k (h : k < l.length), l[k].toNat = x / 2 ^ (32 * (j + k)) % 2 ^ 32) →
    limbsToNat l = x / 2 ^ (32 * j) % 2 ^ (32 * count) := by
  intro count
  induction count with
  | zero => intro j l hl _; obtain rfl := List.length_eq_zero_iff.1 hl; simp [limbsToNat, Nat.mod_one]
  | succ count ih =>
    intro j l hl h
    cases l with
    | nil => simp at hl
    | cons a rest =>
      have h0 : a.toNat = x / 2 ^ (32 * j) % 2 ^ 32 := h 0 (Nat.succ_pos _)
      have hr := ih (j + 1) rest (by simpa using hl) (fun k hk => by
        have := h (k + 1) (by simpa using hk)
        simpa [Nat.add_assoc, Nat.add_comm 1 k] using this)
      rw [limbsToNat, h0, hr, show 32 * (j + 1) = 32 * j + 32 by ring, show 32 * (count + 1) = 32 + 32 * count by ring,
        pow_add, pow_add, ← Nat.div_div_eq_div_mul, Nat.mod_mul]

@[simp] theorem FixedReg.value_ofValue (v : U256) : FixedReg.value (FixedReg.ofValue v) = v := by
  apply BitVec.eq_of_toNat_eq
  have h := limbsToNat_split v.toNat 8 0 (FixedReg.ofValue v).toList (by simp) (by
    intro k hk
    have hk' : k < 8 := by simpa using hk
    interval_cases k <;> simp only [FixedReg.ofValue] <;> exact limb_toNat v _)
  rw [FixedReg.value, BitVec.toNat_ofNat, h]
  simp [Nat.mod_eq_of_lt v.isLt]

set_option exponentiation.threshold 512 in
@[simp] theorem DoubleReg.value_ofValue (v : U512) : DoubleReg.value (DoubleReg.ofValue v) = v := by
  apply BitVec.eq_of_toNat_eq
  have h := limbsToNat_split v.toNat 16 0 (DoubleReg.ofValue v).toList (by simp) (by
    intro k hk
    have hk' : k < 16 := by simpa using hk
    interval_cases k <;> simp only [DoubleReg.ofValue] <;> exact limb_toNat v _)
  rw [DoubleReg.value, BitVec.toNat_ofNat, h]
  simp [Nat.mod_eq_of_lt v.isLt]

/-- Reading one element of a register file after writing one. -/
theorem get_set_same {α : Type} (v : Vector α 8) (i : Fin 8) (x : α) : (v.set i x i.isLt).get i = x := by
  simp [Vector.get_eq_getElem]

theorem get_set_ne {α : Type} (v : Vector α 8) {i k : Fin 8} (h : k ≠ i) (x : α) :
    (v.set i x i.isLt).get k = v.get k := by
  have : (i : Nat) ≠ k := fun e => h (Fin.ext e.symm)
  simp [Vector.get_eq_getElem, Vector.getElem_set_ne, this]

@[simp] theorem State.readF_writeF (s : State) (i : Fin 8) (v : U256) : (s.writeF i v).readF i = v := by
  rw [State.readF, State.writeF_f, get_set_same, FixedReg.value_ofValue]

theorem State.readF_writeF_ne (s : State) {i k : Fin 8} (h : k ≠ i) (v : U256) : (s.writeF i v).readF k = s.readF k := by
  rw [State.readF, State.writeF_f, get_set_ne _ h]; rfl

@[simp] theorem State.readW_writeW (s : State) (i : Fin 8) (v : U512) : (s.writeW i v).readW i = v := by
  rw [State.readW, State.writeW_w, get_set_same, DoubleReg.value_ofValue]

theorem State.readW_writeW_ne (s : State) {i k : Fin 8} (h : k ≠ i) (v : U512) : (s.writeW i v).readW k = s.readW k := by
  rw [State.readW, State.writeW_w, get_set_ne _ h]; rfl

@[simp] theorem State.readA_setA (s : State) (i : Fin 8) (r : AffineReg) : (s.setA i r).readA i = r.value := by
  rw [State.readA, State.setA_a, get_set_same]

@[simp] theorem State.readJ_setJ (s : State) (i : Fin 8) (r : JacobianReg) : (s.setJ i r).readJ i = r.value := by
  rw [State.readJ, State.setJ_j, get_set_same]

@[simp] theorem State.readA_tick (s : State) (i : Fin 8) : s.tick.readA i = s.readA i := rfl

@[simp] theorem State.readJ_tick (s : State) (i : Fin 8) : s.tick.readJ i = s.readJ i := rfl

@[simp] theorem State.readF_tick (s : State) (i : Fin 8) : s.tick.readF i = s.readF i := rfl

@[simp] theorem State.readF_retire (s : State) (i : Fin 8) : s.retire.readF i = s.readF i := rfl

@[simp] theorem State.readW_retire (s : State) (i : Fin 8) : s.retire.readW i = s.readW i := rfl

@[simp] theorem State.readA_retire (s : State) (i : Fin 8) : s.retire.readA i = s.readA i := rfl

@[simp] theorem State.readJ_retire (s : State) (i : Fin 8) : s.retire.readJ i = s.readJ i := rfl

/-- A point result reads back as it was written, infinity included (R26 b, c). -/
@[simp] theorem State.readA_writeA (s : State) (i : Fin 8) (v : AffineValue) : (s.writeA i v).readA i = v := by
  cases v <;> simp [State.writeA, AffineReg.value]

@[simp] theorem State.readJ_writeJ (s : State) (i : Fin 8) (v : JacobianValue) : (s.writeJ i v).readJ i = v := by
  cases v <;> simp [State.writeJ, JacobianReg.value]

end Sys2Proof.Machine
end

