-- ==== Sys2Proof/Laws/Ops.lean ====
section
/-! SUPPORT. What the shared operations can do, said once: the error latch, the completion, the host accesses, the step (spec/60_exceptions.md R210 to R213; spec/20_memory.md R74). -/

namespace Sys2Proof.Machine

/-- `raise` latches when nothing is latched and does nothing otherwise. -/
theorem State.raise_of_clear {s : State} (h : s.err = false) (code : BitVec 4) (info : Word) :
    s.raise code info = { s with err := true, errcode := code, errinfo := info } := by
  rw [State.raise, if_neg (by rw [h]; exact Bool.false_ne_true)]

theorem State.raise_of_latched {s : State} (h : s.err = true) (code : BitVec 4) (info : Word) :
    s.raise code info = s := by rw [State.raise, if_pos h]

/-- Whatever the latch held, `raise` changes only the three error fields, and ERR is 1 after it. -/
theorem State.raise_cases (s : State) (code : BitVec 4) (info : Word) :
    (s.err = false ∧ s.raise code info = { s with err := true, errcode := code, errinfo := info }) ∨
    (s.err = true ∧ s.raise code info = s) := by
  cases h : s.err
  · exact Or.inl ⟨rfl, State.raise_of_clear h code info⟩
  · exact Or.inr ⟨rfl, State.raise_of_latched h code info⟩

theorem ControlKept.rfl {s : State} : ControlKept s s := ⟨Eq.refl _, Eq.refl _, Eq.refl _, Eq.refl _, Eq.refl _, Eq.refl _, Eq.refl _, Eq.refl _⟩

theorem ControlKept.retire {s t : State} (h : ControlKept s t) : ControlKept s t.retire :=
  ⟨h.cmd, h.err, h.errcode, h.errinfo, h.ie, h.pending, h.answers, h.portDraws⟩

theorem FrameF.refl (rd : FReg) (s : State) : FrameF rd s s := ⟨fun _ _ => rfl, rfl, rfl, rfl, .rfl⟩

/-- A draw changes nothing a frame speaks of. -/
theorem FrameF.ofTick {rd : FReg} {s t : State} (h : FrameF rd s.tick t) : FrameF rd s t :=
  ⟨h.f, h.w, h.a, h.j, ⟨h.control.cmd, h.control.err, h.control.errcode, h.control.errinfo, h.control.ie, h.control.pending,
    h.control.answers, h.control.portDraws⟩⟩

theorem FrameW.refl (rd : WReg) (s : State) : FrameW rd s s := ⟨rfl, fun _ _ => rfl, rfl, rfl, rfl, .rfl⟩

theorem FrameA.refl (rd : AReg) (s : State) : FrameA rd s s := ⟨rfl, rfl, fun _ _ => rfl, rfl, rfl, .rfl⟩

theorem FrameJ.refl (rd : JReg) (s : State) : FrameJ rd s s := ⟨rfl, rfl, rfl, fun _ _ => rfl, rfl, .rfl⟩

theorem FrameF.writeF (rd : FReg) (s : State) (v : U256) : FrameF rd s (s.writeF rd v) :=
  ⟨fun _ h => get_set_ne _ h _, rfl, rfl, rfl, ⟨rfl, rfl, rfl, rfl, rfl, rfl, rfl, rfl⟩⟩

theorem FrameW.writeW (rd : WReg) (s : State) (v : U512) : FrameW rd s (s.writeW rd v) :=
  ⟨rfl, fun _ h => get_set_ne _ h _, rfl, rfl, rfl, ⟨rfl, rfl, rfl, rfl, rfl, rfl, rfl, rfl⟩⟩

theorem FrameA.setA (rd : AReg) (s : State) (r : AffineReg) : FrameA rd s (s.setA rd r) :=
  ⟨rfl, rfl, fun _ h => get_set_ne _ h _, rfl, rfl, ⟨rfl, rfl, rfl, rfl, rfl, rfl, rfl, rfl⟩⟩

theorem FrameJ.setJ (rd : JReg) (s : State) (r : JacobianReg) : FrameJ rd s (s.setJ rd r) :=
  ⟨rfl, rfl, rfl, fun _ h => get_set_ne _ h _, rfl, ⟨rfl, rfl, rfl, rfl, rfl, rfl, rfl, rfl⟩⟩

theorem FrameA.writeA (rd : AReg) (s : State) (v : AffineValue) : FrameA rd s (s.writeA rd v) := by
  cases v
  · exact ⟨rfl, rfl, fun _ h => get_set_ne _ h _, rfl, rfl, ⟨rfl, rfl, rfl, rfl, rfl, rfl, rfl, rfl⟩⟩
  · exact FrameA.setA rd s _

theorem FrameJ.writeJ (rd : JReg) (s : State) (v : JacobianValue) : FrameJ rd s (s.writeJ rd v) := by
  cases v
  · exact ⟨rfl, rfl, rfl, fun _ h => get_set_ne _ h _, rfl, ⟨rfl, rfl, rfl, rfl, rfl, rfl, rfl, rfl⟩⟩
  · exact FrameJ.setJ rd s _

theorem Completed.retire (s : State) : Completed s.retire := ⟨rfl, rfl⟩

/-- Everything a completion can do: it writes the result, or a draw, and retires; or it leaves the state as it is, and
then the command is one that never completes. -/
theorem State.complete_cases {α : Type} (s : State) (write : State → α → State) (draw : State → State) (r : Result α) :
    (∃ v, r = .value v ∧ s.complete write draw r = (write s v).retire) ∨
    ((r = .anyValue ∨ r = .anyValueOrNever) ∧ s.complete write draw r = (draw s).retire) ∨
    ((r = .never ∨ r = .anyValueOrNever) ∧ s.complete write draw r = s) := by
  cases r with
  | value v => exact Or.inl ⟨v, rfl, rfl⟩
  | anyValue => exact Or.inr (Or.inl ⟨Or.inl rfl, rfl⟩)
  | never => exact Or.inr (Or.inr ⟨Or.inl rfl, rfl⟩)
  | anyValueOrNever =>
    rw [State.complete]
    split
    · exact Or.inr (Or.inr ⟨Or.inr rfl, rfl⟩)
    · exact Or.inr (Or.inl ⟨Or.inr rfl, rfl⟩)

/-- What completing into F[rd] can do. -/
theorem State.completeF_spec (s : State) (rd : FReg) (r : Result U256) :
    FrameF rd s (s.completeF rd r) ∧ (s.completeF rd r).flags = s.flags ∧
    ((Completed (s.completeF rd r) ∧ ∀ v, r = .value v → (s.completeF rd r).readF rd = v) ∨
      ((r = .never ∨ r = .anyValueOrNever) ∧ s.completeF rd r = s)) := by
  unfold State.completeF
  rcases s.complete_cases (fun t v => t.writeF rd v) (fun t => t.drawF rd) r with ⟨v, e, h⟩ | ⟨e, h⟩ | ⟨e, h⟩
  · rw [h]
    refine ⟨⟨(FrameF.writeF rd s v).f, rfl, rfl, rfl, (FrameF.writeF rd s v).control.retire⟩, rfl,
      Or.inl ⟨Completed.retire _, fun u hu => ?_⟩⟩
    obtain rfl : v = u := by rw [e] at hu; exact Result.value.inj hu
    rw [State.readF_retire, State.readF_writeF]
  · rw [h]
    refine ⟨⟨(FrameF.writeF rd s _).f, rfl, rfl, rfl, ⟨rfl, rfl, rfl, rfl, rfl, rfl, rfl, rfl⟩⟩, rfl,
      Or.inl ⟨Completed.retire _, fun u hu => ?_⟩⟩
    rcases e with e | e <;> rw [e] at hu <;> cases hu
  · rw [h]; exact ⟨FrameF.refl rd s, rfl, Or.inr ⟨e, rfl⟩⟩

/-- What completing into W[rd] does. -/
theorem State.completeW_spec (s : State) (rd : WReg) (v : U512) :
    FrameW rd s (s.completeW rd v) ∧ Completed (s.completeW rd v) ∧ (s.completeW rd v).readW rd = v :=
  ⟨⟨rfl, (FrameW.writeW rd s v).w, rfl, rfl, rfl, (FrameW.writeW rd s v).control.retire⟩, Completed.retire _,
    by rw [State.completeW, State.readW_retire, State.readW_writeW]⟩

/-- What completing into A[rd] can do. -/
theorem State.completeA_spec (s : State) (rd : AReg) (r : Result AffineValue) :
    FrameA rd s (s.completeA rd r) ∧
    ((Completed (s.completeA rd r) ∧ ∀ v, r = .value v → (s.completeA rd r).readA rd = v) ∨
      ((r = .never ∨ r = .anyValueOrNever) ∧ s.completeA rd r = s)) := by
  unfold State.completeA
  rcases s.complete_cases (fun t v => t.writeA rd v) (fun t => t.drawA rd) r with ⟨v, e, h⟩ | ⟨e, h⟩ | ⟨e, h⟩
  · rw [h]
    have fr := FrameA.writeA rd s v
    refine ⟨⟨fr.f, fr.w, fr.a, fr.j, fr.flags, fr.control.retire⟩, Or.inl ⟨Completed.retire _, fun u hu => ?_⟩⟩
    obtain rfl : v = u := by rw [e] at hu; exact Result.value.inj hu
    rw [State.readA_retire, State.readA_writeA]
  · rw [h]
    refine ⟨⟨rfl, rfl, (FrameA.setA rd s _).a, rfl, rfl, ⟨rfl, rfl, rfl, rfl, rfl, rfl, rfl, rfl⟩⟩,
      Or.inl ⟨Completed.retire _, fun u hu => ?_⟩⟩
    rcases e with e | e <;> rw [e] at hu <;> cases hu
  · rw [h]; exact ⟨FrameA.refl rd s, Or.inr ⟨e, rfl⟩⟩

/-- What completing into J[rd] can do. -/
theorem State.completeJ_spec (s : State) (rd : JReg) (r : Result JacobianValue) :
    FrameJ rd s (s.completeJ rd r) ∧
    ((Completed (s.completeJ rd r) ∧ ∀ v, r = .value v → (s.completeJ rd r).readJ rd = v) ∨
      ((r = .never ∨ r = .anyValueOrNever) ∧ s.completeJ rd r = s)) := by
  unfold State.completeJ
  rcases s.complete_cases (fun t v => t.writeJ rd v) (fun t => t.drawJ rd) r with ⟨v, e, h⟩ | ⟨e, h⟩ | ⟨e, h⟩
  · rw [h]
    have fr := FrameJ.writeJ rd s v
    refine ⟨⟨fr.f, fr.w, fr.a, fr.j, fr.flags, fr.control.retire⟩, Or.inl ⟨Completed.retire _, fun u hu => ?_⟩⟩
    obtain rfl : v = u := by rw [e] at hu; exact Result.value.inj hu
    rw [State.readJ_retire, State.readJ_writeJ]
  · rw [h]
    refine ⟨⟨rfl, rfl, rfl, (FrameJ.setJ rd s _).j, rfl, ⟨rfl, rfl, rfl, rfl, rfl, rfl, rfl, rfl⟩⟩,
      Or.inl ⟨Completed.retire _, fun u hu => ?_⟩⟩
    rcases e with e | e <;> rw [e] at hu <;> cases hu
  · rw [h]; exact ⟨FrameJ.refl rd s, Or.inr ⟨e, rfl⟩⟩

/-- What completing into F[rd] and C does (R112 to R114). -/
theorem State.completeFC_spec (s : State) (rd : FReg) (r : U256 × Bool) :
    FrameF rd s (s.completeFC rd r) ∧ Completed (s.completeFC rd r) ∧ (s.completeFC rd r).readF rd = r.1 ∧
    (s.completeFC rd r).flags = { s.flags with c := r.2 } :=
  ⟨⟨fun _ h => get_set_ne _ h _, rfl, rfl, rfl, ⟨rfl, rfl, rfl, rfl, rfl, rfl, rfl, rfl⟩⟩, Completed.retire _,
    by rw [State.completeFC, State.readF_retire, State.readF_writeF], rfl⟩

/-! The window. -/

/-- The offset of CMD is CMD's, and so on for the control registers. -/
theorem slotAt_cmd : slotAt 0x004 = .cmd := by decide

theorem slotAt_status : slotAt 0x008 = .status := by decide

theorem slotAt_ctrl : slotAt 0x00C = .ctrl := by decide

theorem slotAt_flags : slotAt 0x010 = .flags := by decide

theorem slotAt_errinfo : slotAt 0x014 = .errinfo := by decide

theorem slotAt_id : slotAt 0x000 = .id := by decide

theorem State.memWrite_cmd (s : State) (v : Word) : s.memWrite 0x004 v = s.offer v := by
  rw [State.memWrite, slotAt_cmd]

theorem State.memWrite_status (s : State) (v : Word) : s.memWrite 0x008 v = s.writeStatus v := by
  rw [State.memWrite, slotAt_status]

theorem State.memWrite_ctrl (s : State) (v : Word) : s.memWrite 0x00C v = s.writeCtrl v := by
  rw [State.memWrite, slotAt_ctrl]

/-- Everything a write can do, by the slot at its offset. -/
theorem State.memWrite_cases (s : State) (off : Offset) (v : Word) :
    (slotAt off = .cmd ∧ s.memWrite off v = s.offer v) ∨
    (slotAt off = .status ∧ s.memWrite off v = s.writeStatus v) ∨
    (slotAt off = .ctrl ∧ s.memWrite off v = s.writeCtrl v) ∨
    ((slotAt off).isData = true ∧ s.busy = true ∧ s.memWrite off v = s.raise 3 (off.setWidth 32)) ∨
    ((slotAt off).isData = true ∧ s.busy = false ∧ s.memWrite off v = s.storeSlot v (slotAt off)) ∨
    ((slotAt off).isData = false ∧ slotAt off ≠ .cmd ∧ slotAt off ≠ .status ∧ slotAt off ≠ .ctrl ∧
      s.memWrite off v = s) := by
  unfold State.memWrite
  generalize slotAt off = slot
  cases hb : s.busy <;> cases slot <;> simp [Slot.isData]

/-- Everything a read can do. -/
theorem State.memRead_cases (s : State) (off : Offset) :
    ((slotAt off).isData = true ∧ s.busy = true ∧ s.memRead off = (Config.draw32 s.portDraws, s.tickPort)) ∨
    (((slotAt off).isData = false ∨ s.busy = false) ∧ s.memRead off = (s.readSlot (slotAt off), s)) := by
  unfold State.memRead
  cases h1 : (slotAt off).isData <;> cases h2 : s.busy <;> simp

/-- A data store touches the four register files only. -/
theorem State.storeSlot_frame (s : State) (v : Word) (slot : Slot) :
    let t := s.storeSlot v slot
    t.flags = s.flags ∧ t.latch = s.latch ∧ t.done = s.done ∧ t.draws = s.draws ∧ ControlKept s t := by
  cases slot <;> exact ⟨rfl, rfl, rfl, rfl, ⟨rfl, rfl, rfl, rfl, rfl, rfl, rfl, rfl⟩⟩

/-- Everything a write to CMD can do (R210). -/
theorem State.offer_cases (s : State) (w : Word) :
    (s.busy = true ∧ s.offer w = s.raise 2 w) ∨
    (s.busy = false ∧ (∃ r, decodeWord w = .error r) ∧ s.offer w = s.raise 1 w) ∨
    (s.busy = false ∧ (∃ i, decodeWord w = .ok i) ∧ s.offer w = s.accept w) := by
  unfold State.offer
  cases hb : s.busy with
  | true => exact Or.inl ⟨rfl, rfl⟩
  | false =>
    cases hd : decodeWord w with
    | error r => exact Or.inr (Or.inl ⟨rfl, ⟨r, rfl⟩, rfl⟩)
    | ok i => exact Or.inr (Or.inr ⟨rfl, ⟨i, rfl⟩, rfl⟩)

/-- A write to STATUS field by field (R42). -/
theorem State.writeStatus_eq (s : State) (v : Word) :
    s.writeStatus v = { s with
      done := s.done && !v.getLsbD 1
      err := s.err && !v.getLsbD 2
      errcode := if v.getLsbD 2 then 0 else s.errcode
      errinfo := if v.getLsbD 2 then 0 else s.errinfo } := by
  unfold State.writeStatus
  cases h1 : v.getLsbD 1 <;> cases h2 : v.getLsbD 2 <;> simp [State.clearDone, State.clearError]

/-- A byte of the window is a byte of the word that the aligned read returns; idle, that is the word of its slot (R63). -/
theorem State.windowByte_idle {s : State} (h : s.busy = false) (off : Offset) :
    s.windowByte off = byteOfLimb (s.readSlot (slotAt (wordOffset off))) (off.toNat % 4) := by
  rw [State.windowByte, State.memRead, h, Bool.false_and, if_neg Bool.false_ne_true]

/-! The step. -/

theorem step_nil {s : State} (h : s.pending = []) : step s = unitTurn s := by
  rw [step, stepEvent, h]

theorem step_cons {s : State} {e : HostEvent} {rest : List HostEvent} (h : s.pending = e :: rest) :
    step s = handleEvent e { s with pending := rest } := by
  rw [step, stepEvent, h]

theorem unitTurn_idle {s : State} (h : s.latch = none) : unitTurn s = .next s := by
  rw [unitTurn, h]

theorem unitTurn_running {s : State} {w : Word} {i : Instr} (h : s.latch = some w) (hd : decodeWord w = .ok i) :
    unitTurn s = exec i s := by
  rw [unitTurn, h]; simp only [hd]

theorem hostRead_wellFormed (s : State) {off : Offset} {size : Nat} (h : accessWellFormed off size = true) :
    hostRead s off size =
      .next { (s.memRead off).2 with answers := (off, (s.memRead off).1) :: (s.memRead off).2.answers } := by
  rw [hostRead, if_pos h]

theorem hostWrite_wellFormed (s : State) {off : Offset} {size : Nat} (v : Word) (h : accessWellFormed off size = true) :
    hostWrite s off size v = .next (s.memWrite off v) := by
  rw [hostWrite, if_pos h]

/-- Runs: none of a step; one step more at the front. -/
theorem Runs.zero (s : State) : Runs 0 s s := rfl

theorem Runs.cons {k : Nat} {s t u : State} (h : step s = .next t) (hr : Runs k t u) : Runs (k + 1) s u := by
  have e := Host.Core.run.eq_2 core s k
  have h' : core.step s = .next t := h
  rw [h'] at e
  exact e.trans hr

theorem Runs.succ {k : Nat} {s u : State} (h : Runs (k + 1) s u) : ∃ t, step s = .next t ∧ Runs k t u := by
  have e := (Host.Core.run.eq_2 core s k).symm.trans h
  have h' : core.step s = step s := rfl
  rw [h'] at e
  cases hs : step s with
  | next t => rw [hs] at e; exact ⟨t, rfl, e⟩
  | fault r => rw [hs] at e; cases e
  | refused r => rw [hs] at e; cases e

end Sys2Proof.Machine
end

