-- ==== Sys2Proof/Laws/Exec.lean ====
section
/-! SUPPORT. One line per command: what `exec` of it is, and the result its function gives in domain (spec/60_exceptions.md R211; spec/70_reset_and_hazards.md R247). -/

namespace Sys2Proof.Machine

variable (s : State)

theorem exec_cmp (a b : FReg) :
    exec (.cmp a b) s = .next { s with flags := s.flags.withCompare (cmp256 (s.readF a) (s.readF b)) }.retire := rfl

theorem exec_shr1 (rd a : FReg) :
    exec (.shr1 rd a) s = .next (s.completeFC rd (shr1 (s.readF a))) := rfl

theorem exec_add (rd a b : FReg) :
    exec (.add rd a b) s = .next (s.completeFC rd (add256 (s.readF a) (s.readF b))) := rfl

theorem exec_sub (rd a b : FReg) :
    exec (.sub rd a b) s = .next (s.completeFC rd (sub256 (s.readF a) (s.readF b))) := rfl

theorem exec_addmod (rd a b : FReg) :
    exec (.addmod rd a b) s = .next (s.completeF rd (fieldBinary addmod (s.readF a) (s.readF b))) := rfl

theorem exec_submod (rd a b : FReg) :
    exec (.submod rd a b) s = .next (s.completeF rd (fieldBinary submod (s.readF a) (s.readF b))) := rfl

theorem exec_mulfull (rd : WReg) (a b : FReg) :
    exec (.mulfull rd a b) s = .next (s.completeW rd (mulfull (s.readF a) (s.readF b))) := rfl

theorem exec_mulfullps (rd : WReg) (a b : FReg) :
    exec (.mulfullps rd a b) s = .next (s.completeW rd (mulfull (s.readF a) (s.readF b))) := rfl

theorem exec_sqrfull (rd : WReg) (a : FReg) :
    exec (.sqrfull rd a) s = .next (s.completeW rd (sqrfull (s.readF a))) := rfl

theorem exec_fred (rd : FReg) (a : WReg) :
    exec (.fred rd a) s = .next (s.tick.completeF rd (fredResult (Config.fredMayDraw s.draws) (s.readW a))) := rfl

theorem exec_montred (rd : FReg) (a : WReg) :
    exec (.montred rd a) s = .next (s.completeF rd (montredResult (s.readW a))) := rfl

theorem exec_mulmod (rd a b : FReg) :
    exec (.mulmod rd a b) s = .next (s.completeF rd (fieldBinary mulmod (s.readF a) (s.readF b))) := rfl

theorem exec_sqrmod (rd a : FReg) :
    exec (.sqrmod rd a) s = .next (s.completeF rd (sqrmodResult (s.readF a))) := rfl

theorem exec_inv (rd a : FReg) :
    exec (.inv rd a) s = .next (s.completeF rd (invResult (s.readF a))) := rfl

theorem exec_a2j (rd : JReg) (a : AReg) :
    exec (.a2j rd a) s = .next (s.completeJ rd (.value (a2j (s.readA a)))) := rfl

theorem exec_j2a (rd : AReg) (a : JReg) :
    exec (.j2a rd a) s = .next (s.completeA rd (j2aResult (s.readJ a))) := rfl

theorem exec_addaff (rd a b : AReg) :
    exec (.addaff rd a b) s = .next (s.completeA rd (classH ((s.readA a).inDomain && (s.readA b).inDomain) (addaff (s.readA a) (s.readA b)))) := rfl

theorem exec_dblaff (rd a : AReg) :
    exec (.dblaff rd a) s = .next (s.completeA rd (classH (s.readA a).inDomain (dblaff (s.readA a)))) := rfl

theorem exec_dblj (rd a : JReg) :
    exec (.dblj rd a) s = .next (s.completeJ rd (classV (s.readJ a).inDomain (dblj (s.readJ a)))) := rfl

theorem exec_addja (rd a : JReg) (b : AReg) :
    exec (.addja rd a b) s = .next (s.completeJ rd (classV ((s.readJ a).inDomain && (s.readA b).inDomain) (addja (s.readJ a) (s.readA b)))) := rfl

theorem exec_smulltr (rd : AReg) (a : FReg) (b : AReg) :
    exec (.smulltr rd a b) s = .next (s.completeA rd (classH (s.readA b).inDomain (smulLtr (s.readF a) (s.readA b)))) := rfl

theorem exec_smulrtl (rd : AReg) (a : FReg) (b : AReg) :
    exec (.smulrtl rd a b) s = .next (s.completeA rd (classH (s.readA b).inDomain (smulRtl (s.readF a) (s.readA b)))) := rfl

theorem exec_smulwin (rd : AReg) (a : FReg) :
    exec (.smulwin rd a) s = .next (s.completeA rd (.ofOption (smulWin (s.readF a)))) := rfl

theorem exec_smulbit (rd : AReg) (a : FReg) :
    exec (.smulbit rd a) s = .next (s.completeA rd (.ofOption (smulBit (s.readF a)))) := rfl

end Sys2Proof.Machine

namespace Sys2Proof.Laws

open Sys2Proof.Machine

theorem fieldBinary_inDomain (op : U256 → U256 → U256) {a b : U256} (ha : a.toNat < Config.p) (hb : b.toNat < Config.p) :
    fieldBinary op a b = .value (op a b) := by
  rw [fieldBinary, if_pos (by rw [(fieldElement_iff a).2 ha, (fieldElement_iff b).2 hb]; rfl)]

/-- A class V function of two field elements always completes. -/
theorem fieldBinary_completes (op : U256 → U256 → U256) (a b : U256) :
    fieldBinary op a b ≠ .never ∧ fieldBinary op a b ≠ .anyValueOrNever := by
  rw [fieldBinary]; split <;> exact ⟨by simp, by simp⟩

theorem fredResult_inDomain (mayDraw : Bool) {T : U512} (h : ∃ x y, x < Config.p ∧ y < Config.p ∧ T.toNat = x * y) :
    fredResult mayDraw T = .value (fred T) := by
  obtain ⟨x, y, hx, hy, e⟩ := h
  have := (reducedProduct_iff T).2 ⟨x, hx, y, hy, e⟩
  rw [fredResult, this]; simp

theorem fredResult_completes (mayDraw : Bool) (T : U512) :
    fredResult mayDraw T ≠ .never ∧ fredResult mayDraw T ≠ .anyValueOrNever := by
  rw [fredResult]; split <;> exact ⟨by simp, by simp⟩

theorem montredResult_inDomain {T : U512} (h : T.toNat < Config.p * 2 ^ 256) : montredResult T = .value (montred T) := by
  rw [montredResult, if_pos (by rw [montredDomain]; exact decide_eq_true h)]

theorem montredResult_completes (T : U512) : montredResult T ≠ .never ∧ montredResult T ≠ .anyValueOrNever := by
  rw [montredResult]; split <;> exact ⟨by simp, by simp⟩

theorem sqrmodResult_inDomain {a : U256} (h : a.toNat < Config.p) : sqrmodResult a = .value (sqrmod a) := by
  rw [sqrmodResult, if_pos ((fieldElement_iff a).2 h)]

theorem sqrmodResult_completes (a : U256) : sqrmodResult a ≠ .never ∧ sqrmodResult a ≠ .anyValueOrNever := by
  rw [sqrmodResult]; split <;> exact ⟨by simp, by simp⟩

theorem invDomain_iff (a : U256) : invDomain a = true ↔ a ≠ 0 ∧ a.toNat < Config.p := by
  rw [invDomain, Bool.and_eq_true, fieldElement_iff, bne_iff_ne]

theorem invResult_inDomain {a x : U256} (h0 : a ≠ 0) (hp : a.toNat < Config.p) (hx : inv a = some x) :
    invResult a = .value x := by
  rw [invResult, if_pos ((invDomain_iff a).2 ⟨h0, hp⟩), hx, Result.ofOption]

/-- INV of 0 and of p never completes (R146). -/
theorem invResult_never {a : U256} (h : a = 0 ∨ a.toNat = Config.p) : invResult a = .never := by
  have hd : ¬invDomain a = true := by
    rw [invDomain_iff]
    rcases h with h | h
    · exact fun d => d.1 h
    · exact fun d => absurd d.2 (by omega)
  rw [invResult, if_neg hd, if_pos]
  rw [Bool.or_eq_true, decide_eq_true_eq, decide_eq_true_eq]
  exact h.imp id fun e => BitVec.eq_of_toNat_eq (e.trans pWord_toNat.symm)

theorem j2aResult_inDomain {pt : JacobianValue} {v : AffineValue} (h : pt.inDomain = true) (hv : j2a pt = some v) :
    j2aResult pt = .value v := by
  cases pt with
  | inf => cases hv; rfl
  | point x y z => rw [j2aResult, if_pos h, hv, Result.ofOption]

/-- J2A of Z = 0 with inf = 0 never completes (R161, R248). -/
theorem j2aResult_never (x y : U256) : j2aResult (.point x y 0) = .never := by
  have hd : ¬(JacobianValue.point x y 0).inDomain = true := by
    rw [JacobianValue.inDomain_point]; exact fun d => d.2.2.2 rfl
  rw [j2aResult, if_neg hd, if_pos rfl]

theorem classH_inDomain {d : Bool} {r : Option AffineValue} {v : AffineValue} (h : d = true) (hv : r = some v) :
    classH d r = .value v := by rw [classH, if_pos h, hv, Result.ofOption]

theorem classV_inDomain {d : Bool} {r : JacobianValue} (h : d = true) : classV d r = .value r := by
  rw [classV, if_pos h]

theorem classV_completes (d : Bool) (r : JacobianValue) : classV d r ≠ .never ∧ classV d r ≠ .anyValueOrNever := by
  rw [classV]; split <;> exact ⟨by simp, by simp⟩

end Sys2Proof.Laws
end

