-- ==== Sys2Proof/Laws/PerInstr.lean ====
section
/-! SUPPORT. Statements made per command: the encoded word carries the command's opcode and a 0 in every must-be-zero bit of its format (spec/30_encoding.md R91, R92). -/

namespace Sys2Proof.Laws.MustBeZero

/-- (word AND mask) = OPC · 2^24 for the encoded word, with the mask of the command's format (R92). -/
def Statement (i : Instr) : Prop := encode i &&& i.row.2.mask = matchOf i.row.1

theorem cmp (rs1 rs2 : FReg) : Statement (.cmp rs1 rs2) := by
  unfold Statement; revert rs1 rs2; decide +kernel

theorem shr1 (rd rs1 : FReg) : Statement (.shr1 rd rs1) := by
  unfold Statement; revert rd rs1; decide +kernel

theorem add (rd rs1 rs2 : FReg) : Statement (.add rd rs1 rs2) := by
  unfold Statement; revert rd rs1 rs2; decide +kernel

theorem sub (rd rs1 rs2 : FReg) : Statement (.sub rd rs1 rs2) := by
  unfold Statement; revert rd rs1 rs2; decide +kernel

theorem addmod (rd rs1 rs2 : FReg) : Statement (.addmod rd rs1 rs2) := by
  unfold Statement; revert rd rs1 rs2; decide +kernel

theorem submod (rd rs1 rs2 : FReg) : Statement (.submod rd rs1 rs2) := by
  unfold Statement; revert rd rs1 rs2; decide +kernel

theorem mulfull (rd : WReg) (rs1 rs2 : FReg) : Statement (.mulfull rd rs1 rs2) := by
  unfold Statement; revert rd rs1 rs2; decide +kernel

theorem mulfullps (rd : WReg) (rs1 rs2 : FReg) : Statement (.mulfullps rd rs1 rs2) := by
  unfold Statement; revert rd rs1 rs2; decide +kernel

theorem sqrfull (rd : WReg) (rs1 : FReg) : Statement (.sqrfull rd rs1) := by
  unfold Statement; revert rd rs1; decide +kernel

theorem fred (rd : FReg) (rs1 : WReg) : Statement (.fred rd rs1) := by
  unfold Statement; revert rd rs1; decide +kernel

theorem montred (rd : FReg) (rs1 : WReg) : Statement (.montred rd rs1) := by
  unfold Statement; revert rd rs1; decide +kernel

theorem mulmod (rd rs1 rs2 : FReg) : Statement (.mulmod rd rs1 rs2) := by
  unfold Statement; revert rd rs1 rs2; decide +kernel

theorem sqrmod (rd rs1 : FReg) : Statement (.sqrmod rd rs1) := by
  unfold Statement; revert rd rs1; decide +kernel

theorem inv (rd rs1 : FReg) : Statement (.inv rd rs1) := by
  unfold Statement; revert rd rs1; decide +kernel

theorem a2j (rd : JReg) (rs1 : AReg) : Statement (.a2j rd rs1) := by
  unfold Statement; revert rd rs1; decide +kernel

theorem j2a (rd : AReg) (rs1 : JReg) : Statement (.j2a rd rs1) := by
  unfold Statement; revert rd rs1; decide +kernel

theorem addaff (rd rs1 rs2 : AReg) : Statement (.addaff rd rs1 rs2) := by
  unfold Statement; revert rd rs1 rs2; decide +kernel

theorem dblaff (rd rs1 : AReg) : Statement (.dblaff rd rs1) := by
  unfold Statement; revert rd rs1; decide +kernel

theorem dblj (rd rs1 : JReg) : Statement (.dblj rd rs1) := by
  unfold Statement; revert rd rs1; decide +kernel

theorem addja (rd rs1 : JReg) (rs2 : AReg) : Statement (.addja rd rs1 rs2) := by
  unfold Statement; revert rd rs1 rs2; decide +kernel

theorem smulltr (rd : AReg) (rs1 : FReg) (rs2 : AReg) : Statement (.smulltr rd rs1 rs2) := by
  unfold Statement; revert rd rs1 rs2; decide +kernel

theorem smulrtl (rd : AReg) (rs1 : FReg) (rs2 : AReg) : Statement (.smulrtl rd rs1 rs2) := by
  unfold Statement; revert rd rs1 rs2; decide +kernel

theorem smulwin (rd : AReg) (rs1 : FReg) : Statement (.smulwin rd rs1) := by
  unfold Statement; revert rd rs1; decide +kernel

theorem smulbit (rd : AReg) (rs1 : FReg) : Statement (.smulbit rd rs1) := by
  unfold Statement; revert rd rs1; decide +kernel

end Sys2Proof.Laws.MustBeZero
end

