-- ==== Sys2Proof/Tests/Slice0.lean ====
section
/-! SUPPORT. Tests: ill-formed terms, command words written out bit by bit, the derived vectors of spec/95_test_vectors.md (their ids stand in the comments; no value comes from this model), and for every statement with hypotheses a witness that meets them. -/

-- One theorem at a time: many kernel evaluations side by side need many thread stacks.
set_option Elab.async false

namespace Sys2Proof.Tests

open Sys2Proof.Machine

/-! ## A small state -/

/-- Eight zero limbs. -/
def zeroF : FixedReg := Vector.replicate 8 0

/-- The idle unit with every bit 0. -/
def blank : State where
  f := Vector.replicate 8 zeroF
  w := Vector.replicate 8 (Vector.replicate 16 0)
  a := Vector.replicate 8 { x := zeroF, y := zeroF, inf := false }
  j := Vector.replicate 8 { x := zeroF, y := zeroF, z := zeroF, inf := false }
  flags := { c := false, eq := false, lt := false, gt := false }
  cmd := 0
  latch := none
  done := false
  err := false
  errcode := 0
  ie := false
  errinfo := 0
  draws := 0
  portDraws := 0
  pending := []
  answers := []

/-- `blank` with F0 and F1 loaded. -/
def withF (x y : U256) : State := (blank.writeF 0 x).writeF 1 y

/-- `blank` with A0 and A1 loaded. -/
def withA (q r : AffineValue) : State := (blank.writeA 0 q).writeA 1 r

/-- `blank` with J1 and A0 loaded. -/
def withJ (q : JacobianValue) (r : AffineValue) : State := (blank.writeJ 1 q).writeA 0 r

/-- `blank` with SHR1 F0, F0 running. -/
def busy : State := blank.accept 0x11000000

/-- The state after the completion of a command. -/
def after (i : Instr) (s : State) : State :=
  match exec i s with
  | .next t => t
  | .fault _ => s
  | .refused _ => s

/-- The state k steps on. -/
def runTo (k : Nat) (s : State) : State :=
  match Sys2Proof.core.run k s with
  | .next t => t
  | .fault _ => s
  | .refused _ => s

/-- The operand a of spec/95_test_vectors.md. -/
def va : U256 := 0x112233445566778899AABBCCDDEEFF000123456789ABCDEFFEDCBA9876543210#256

/-- The operand b of spec/95_test_vectors.md. -/
def vb : U256 := 0xFFFFFFFF00000000FFFFFFFFFFFFFFFF000000000000000000000000DEADBEEF#256

/-- ab mod p. -/
def vab : U256 := 0x893F818F264DEACB487BADF4A5B75D58AE19FB1F6670F70FBB7732EEDA455D7B#256

/-- 2G -/
def v2G : AffineValue := .point 0x7CF27B188D034F7E8A52380304B51AC3C08969E277F21B35A60B48FC47669978#256
  0x07775510DB8ED040293D9AC69F7430DBBA7DADE63CE982299E04B79D227873D1#256

/-- 3G -/
def v3G : AffineValue := .point 0x5ECBE4D1A6330A44C8F7EF951D4BF165E6C6B721EFADA985FB41661BC6E7FD6C#256
  0x8734640C4998FF7E374B06CE1A64A2ECD82AB036384FB83D9A79B127A27D5032#256

/-- 5G -/
def v5G : AffineValue := .point 0x51590B7A515140D2D784C85608668FDFEF8C82FD1F5BE52421554A0DC3D033ED#256
  0xE0C17DA8904A727D8AE1BF36BF8A79260D012F00D4D80888D1D0BB44FDA16DA4#256

/-- -G -/
def vNegG : AffineValue := .point (BitVec.ofNat 256 Config.gx)
  0xB01CBD1C01E58065711814B583F061E9D431CCA994CEA1313449BF97C840AE0A#256

/-- Jq, the triple (4Gx, 8Gy, 2) that stands for G. -/
def vJq : JacobianValue := .point 0xAC5F47CC84B1091EE2F39B958E9103C9DC0DF603B7ACCE83D284E51762630A59#256
  0x7F1A1719F0D3FCDA773F5A53E07CF0B15E719AB9598AF6765DB20341BDFA8FAA#256 2

/-- Jq2, the doubling of Jq. -/
def vJq2 : JacobianValue := .point 0x978F5A46D1B5ACBD0E7D52DCFCDE43804B4226B561DDCF1E7D848391D6C70F9A#256
  0x6885EC0986AF8C4138238E5346D5FE77FC46347468BD0FD59BE3190D2F5D1412#256
  0xFC685C68C34FF368DCFD694F81F3C2C579C66AE4662BD9D976C80D06F7EA3EA9#256

/-! ## Well-formedness -/

/-- An index field with its top bit set names no register (R91). -/
theorem test_index_8_illFormed : indexWellFormed 8 = false ∧ indexWellFormed 15 = false ∧ indexWellFormed 7 = true := by decide

/-- Only aligned words can be expressed (R62). -/
theorem test_access_illFormed : accessWellFormed 0x200 2 = false ∧ accessWellFormed 0x202 4 = false ∧
    accessWellFormed 0x200 8 = false ∧ accessWellFormed 0xFFC 4 = true := by decide

/-- The step refuses them by name (R62). -/
theorem test_illFormed_access_refused : step { blank with pending := [.read 0x201 4] } = .refused .accessNotExpressible := rfl

/-! ## Command words: OPC, RD, RS1, RS2 and the twelve low bits, bit by bit -/

/-- VE1 to VE4 and `SUB F7, F7, F7`: CMP F1, F2; SHR1 F0, F0; ADD F0, F1, F2; SUB F0, F1, F2. -/
theorem test_decode_fixed_width :
    decodeWord 0b00010000_0_000_0_001_0_010_000000000000#32 = .ok (.cmp 1 2) ∧
    decodeWord 0b00010001_0_000_0_000_0_000_000000000000#32 = .ok (.shr1 0 0) ∧
    decodeWord 0b00010010_0_000_0_001_0_010_000000000000#32 = .ok (.add 0 1 2) ∧
    decodeWord 0b00010011_0_000_0_001_0_010_000000000000#32 = .ok (.sub 0 1 2) ∧
    decodeWord 0x13777000#32 = .ok (.sub 7 7 7) := ⟨rfl, rfl, rfl, rfl, rfl⟩

/-- VE5 to VE10. -/
theorem test_decode_modular :
    decodeWord 0b00100000_0_010_0_000_0_001_000000000000#32 = .ok (.addmod 2 0 1) ∧
    decodeWord 0b00100001_0_010_0_000_0_001_000000000000#32 = .ok (.submod 2 0 1) ∧
    decodeWord 0b00100010_0_000_0_000_0_001_000000000000#32 = .ok (.mulfull 0 0 1) ∧
    decodeWord 0b00100011_0_011_0_000_0_111_000000000000#32 = .ok (.mulfullps 3 0 7) ∧
    decodeWord 0b00100100_0_000_0_000_0_000_000000000000#32 = .ok (.sqrfull 0 0) ∧
    decodeWord 0b00100101_0_010_0_000_0_000_000000000000#32 = .ok (.fred 2 0) := ⟨rfl, rfl, rfl, rfl, rfl, rfl⟩

/-- VE11 to VE14, with MONTRED F4, W1 of program P4. -/
theorem test_decode_montgomery :
    decodeWord 0b00100110_0_100_0_001_0_000_000000000000#32 = .ok (.montred 4 1) ∧
    decodeWord 0b00100111_0_010_0_000_0_001_000000000000#32 = .ok (.mulmod 2 0 1) ∧
    decodeWord 0b00101000_0_001_0_000_0_000_000000000000#32 = .ok (.sqrmod 1 0) ∧
    decodeWord 0b00101001_0_001_0_000_0_000_000000000000#32 = .ok (.inv 1 0) := ⟨rfl, rfl, rfl, rfl⟩

/-- VE15, VE16, with J2A A1, J0 of program P3. -/
theorem test_decode_conversion :
    decodeWord 0b00110000_0_000_0_000_0_000_000000000000#32 = .ok (.a2j 0 0) ∧
    decodeWord 0b00110001_0_001_0_000_0_000_000000000000#32 = .ok (.j2a 1 0) := ⟨rfl, rfl⟩

/-- VE17 to VE20 and `ADDJA J1, J1, A2`. -/
theorem test_decode_group :
    decodeWord 0b01000000_0_010_0_000_0_001_000000000000#32 = .ok (.addaff 2 0 1) ∧
    decodeWord 0b01000001_0_001_0_000_0_000_000000000000#32 = .ok (.dblaff 1 0) ∧
    decodeWord 0b01000010_0_001_0_000_0_000_000000000000#32 = .ok (.dblj 1 0) ∧
    decodeWord 0b01000011_0_010_0_001_0_000_000000000000#32 = .ok (.addja 2 1 0) ∧
    decodeWord 0x43112000#32 = .ok (.addja 1 1 2) := ⟨rfl, rfl, rfl, rfl, rfl⟩

/-- VE21 to VE24, with SMULBIT A5, F0 of program P3. -/
theorem test_decode_scalar :
    decodeWord 0b01010000_0_000_0_000_0_001_000000000000#32 = .ok (.smulltr 0 0 1) ∧
    decodeWord 0b01010001_0_000_0_000_0_001_000000000000#32 = .ok (.smulrtl 0 0 1) ∧
    decodeWord 0b01010010_0_111_0_011_0_000_000000000000#32 = .ok (.smulwin 7 3) ∧
    decodeWord 0b01010011_0_101_0_000_0_000_000000000000#32 = .ok (.smulbit 5 0) := ⟨rfl, rfl, rfl, rfl⟩

/-- VE30 to VE33: no such opcode. -/
theorem test_decode_unknown_opcode :
    ∀ w ∈ [0x00000000#32, 0xFF000000#32, 0x14000000#32, 0x2A100000#32], decodeWord w = .error .unknownOpcode := by
  simp only [List.forall_mem_cons]
  exact ⟨rfl, rfl, rfl, rfl, by simp⟩

/-- VE34 to VE42: a must-be-zero bit is 1. -/
theorem test_decode_must_be_zero :
    ∀ w ∈ [0x12812000#32, 0x12092000#32, 0x1201A000#32, 0x12012001#32, 0x12012800#32, 0x11001000#32, 0x10112000#32,
      0x52731000#32, 0x29107000#32], decodeWord w = .error .mustBeZero := by
  simp only [List.forall_mem_cons]
  exact ⟨rfl, rfl, rfl, rfl, rfl, rfl, rfl, rfl, rfl, by simp⟩

/-- The other direction: the assembler's text and the words of VE8 and VE23. -/
theorem test_encode :
    encode (.mulfullps 3 0 7) = 0x23307000#32 ∧ encode (.smulwin 7 3) = 0x52730000#32 ∧ encode (.cmp 1 2) = 0x10012000#32 ∧
      (Instr.smulwin 7 3).asm = "SMULWIN A7, F3" := by decide

/-! ## The fixed-width core -/

/-- VF5: unsigned, C kept. -/
theorem test_cmp_keeps_C :
    (after (.cmp 0 1) { withF pWord (BitVec.allOnes 256) with flags := ⟨true, false, false, false⟩ }).flags.word = 0x5 := by
  decide +kernel

/-- VF6: limb 1 outranks limb 0. -/
theorem test_cmp_limb_order : (after (.cmp 0 1) (withF (BitVec.ofNat 256 (2 ^ 32)) 0xFFFFFFFF#256)).flags.word = 0x8 := by
  decide +kernel

/-- VF8. -/
theorem test_shr1_carry : (after (.shr1 0 1) (withF 0 vb)).readF 0 =
      0x7FFFFFFF800000007FFFFFFFFFFFFFFF8000000000000000000000006F56DF77#256 ∧
    (after (.shr1 0 1) (withF 0 vb)).flags.word = 0x1 := by decide +kernel

/-- VF13: bit 0 of limb 1 moves to bit 31 of limb 0; destination equal to source. -/
theorem test_shr1_across_limbs : (after (.shr1 0 0) (withF (BitVec.ofNat 256 (2 ^ 32)) 0)).readF 0 = BitVec.ofNat 256 (2 ^ 31) := by
  decide +kernel

/-- VF15. -/
theorem test_add : (after (.add 0 0 1) (withF va vb)).readF 0 =
      0x112233435566778999AABBCCDDEEFEFF0123456789ABCDEFFEDCBA995501F0FF#256 ∧
    (after (.add 0 0 1) (withF va vb)).flags.c = true := by decide +kernel

/-- VF20: the carry ripples; the old C is no input. -/
theorem test_add_ripple :
    (after (.add 0 0 1) { withF 0xFFFFFFFF#256 1 with flags := ⟨true, false, false, false⟩ }).readF 0 = BitVec.ofNat 256 (2 ^ 32) ∧
    (after (.add 0 0 1) { withF 0xFFFFFFFF#256 1 with flags := ⟨true, false, false, false⟩ }).flags.c = false := by
  decide +kernel

/-- VF21: first source minus second. -/
theorem test_sub : (after (.sub 2 0 1) (withF va vb)).readF 2 =
      0x112233455566778799AABBCCDDEEFF010123456789ABCDEFFEDCBA9797A67321#256 ∧
    (after (.sub 2 0 1) (withF va vb)).flags.c = true := by decide +kernel

/-- VF23. -/
theorem test_sub_borrow : (after (.sub 0 0 1) (withF 0 1)).readF 0 = BitVec.allOnes 256 := by decide +kernel

/-! ## The modular engine -/

/-- VM1: the raw sum carries out. -/
theorem test_addmod : (after (.addmod 2 0 1) (withF va vb)).readF 2 =
    0x112233445566778899AABBCCDDEEFEFF0123456689ABCDEFFEDCBA995501F100#256 := by decide +kernel

/-- VM5: a sum of exactly p. -/
theorem test_addmod_p : (after (.addmod 2 0 1) (withF (pWord - 1) 1)).readF 2 = 0 := by decide +kernel

/-- VM10: a borrow. -/
theorem test_submod : (after (.submod 2 0 1) (withF va vb)).readF 2 =
    0x112233445566778899AABBCCDDEEFF010123456889ABCDEFFEDCBA9797A67320#256 := by decide +kernel

/-- VM11: no borrow. -/
theorem test_submod_no_borrow : (after (.submod 2 1 0) (withF va vb)).readF 2 =
    0xEEDDCCBAAA99887866554433221100FEFEDCBA98765432100123456868598CDF#256 := by decide +kernel

/-- VM15: a·b. -/
theorem test_mulfull : (after (.mulfull 0 0 1) (withF va vb)).readW 0 =
    0x11223344444444445566778899AABABBABBCCEF011110FFFDCA97643321B8FC0CF9C6935F09B45F0C0D1E206710B3ACEEDCBA9875470073112345678AA929CF0#512 := by
  decide +kernel

/-- VM18: the largest product. -/
theorem test_mulfullps : (after (.mulfullps 3 0 1) (withF (BitVec.allOnes 256) (BitVec.allOnes 256))).readW 3 =
    BitVec.ofNat 512 (2 ^ 512 - 2 ^ 257 + 1) := by decide +kernel

/-- VM17: a·a. -/
theorem test_sqrfull : (after (.sqrfull 0 0) (withF va 0)).readW 0 =
    0x01258F60BBC2975C333EA07AF0223320EB978B2CE3142680860E6EFD0DF8310EA38A828BA5D10D83FF021E425D5E33A6422871B7939F74ACDEEC6CD7A44A4100#512 := by
  decide +kernel

/-- A product of two field elements is in FRED's domain, so its value is `fred` of it whatever the free guard says. -/
theorem fred_of_product (x y : U256) (hx : x.toNat < Config.p) (hy : y.toNat < Config.p) :
    (after (.fred 0 0) (blank.writeW 0 (mulfull x y))).readF 0 = fred (mulfull x y) := by
  have h : ((blank.writeW 0 (mulfull x y)).readW 0) = mulfull x y := by simp
  rw [after, exec_fred, h, Sys2Proof.Laws.fredResult_inDomain _ ⟨x.toNat, y.toNat, hx, hy, Sys2Proof.Laws.mulfull_toNat x y⟩]
  simp [State.completeF, State.complete]

/-- VM22. -/
theorem test_fred : (after (.fred 0 0) (blank.writeW 0 (mulfull va vb))).readF 0 = vab := by
  rw [fred_of_product va vb (by decide) (by decide)]; decide +kernel

/-- VM9: (p - 1)² gives 1, not p + 1. -/
theorem test_fred_largest : (after (.fred 0 0) (blank.writeW 0 (mulfull (pWord - 1) (pWord - 1)))).readF 0 = 1 := by
  rw [fred_of_product (pWord - 1) (pWord - 1) (by decide) (by decide)]; decide +kernel

/-- VN3. -/
theorem test_montred : (after (.montred 0 0) (blank.writeW 0 (mulfull va vb))).readF 0 =
    0xCB9FE749BD52B996F199EB6E3B348C23D61D6D580AE016076658355A342BC6A0#256 := by decide +kernel

/-- VN8: the largest value in domain. -/
theorem test_montred_largest : (after (.montred 0 0) (blank.writeW 0 (BitVec.ofNat 512 (Config.p * 2 ^ 256 - 1)))).readF 0 =
    0x00000000FFFFFFFD00000002FFFFFFFDFFFFFFFF00000001FFFFFFFCFFFFFFFF#256 := by decide +kernel

/-- VN9. -/
theorem test_mulmod : (after (.mulmod 2 0 1) (withF va vb)).readF 2 = vab := by decide +kernel

/-- VN11. -/
theorem test_mulmod_minus_one : (after (.mulmod 2 0 1) (withF (pWord - 1) (pWord - 1))).readF 2 = 1 := by decide +kernel

/-- VN12: a·a mod p. -/
theorem test_sqrmod : (after (.sqrmod 1 0) (withF va 0)).readF 1 =
    0xC2E6DC727A9BF2CA0F7E6BA3F6BFDCBC97AE5F6272245F2267C607FC6D95EAE6#256 := by decide +kernel

/-- VN14. -/
theorem test_inv : (after (.inv 1 0) (withF va 0)).readF 1 =
    0xEE0B4F15534704F279C90ADEAA8E9E484DD345BF041EA81E914F92A941A93885#256 := by decide +kernel

/-- VN21: INV of 0 never completes, F1 is not written. -/
theorem test_inv_zero : exec (.inv 1 0) (withF 0 7) = .next (withF 0 7) := by
  rw [exec_inv, Sys2Proof.Laws.invResult_never (Or.inl (by decide +kernel))]; rfl

/-! ## Points -/

/-- VC1. -/
theorem test_a2j : (after (.a2j 0 0) (withA baseG .inf)).readJ 0 =
    .point (BitVec.ofNat 256 Config.gx) (BitVec.ofNat 256 Config.gy) 1 := by decide +kernel

/-- VC2. -/
theorem test_a2j_infinity : (after (.a2j 0 0) (withA .inf baseG)).readJ 0 = .inf := by decide +kernel

/-- VC4. -/
theorem test_j2a : (after (.j2a 0 1) (withJ vJq .inf)).readA 0 = baseG := by decide +kernel

/-- VC7: Z = 0 with inf = 0 never completes. -/
theorem test_j2a_z_zero : exec (.j2a 0 1) (withJ (.point 1 1 0) .inf) = .next (withJ (.point 1 1 0) .inf) := rfl

/-- VG1. -/
theorem test_addaff : (after (.addaff 2 0 1) (withA baseG v2G)).readA 2 = v3G := by decide +kernel

/-- VG4: G and -G. -/
theorem test_addaff_opposite : (after (.addaff 2 0 1) (withA baseG vNegG)).readA 2 = .inf := by decide +kernel

/-- VG2. -/
theorem test_dblaff : (after (.dblaff 1 0) (withA baseG .inf)).readA 1 = v2G := by decide +kernel

/-- VG13a: y = 0, off the curve. -/
theorem test_dblaff_y_zero : (after (.dblaff 1 0) (withA (.point 5 0) .inf)).readA 1 = .inf := by decide +kernel

/-- VG11: the very triple, not only the point. -/
theorem test_dblj : (after (.dblj 0 1) (withJ vJq .inf)).readJ 0 = vJq2 := by decide +kernel

/-- VG13. -/
theorem test_dblj_y_zero : (after (.dblj 0 1) (withJ (.point 1 0 1) .inf)).readJ 0 = .inf := by decide +kernel

/-- VG15: the generic case with Z1 not 1. -/
theorem test_addja : (after (.addja 2 1 0) (withJ vJq v2G)).readJ 2 =
    .point 0x1D91F7E7C4FBAC8458E6A1947FCB4FDE8231492AC60EA02CD278C25D19DE09AC#256
      0x149CDD71282332A85134EDAA11B9E1ED3DDFB7999D15BF039706D086471C9991#256
      0x8ED5492D5EB869B48CAA88ED0886CE8A4C2F630A50373CA58B507DB3766EB710#256 := by decide +kernel

/-- VG18 and VG19: cases 3 and 4. -/
theorem test_addja_edges : (after (.addja 2 1 0) (withJ vJq baseG)).readJ 2 = vJq2 ∧
    (after (.addja 2 1 0) (withJ vJq vNegG)).readJ 2 = .inf := by decide +kernel

/-! ## Scalar multiplication -/

/-- VS5a. -/
theorem test_smulltr : (after (.smulltr 0 0 1) ((withA .inf baseG).writeF 0 5)).readA 0 = v5G := by decide +kernel

/-- VS6: n times G; the last addition meets case 4 of ADDJA. -/
theorem test_smulltr_order : (after (.smulltr 0 0 1) ((withA .inf baseG).writeF 0 (BitVec.ofNat 256 Config.n))).readA 0 = .inf := by
  decide +kernel

/-- VS16: the base at infinity. -/
theorem test_smulrtl_infinity : (after (.smulrtl 0 0 1) ((withA baseG .inf).writeF 0 7)).readA 0 = .inf := by decide +kernel

/-- VS5a, the three iterations that add (all 256 doublings of the running value are slow to check). -/
theorem test_smulrtl_loop : (rtlLoop 5 3 0 .inf baseG).bind j2a = some v5G := by decide +kernel

/-- VS5a. -/
theorem test_smulwin : (after (.smulwin 0 0) (withF 5 0)).readA 0 = v5G := by decide +kernel

/-- VS5a, the three iterations that add. -/
theorem test_smulbit_loop : (bitLoop 5 3 0 .inf).bind j2a = some v5G := by decide +kernel

/-- R33, R34: the first entries of the two tables. -/
theorem test_tables : windowTableLTR[0]? = some .inf ∧ windowTableLTR[3]? = some v3G ∧ bitTableRTL[0]? = some baseG ∧
    bitTableRTL[1]? = some v2G := by decide +kernel

/-! ## The command interface and the window -/

/-- VX1, VX2. -/
theorem test_accept_then_complete :
    (blank.memWrite 0x004 0x11000000).statusWord = 0x01 ∧ (blank.memWrite 0x004 0x11000000).cmd = 0x11000000 ∧
    (runTo 1 busy).statusWord = 0x02 := by decide +kernel

/-- VX5, VX6, VX7: errors 2 and 3 while a command runs. -/
theorem test_errors_while_busy :
    (busy.memWrite 0x004 0x12012000).statusWord = 0x25 ∧ (busy.memWrite 0x004 0x12012000).errinfo = 0x12012000 ∧
    (busy.memWrite 0x004 0).statusWord = 0x25 ∧ (busy.memWrite 0x004 0).errinfo = 0 ∧
    (busy.memWrite 0x224 7).statusWord = 0x35 ∧ (busy.memWrite 0x224 7).errinfo = 0x224 ∧
    (busy.memWrite 0x224 7).readF 1 = 0 := by decide +kernel

/-- VX14, VX15: error 1 keeps DONE; a command is accepted while ERR = 1. -/
theorem test_illegal_word :
    ({ blank with done := true }.memWrite 0x004 0x12812000).statusWord = 0x16 ∧
    (({ blank with done := true }.memWrite 0x004 0x12812000).memWrite 0x004 0x11000000).statusWord = 0x15 := by
  decide +kernel

/-- VX12, VX13, VX19, VX23: acknowledge, and CTRL. -/
theorem test_acknowledge :
    (({ blank with done := true }.raise 2 5).memWrite 0x008 0xFFFFFFF9).statusWord = 0x26 ∧
    (({ blank with done := true }.raise 2 5).memWrite 0x008 0x6).statusWord = 0x00 ∧
    ({ blank with done := true }.memWrite 0x00C 1).irq = true ∧
    ({ blank with ie := true }.memWrite 0x00C 0x7FFFFFFE).ctrlWord = 0 := by decide +kernel

/-- P1, line 1 and a RUN with two polls before the unit's turn: the program goes on. R99: with an error latched, or on an idle
unit that has nothing done, a WAIT ends the run. -/
theorem test_run_and_wait :
    (match Session.run [.host, .host, .host, .unit, .host] { ops := (Pseudo.run (.shr1 0 0)).expand, stopped := false, unit := withF 3 0 } with
      | .next x => x.ops.isEmpty && !x.stopped && x.unit.readF 0 == 1 && x.unit.statusWord == 0x02
      | _ => false) = true ∧
    (match Session.hostMove { ops := [.wait], stopped := false, unit := { blank with done := true }.raise 1 0 } with
      | .next x => x.stopped
      | _ => false) = true ∧
    (match Session.run [.host, .host] { ops := [.wait], stopped := false, unit := busy } with
      | .next x => x.ops == [.wait] && !x.stopped
      | _ => false) = true := by decide +kernel

/-- VX18: constants and control registers read true while BUSY. -/
theorem test_read_while_busy : (busy.memRead 0x100).1 = 0xFFFFFFFF ∧ (busy.memRead 0x000).1 = 0xECC25601 ∧
    (busy.memRead 0x008).1 = 1 := by decide +kernel

/-- VW2, VW3, VW7: limbs of the constants. -/
theorem test_constants : (blank.memRead 0x118).1 = 1 ∧ (blank.memRead 0x10C).1 = 0 ∧ (blank.memRead 0x120).1 = 0xD898C296 ∧
    (blank.memRead 0x1BC).1 = 4 ∧ (blank.memRead 0x17C).1 = 0xFFFFFFFF := by decide +kernel

/-- VW9, VW10: byte order, and the last W word. -/
theorem test_limb_order : ((blank.writeF 1 va).memRead 0x220).1 = 0x76543210 ∧ ((blank.writeF 1 va).memRead 0x23C).1 = 0x11223344 ∧
    ((blank.memWrite 0x5FC 0xDEADBEEF).memRead 0x5FC).1 = 0xDEADBEEF := by decide +kernel

/-- VW11 to VW14: INF words and unmapped words. -/
theorem test_inf_words : ((blank.memWrite 0x840 0xFFFFFFFF).memRead 0x840).1 = 1 ∧ ((blank.memWrite 0x844 5).memRead 0x844).1 = 0 ∧
    ((blank.memWrite 0xFE0 1).memRead 0xFE0).1 = 1 ∧ (blank.memRead 0x7FC).1 = 0 ∧ (blank.memRead 0xFE4).1 = 0 := by
  decide +kernel

/-- VW18: soft reset; the IE of the same write is discarded. -/
theorem test_soft_reset :
    ({ busy with ie := true, done := true, flags := ⟨true, false, true, false⟩ }.memWrite 0x00C 0x80000001).statusWord = 0 ∧
    ({ busy with ie := true, flags := ⟨true, false, true, false⟩ }.memWrite 0x00C 0x80000001).ctrlWord = 0 ∧
    ({ busy with ie := true, flags := ⟨true, false, true, false⟩ }.memWrite 0x00C 0x80000001).flags.word = 0 ∧
    ({ busy with ie := true, flags := ⟨true, false, true, false⟩ }.memWrite 0x00C 0x80000001).cmd = 0 := by decide +kernel

/-! ## Witnesses: states and operands that meet the hypotheses of the statements, every clause at its boundary values

A statement without hypotheses (17, 18, 29, 31, 34 to 37, 39, 40) needs none. -/

/-- SHR1 F0, F0 running with these events still to come. -/
def busyWith (es : List HostEvent) : State := { busy with pending := es }

/-- INV F1, F0 running on this operand. -/
def invRunning (x : U256) : State := { (withF x 0).accept 0x29100000 with pending := [.unitTurn, .read 0x008 4, .unitTurn] }

/-- Statement 2. -/
theorem witness_DecodeAndEncodeAgree : (Instr.add 7 0 7).wellFormed = true ∧ decodeWord 0x12707000#32 = .ok (.add 7 0 7) :=
  ⟨rfl, rfl⟩

/-- Statement 4: no such opcode; and for each format a word that fails the test and one that passes. -/
theorem witness_DecodeFollowsProcedure :
    ((0x0F000000#32).extractLsb' 24 8).toNat ∉ opcodeRows.map Prod.fst ∧
    ((0x14000000#32).extractLsb' 24 8).toNat ∉ opcodeRows.map Prod.fst ∧
    (∀ c ∈ [(0x12000FFF#32, 0x12777000#32, Format.r3), (0x53708000#32, 0x53770000#32, Format.r2),
      (0x10777000#32, 0x10077000#32, Format.c2)],
      ((c.1.extractLsb' 24 8).toNat, c.2.2) ∈ opcodeRows ∧ ((c.2.1.extractLsb' 24 8).toNat, c.2.2) ∈ opcodeRows ∧
      c.1 &&& c.2.2.mask ≠ BitVec.ofNat 32 ((c.1.extractLsb' 24 8).toNat * 2 ^ 24) ∧
      c.2.1 &&& c.2.2.mask = BitVec.ofNat 32 ((c.2.1.extractLsb' 24 8).toNat * 2 ^ 24)) := by decide

/-- Statement 5. -/
theorem witness_IllegalWordsLatchErrorOne : blank.busy = false ∧ decodeWord 0x0FFFFFFF#32 = .error .unknownOpcode ∧
    decodeWord 0x53008000#32 = .error .mustBeZero ∧ (0x53, Format.r2) ∈ opcodeRows ∧
    ((0x0FFFFFFF#32).extractLsb' 24 8).toNat ∉ opcodeRows.map Prod.fst ∧ ((0x53001000#32).extractLsb' 24 8).toNat = 0x53 ∧
    0x53001000#32 &&& Format.mask .r2 &&& 0x00FFFFFF#32 ≠ 0 := ⟨rfl, rfl, rfl, by decide, by decide, by decide, by decide⟩

/-- Statement 6: busy; idle with an illegal word; idle with a legal word. -/
theorem witness_OfferedCommandAcceptedOrDropped : busy.busy = true ∧ blank.busy = false ∧ (∃ r, decodeWord 0x14000000#32 = .error r) ∧
    ∃ i, decodeWord 0x53770000#32 = .ok i := ⟨rfl, rfl, ⟨_, rfl⟩, _, rfl⟩

/-- Statement 7: nothing pending, and the unit next. -/
theorem witness_StepRunsLatchedCommand : busy.latch = some 0x11000000#32 ∧ decodeWord 0x11000000#32 = .ok (.shr1 0 0) ∧
    busy.pending = [] ∧ (busyWith [.unitTurn, .hwReset]).pending = .unitTurn :: [.hwReset] := ⟨rfl, rfl, rfl, rfl⟩

/-- Statement 8. -/
theorem witness_OfferedWordRuns : blank.busy = false ∧ decodeWord 0x11000000#32 = .ok (.shr1 0 0) ∧
    { blank with pending := [.write 0x004 4 0x11000000, .unitTurn] }.pending = .write 0x004 4 0x11000000 :: .unitTurn :: [] :=
  ⟨rfl, rfl, rfl⟩

/-- Statement 9: the last opcode of the table, and bits above `nbits` that are cut off. -/
theorem witness_FetchWordRunsNext : decodeTableWord 32 0x53770000 = some (.smulbit 7 7) ∧
    decodeTableWord 32 0x111000000 = some (.shr1 0 0) := ⟨rfl, rfl⟩

/-- Statement 10: no error latched and one latched, idle, with a legal word. -/
theorem witness_FirstErrorLatchedLaterLost : blank.err = false ∧ (blank.raise 1 5).err = true ∧ blank.busy = false ∧
    decodeWord 0x11000000#32 = .ok (.shr1 0 0) ∧ errorCause (blank.raise 1 5) (.write 0x004 4 0) = some (1, 0) ∧
    ∃ t, handleEvent (.write 0x004 4 0) (blank.raise 1 5) = .next t := ⟨rfl, rfl, rfl, rfl, by decide, _, rfl⟩

/-- Statement 11: the three causes at the first and last data word, and an event without a cause. -/
theorem witness_OnlyThreeErrorCauses :
    errorCause blank (.write 0x004 4 0) = some (1, 0) ∧ errorCause busy (.write 0x004 4 0) = some (2, 0) ∧
    errorCause busy (.write 0x200 4 0) = some (3, 0x200) ∧ errorCause busy (.write 0xFE0 4 0) = some (3, 0xFE0) ∧
    errorCause busy (.write 0x1FC 4 0) = none ∧ errorCause busy (.write 0xFE4 4 0) = none ∧ busy.err = false ∧
    (∀ e ∈ [HostEvent.write 0x004 4 0, .write 0x200 4 0, .write 0xFE0 4 0, .write 0x1FC 4 0, .write 0xFE4 4 0],
      ∃ t, handleEvent e busy = .next t) ∧ ∃ t, handleEvent (.write 0x004 4 0) blank = .next t := by
  refine ⟨by decide, by decide, by decide, by decide, by decide, by decide, rfl, ?_, _, rfl⟩
  simp only [List.forall_mem_cons]
  exact ⟨⟨_, rfl⟩, ⟨_, rfl⟩, ⟨_, rfl⟩, ⟨_, rfl⟩, ⟨_, rfl⟩, by simp⟩

/-- Statement 12: reads, dropped writes, a dropped command, an acknowledgement. -/
theorem witness_RunningCommandUndisturbed :
    let s := busyWith [.read 0x200 4, .write 0x200 4 9, .write 0x004 4 0x12012000, .write 0x008 4 6, .unitTurn]
    s.busy = true ∧ 4 ≤ s.pending.length ∧ ∀ e ∈ s.pending.take 4, e.isAccess = true ∧ e.wellFormed = true ∧ e.resets = false := by
  decide

/-- Statement 13: a completion, a second error and an acknowledgement of DONE, and three steps. -/
theorem witness_FirstErrorKept :
    let s := { (busy.raise 2 5) with pending := [.write 0x200 4 9, .unitTurn, .write 0x008 4 2] }
    s.err = true ∧ (∀ e ∈ s.pending.take 3, e.resets = false ∧ e.clearsError = false) ∧ ∃ t, Runs 3 s t :=
  ⟨rfl, by decide, _, rfl⟩

/-- Statement 14. -/
theorem witness_CompletionChangesOnlyItsDestination : blank.latch = none := rfl

/-- Statement 15: INV of 0 and of p. -/
theorem witness_InverseOfZeroNeverCompletes :
    (invRunning 0).latch = some 0x29100000#32 ∧ decodeWord 0x29100000#32 = .ok (.inv 1 0) ∧ (invRunning 0).readF 0 = 0 ∧
    ((invRunning pWord).readF 0).toNat = Config.p ∧ (invRunning 0).done = false ∧
    ∀ e ∈ (invRunning 0).pending.take 3, e.wellFormed = true ∧ e.resets = false :=
  ⟨rfl, rfl, by decide +kernel, by decide +kernel, rfl, by decide⟩

/-- Statement 15, second clause: a turn that does not complete the command. -/
theorem witness_HungCommand : exec (.inv 1 0) (invRunning 0) = .next (invRunning 0) := by
  rw [exec_inv, Sys2Proof.Laws.invResult_never (Or.inl (by decide +kernel))]; rfl

/-- Statement 16. -/
theorem witness_ResetLeavesControlRegisters : (0x80000001#32).getLsbD 31 = true := by decide

/-- Statement 19: bit 31 set, and not. -/
theorem witness_CtrlHoldsIeAndResets : (0x80000001#32).getLsbD 31 = true ∧ (0x7FFFFFFF#32).getLsbD 31 = false := by decide

/-- Statement 20: each command that writes a flag, and a reset. -/
theorem witness_FlagsChangeOnlyAtNamedCompletions :
    (∀ w ∈ [0x10011000#32, 0x11000000#32, 0x12001000#32, 0x13101000#32],
      ∃ t, step { withF (BitVec.allOnes 256) 1 with latch := some w, flags := ⟨w == 0x13101000#32, false, true, false⟩ } = .next t ∧
        t.flags ≠ ⟨w == 0x13101000#32, false, true, false⟩) ∧
    ∃ t, step { blank with flags := ⟨true, false, true, false⟩, pending := [.hwReset] } = .next t ∧
      t.flags ≠ ⟨true, false, true, false⟩ := by
  simp only [List.forall_mem_cons]
  exact ⟨⟨⟨_, rfl, by decide +kernel⟩, ⟨_, rfl, by decide +kernel⟩, ⟨_, rfl, by decide +kernel⟩, ⟨_, rfl, by decide +kernel⟩, by simp⟩,
    _, rfl, by decide⟩

/-- Statement 21. -/
theorem witness_IrqFollowsIeDoneErr : { blank with ie := true, done := true }.irq = true ∧ (0x7FFFFFFE#32).getLsbD 31 = false ∧
    (0x7FFFFFFE#32).getLsbD 0 = false ∧ blank.busy = false ∧ decodeWord 0x11000000#32 = .ok (.shr1 0 0) :=
  ⟨rfl, by decide, by decide, rfl, rfl⟩

/-- Statement 22: the ends of the unmapped ranges, and the mapped words beside them. -/
theorem witness_WindowMapPlacesEveryWord :
    (∀ k ∈ [0x018, 0x0FC, 0x1C0, 0x1FC, 0x300, 0x3FC, 0x600, 0x7FC, 0x844, 0x87C, 0xBC4,
      0xBFC, 0xC64, 0xC7C, 0xFE4, 0xFFC], (BitVec.ofNat 12 k).toNat % 4 = 0 ∧ slotAt (BitVec.ofNat 12 k) = .unmapped) ∧
    slotAt 0x014 = .errinfo ∧ slotAt 0x100 = .const .p 0 ∧ slotAt 0x1BC = .const .r2modp 7 ∧ slotAt 0x200 = .f 0 0 ∧
    slotAt 0x2FC = .f 7 7 ∧ slotAt 0x400 = .w 0 0 ∧ slotAt 0x5FC = .w 7 15 ∧ slotAt 0x800 = .ax 0 0 ∧ slotAt 0x840 = .ainf 0 ∧
    slotAt 0x880 = .ax 1 0 ∧ slotAt 0xBC0 = .ainf 7 ∧ slotAt 0xC00 = .jx 0 0 ∧ slotAt 0xC5C = .jz 0 7 ∧ slotAt 0xFE0 = .jinf 7 := by
  decide

/-- Statement 23: an access it refuses, and for each kind of word an access it performs, idle and busy. -/
theorem witness_AccessPrimitivesAnswerAndStore : ¬(4 = 4 ∧ (0x201#12).toNat % 4 = 0) ∧ ¬(2 = 4 ∧ (0x200#12).toNat % 4 = 0) ∧
    (0xFFC#12).toNat % 4 = 0 ∧ slotAt 0xFFC = .unmapped ∧ (slotAt 0x014).isData = false ∧ slotAt 0x000 = .id ∧ slotAt 0x010 = .flags ∧
    slotAt 0x1BC = .const .r2modp 7 ∧ (slotAt 0x200).isData = true ∧ (slotAt 0xFE0).isData = true ∧ blank.busy = false ∧
    busy.busy = true ∧ blank.err = false := by decide

/-- Statement 24. -/
theorem witness_RegisterWordsReadAndWritten : blank.busy = false := rfl

/-- Statement 28: two different busy states that agree on the counter. -/
theorem witness_BusyReadsTellNothing : busy.busy = true ∧ (slotAt 0x000).isData = false ∧
    (slotAt 0x200).isData = true ∧ (slotAt 0xFE0).isData = true ∧ (busy.writeF 0 7).busy = true ∧ (busy.writeF 0 7).portDraws = busy.portDraws ∧
    busy.writeF 0 7 ≠ busy := by decide +kernel

/-- Statement 25: idle, and a byte at either end of the window. -/
theorem witness_RegistersAreLittleEndian : blank.busy = false ∧ (blank.writeF 0 va).windowByte 0x200 = 0x10 ∧
    (blank.writeF 0 va).windowByte 0x21F = 0x11 ∧ blank.windowByte 0xFFF = 0 := by decide +kernel

/-- Statement 26. -/
theorem witness_UnmappedAndReadOnlyIgnoreWrites : slotAt 0x018 = .unmapped ∧ slotAt 0xFFC = .unmapped ∧ slotAt 0x000 = .id ∧
    slotAt 0x010 = .flags ∧ slotAt 0x014 = .errinfo ∧ slotAt 0x1BC = .const .r2modp 7 ∧ (0xFFFFFFF9#32).getLsbD 1 = false ∧
    (0xFFFFFFF9#32).getLsbD 2 = false ∧ (0x7FFFFFFE#32).getLsbD 31 = false ∧ (0x7FFFFFFE#32).getLsbD 0 = blank.ie := by decide

/-- Statement 27. -/
theorem witness_ConstantsAlwaysReadTrue : (0x100, Config.p) ∈ [(0x100, Config.p), (0x1A0, Config.r2modp)] ∧
    (0x1A0, Config.r2modp) ∈ [(0x100, Config.p), (0x1A0, Config.r2modp)] := by decide

/-- Statement 30: idle, each list pending. -/
theorem witness_PseudoInstructionsWrite : blank.busy = false ∧
    ∀ es ∈ [wrf 0 va, wrw 7 (mulfull va vb), wra 0 va vb, wrainf 7, wrj 7 va vb 1, wrjinf 0, ldg 7],
      { blank with pending := es }.pending = es ++ [] := ⟨rfl, by intro es _; simp⟩

/-- Statement 30: the three ways a poll can find the unit, and an idle unit without an error whose command completes. -/
theorem witness_PseudoInstructionsWrite_wait : busy.busy = true ∧ (blank.busy = false ∧ blank.err = false ∧ blank.done = false) ∧
    { blank with done := true }.done = true ∧ (blank.raise 1 0).err = true ∧ Completed (after (.shr1 0 0) blank) :=
  ⟨rfl, ⟨rfl, rfl, rfl⟩, rfl, rfl, rfl, rfl⟩

/-- An idle and a busy state with the invariant. -/
theorem inv_blank_busy : Inv blank ∧ Inv (busyWith [.read 0x201 4]) := by
  refine ⟨⟨fun _ => ⟨rfl, rfl⟩, (nomatch ·), fun _ h => (nomatch h), .inl rfl, by decide⟩,
    ⟨fun _ => ⟨rfl, rfl⟩, (nomatch ·), ?_, .inr ⟨_, rfl⟩, by decide⟩⟩
  intro w h
  cases h
  exact ⟨rfl, ⟨_, rfl⟩, rfl⟩

/-- Statement 32. -/
theorem witness_StepKeepsInvariant : Inv blank ∧ ∃ t, step blank = .next t := ⟨inv_blank_busy.1, _, rfl⟩

/-- Statement 33: a refused access meets it. -/
theorem witness_StepsOnlyRefuseIllFormedAccesses : Inv (busyWith [.read 0x201 4]) ∧
    step (busyWith [.read 0x201 4]) = .refused .accessNotExpressible := ⟨inv_blank_busy.2, rfl⟩

/-- Statement 38: field elements up to p - 1, read back from registers. -/
theorem witness_AddmodSubmodGiveResidues : ((withF (pWord - 1) 0).readF 0).toNat < Config.p ∧ ((withF (pWord - 1) 0).readF 1).toNat < Config.p ∧
    (pWord - 1) ≠ 0 := by decide +kernel

/-- Statement 44. -/
theorem witness_MulmodSqrmodGiveProducts : ((withF (pWord - 1) 0).readF 0).toNat < Config.p ∧
    ((withF (pWord - 1) 0).readF 1).toNat < Config.p := ⟨witness_AddmodSubmodGiveResidues.1, witness_AddmodSubmodGiveResidues.2.1⟩

/-- Statement 47. -/
theorem witness_FieldIdentitiesHold : (pWord - 1).toNat < Config.p ∧ (0 : U256).toNat < Config.p ∧ pWord - 1 ≠ 0 := by decide

/-- Statement 41: 0 and the largest product. -/
theorem witness_FredReducesProducts :
    (∃ x y, x < Config.p ∧ y < Config.p ∧ (blank.readW 0).toNat = x * y) ∧
    ∃ x y, x < Config.p ∧ y < Config.p ∧ ((blank.writeW 0 (mulfull (pWord - 1) (pWord - 1))).readW 0).toNat = x * y :=
  ⟨⟨0, 0, by decide, by decide, by decide +kernel⟩, Config.p - 1, Config.p - 1, by decide, by decide, by decide +kernel⟩

/-- Statement 42: 0 and the largest value. -/
theorem witness_NinePartialValuesCongruent : (0 : U512).toNat < 2 ^ 512 ∧ (BitVec.allOnes 512).toNat < 2 ^ 512 :=
  by decide +kernel

/-- Statement 43: 0 and the largest value in domain. -/
theorem witness_MontredDividesByR : (blank.readW 0).toNat < Config.p * 2 ^ 256 ∧
    ((blank.writeW 0 (BitVec.ofNat 512 (Config.p * 2 ^ 256 - 1))).readW 0).toNat < Config.p * 2 ^ 256 := by decide +kernel

/-- Statement 45: the ends of the range, one odd and one even residue. -/
theorem witness_HalfHalvesResidues : (0 : U256).toNat < Config.p ∧ (1 : U256).toNat < Config.p ∧ (pWord - 1).toNat < Config.p ∧
    (pWord - 2).toNat < Config.p := by decide

/-- Statement 46: 1 and p - 1 in domain; 0 and p; p + 1 and 2^256 - 1. -/
theorem witness_InvGivesUniqueInverse : (∀ k ∈ [1, Config.p - 1], 0 < ((withF (BitVec.ofNat 256 k) 0).readF 0).toNat ∧
      ((withF (BitVec.ofNat 256 k) 0).readF 0).toNat < Config.p) ∧
    ((withF 0 0).readF 0).toNat = 0 ∧ ((withF pWord 0).readF 0).toNat = Config.p ∧
    ∀ k ∈ [Config.p + 1, 2 ^ 256 - 1], Config.p < ((withF (BitVec.ofNat 256 k) 0).readF 0).toNat := by decide +kernel

/-- Statement 48: a finite point and infinity. -/
theorem witness_A2jLiftsPoint : ((withA baseG .inf).a.get 0).inf = false ∧ ((withA baseG .inf).a.get 1).inf = true := by
  decide +kernel

/-- Statement 49: infinity, a triple in domain, Z = 0, and a factor. -/
theorem witness_J2aGivesAffinePoint :
    (withJ .inf .inf).readJ 1 = .inf ∧ ((withJ .inf .inf).readJ 1).inDomain = true ∧
    (withJ vJq .inf).readJ 1 = vJq ∧ vJq.inDomain = true ∧ (withJ (.point 1 1 0) .inf).readJ 1 = .point 1 1 0 ∧
    (pWord - 1).toNat < Config.p ∧ pWord - 1 ≠ 0 := by decide +kernel

/-- Statement 50: infinity on either side, equal points, opposite points, different abscissas. -/
theorem witness_AddaffFollowsCases :
    (∀ c ∈ [(AffineValue.inf, baseG), (baseG, AffineValue.inf), (baseG, baseG), (baseG, vNegG), (baseG, v2G)],
      (withA c.1 c.2).readA 0 = c.1 ∧ (withA c.1 c.2).readA 1 = c.2 ∧ c.1.inDomain = true ∧ c.2.inDomain = true) := by decide +kernel

/-- Statement 51: infinity, y = 0, y not 0. -/
theorem witness_DblaffFollowsTangent : ∀ q ∈ [AffineValue.inf, .point 5 0, baseG], (withA q .inf).readA 0 = q ∧ q.inDomain = true := by
  decide +kernel

/-- Statement 52: infinity, Y = 0, Y not 0. -/
theorem witness_DbljWritesClosedForm : ∀ q ∈ [JacobianValue.inf, .point 1 0 1, vJq], (withJ q .inf).readJ 1 = q ∧ q.inDomain = true := by
  decide +kernel

/-- Statement 53: infinity on either side, and both, one and none of the cross-differences 0. -/
theorem witness_AddjaFollowsFourCases :
    (∀ c ∈ [(JacobianValue.inf, baseG), (vJq, AffineValue.inf), (vJq, baseG), (vJq, vNegG), (vJq, v2G)],
      (withJ c.1 c.2).readJ 1 = c.1 ∧ (withJ c.1 c.2).readA 0 = c.2 ∧ c.1.inDomain = true ∧ c.2.inDomain = true) := by decide +kernel

/-- Statement 54: registers that stand for G and for infinity. -/
theorem witness_PointCommandsComputeGroupLaw : ∃ (_ : Fact (Nat.Prime Config.p)) (G : curve.Point),
    ((withA baseG .inf).readA 0).StandsFor G ∧ ((withA baseG .inf).readA 1).StandsFor 0 ∧
    ((withJ (a2j baseG) .inf).readJ 1).StandsFor G ∧ ((withJ .inf .inf).readJ 1).StandsFor 0 := by
  have h := Sys2Proof.Laws.fact_p_prime
  obtain ⟨G, hG⟩ := Sys2Proof.Laws.baseG_standsFor
  refine ⟨h, G, ?_, ?_, ?_, ?_⟩
  · rw [show (withA baseG .inf).readA 0 = baseG by decide +kernel]; exact hG
  · rw [show (withA baseG .inf).readA 1 = .inf by decide +kernel]; trivial
  · rw [show (withJ (a2j baseG) .inf).readJ 1 = a2j baseG by decide +kernel]; exact Sys2Proof.Laws.a2j_standsFor hG
  · rw [show (withJ .inf .inf).readJ 1 = .inf by decide +kernel]; trivial

/-- Statement 55: a base on the curve, one off it, infinity; the scalars 0 and 1. -/
theorem witness_ScalarCommandsComplete :
    (∀ q ∈ [AffineValue.inf, .point 5 0, baseG], ((withA .inf q).readA 1).inDomain = true) ∧ (withA .inf .inf).readA 1 = .inf ∧
    (withF 0 1).readF 0 = 0 ∧ (withF 0 1).readF 1 = 1 := by decide +kernel

/-- Statement 56: G stands for a point, and a base register holds it. -/
theorem witness_ScalarMultiplesAgree : ∃ (_ : Fact (Nat.Prime Config.p)) (G : curve.Point),
    baseG.StandsFor G ∧ ((withA .inf baseG).readA 1).StandsFor G := by
  have h := Sys2Proof.Laws.fact_p_prime
  obtain ⟨G, hG⟩ := Sys2Proof.Laws.baseG_standsFor
  refine ⟨h, G, hG, ?_⟩
  rw [show (withA .inf baseG).readA 1 = baseG by decide +kernel]
  exact hG

/-- Statement 57: the first and the last entry. -/
theorem witness_TableEntriesAreMultiples : (0 < 256 ∧ 255 < 256) ∧ ∃ (_ : Fact (Nat.Prime Config.p)) (G : curve.Point),
    baseG.StandsFor G := by
  have h := Sys2Proof.Laws.fact_p_prime
  exact ⟨by decide, h, Sys2Proof.Laws.baseG_standsFor⟩

/-- Statement 58: out of domain in class V and in class H, the two hangs, and commands that are never out of domain. -/
theorem witness_OutOfDomainTouchesOnlyDestination :
    ¬inDomain (withF pWord 0) (.addmod 2 0 1) ∧ ¬inDomain (withF (pWord + 1) 0) (.inv 1 0) ∧ (withF 0 0).readF 0 = 0 ∧
    ((withF pWord 0).readF 0).toNat = Config.p ∧ (withJ (.point 1 1 0) .inf).readJ 1 = .point 1 1 0 ∧
    (Instr.sub 0 1 2).row.1 < 0x20 ∧ (Instr.smulbit 0 1).row.1 = 0x53 :=
  ⟨fun h => absurd h.1 (by decide +kernel), fun h => absurd h.2 (by decide +kernel), by decide +kernel, by decide +kernel,
    by decide +kernel, by decide, rfl⟩

/-- Statement 59: a command of each engine in domain. -/
theorem witness_DomainIsClosed : inDomain blank (.fred 0 0) ∧ inDomain (withF 1 0) (.inv 1 0) ∧
    inDomain (withJ vJq baseG) (.addja 2 1 0) ∧ inDomain (withA .inf baseG) (.smulltr 0 0 1) :=
  ⟨⟨0, 0, by decide, by decide, by decide +kernel⟩, ⟨by decide +kernel, by decide +kernel⟩, ⟨by decide +kernel, by decide +kernel⟩,
    by unfold inDomain; decide +kernel⟩

/-- Statement 60: two different states that differ in the coordinates of an A register at infinity. -/
theorem witness_InfinityCoordinatesIrrelevant :
    let s := blank.setA 0 { x := zeroF, y := zeroF, inf := true }
    let t := blank.setA 0 { x := FixedReg.ofValue va, y := zeroF, inf := true }
    s ≠ t ∧ SameButInfCoordinates s t :=
  ⟨by decide +kernel, rfl, rfl, by decide +kernel, by decide +kernel, by decide, by decide, rfl, rfl, rfl, rfl, ⟨rfl, rfl, rfl, rfl, rfl, rfl, rfl, rfl⟩⟩

end Sys2Proof.Tests
end

section
/-! PROOFS. The ROM constants meet the definitions the spec gives them (spec/00_scope.md R8; spec/10_state.md R30, R31).
Each lemma is a closed fact about the literals of Config, one per constant. -/

namespace Sys2Proof.Laws

/-- The hexadecimal literal is the formula of R8. -/
theorem p_eq : Config.p = 2 ^ 256 - 2 ^ 224 + 2 ^ 192 + 2 ^ 96 - 1 := by decide

/-- R8: "p is odd", as every prime but 2 is. -/
theorem p_odd : Config.p % 2 = 1 :=
  p_prime.eq_two_or_odd.resolve_left (by decide)

/-- PPRIME = -p⁻¹ mod 2^256 (R31), with the inverse cleared. -/
theorem p_mul_pprime_add_one : (Config.p * Config.pprime + 1) % 2 ^ 256 = 0 := by decide

theorem pprime_lt : Config.pprime < 2 ^ 256 := by decide

/-- RMODP (R31): p exceeds 2^255, so R = 2^256 holds it once. -/
theorem rmodp_eq : Config.rmodp = 2 ^ 256 - Config.p := by decide

/-- R2MODP (R31), with R² written as the product that stays within Lean's exponent bound. -/
theorem r2modp_eq : Config.r2modp = (2 ^ 256 * 2 ^ 256) % Config.p := by decide

theorem gx_lt_p : Config.gx < Config.p := by decide

theorem gy_lt_p : Config.gy < Config.p := by decide

theorem b_lt_p : Config.b < Config.p := by decide

/-- G is on the curve y² = x³ - 3x + b (R30), the subtracted term moved to the left so that the numbers stay natural. -/
theorem g_curve_equation :
    (Config.gy ^ 2 + 3 * Config.gx) % Config.p = (Config.gx ^ 3 + Config.b) % Config.p := by decide

/-- Settles O29: one lemma for each constant's definition, and the curve equation at G. -/
theorem constantsMeetDefinitions : Obligations.ConstantsMeetDefinitions :=
  ⟨p_eq, p_odd, p_mul_pprime_add_one, pprime_lt, rmodp_eq, r2modp_eq, gx_lt_p, gy_lt_p, b_lt_p, g_curve_equation⟩

end Sys2Proof.Laws
end

section
/-! PROOFS. What one event and one step can do, said once: a step handles the next event, a read touches the port's own
fields only, a command changes its destination only (spec/60_exceptions.md R211, R224; spec/20_memory.md R74). -/

namespace Sys2Proof.Machine

/-- The event the next step handles: the oldest pending one, the unit's turn when there is none (log entry 3). -/
def State.nextEvent (s : State) : HostEvent := s.pending.headD .unitTurn

/-- The state that handles it. -/
def State.popEvent (s : State) : State := { s with pending := s.pending.tail }

theorem step_eq_handleEvent (s : State) : step s = handleEvent s.nextEvent s.popEvent := by
  cases h : s.pending with
  | nil =>
    have hs : s.popEvent = s := by rw [State.popEvent, h, List.tail_nil, ← h]
    rw [step_nil h, State.nextEvent, h, hs]; rfl
  | cons e rest => rw [step_cons h, State.nextEvent, State.popEvent, h]; rfl

/-- The next event is a pending one, or nothing is pending and the unit moves. -/
theorem nextEvent_pending_or_unitTurn (s : State) : s.pending.head? = some s.nextEvent ∨ s.pending = [] ∧ s.nextEvent = .unitTurn := by
  unfold State.nextEvent
  cases s.pending with
  | nil => exact Or.inr ⟨rfl, rfl⟩
  | cons e rest => exact Or.inl rfl

/-- A read that is answered changes what the port has drawn and answered, and nothing else (R71, R74). -/
theorem hostRead_next {s t : State} {off : Offset} {size : Nat} (h : hostRead s off size = .next t) :
    ∃ n xs, t = { s with portDraws := n, answers := xs } := by
  unfold hostRead at h
  split at h
  · obtain ⟨-, -, e⟩ | ⟨-, e⟩ := s.memRead_cases off <;>
      rw [e] at h <;> cases h <;> exact ⟨_, _, rfl⟩
  · cases h

theorem hostWrite_next {s t : State} {off : Offset} {size : Nat} {v : Word} (h : hostWrite s off size v = .next t) :
    t = s.memWrite off v := by
  unfold hostWrite at h
  split at h <;> cases h
  rfl

/-- Everything a turn of the unit can do: idle, nothing; else the latched command (R211, R224). -/
theorem unitTurn_next {s t : State} (h : unitTurn s = .next t) :
    (s.latch = none ∧ t = s) ∨ ∃ w i, s.latch = some w ∧ decodeWord w = .ok i ∧ exec i s = .next t := by
  cases hl : s.latch with
  | none => rw [unitTurn_idle hl] at h; cases h; exact Or.inl ⟨rfl, rfl⟩
  | some w =>
    cases hd : decodeWord w with
    | error r => simp only [unitTurn, hl, hd] at h; cases h
    | ok i => rw [unitTurn_running hl hd] at h; exact Or.inr ⟨w, i, rfl, hd, h⟩

/-- Everything an event that does not stop the machine can do. -/
theorem handleEvent_next {e : HostEvent} {s t : State} (h : handleEvent e s = .next t) :
    (∃ n xs, t = { s with portDraws := n, answers := xs }) ∨
    (∃ off size v, e = .write off size v ∧ t = s.memWrite off v) ∨
    (e = .unitTurn ∧ s.latch = none ∧ t = s) ∨
    (e = .unitTurn ∧ ∃ w i, s.latch = some w ∧ decodeWord w = .ok i ∧ exec i s = .next t) ∨
    (e = .hwReset ∧ t = s.resetUnit) := by
  cases e with
  | read off size => exact Or.inl (hostRead_next h)
  | write off size v => exact Or.inr (Or.inl ⟨off, size, v, rfl, hostWrite_next h⟩)
  | unitTurn => exact Or.inr (Or.inr ((unitTurn_next h).imp (⟨rfl, ·⟩) fun hr => Or.inl ⟨rfl, hr⟩))
  | hwReset => cases h; exact Or.inr (Or.inr (Or.inr (Or.inr ⟨rfl, rfl⟩)))

theorem State.raise_pending (s : State) (code : BitVec 4) (info : Word) : (s.raise code info).pending = s.pending := by
  obtain ⟨-, e⟩ | ⟨-, e⟩ := s.raise_cases code info <;> rw [e]

/-- No write to the window touches what is still pending. -/
theorem State.memWrite_pending (s : State) (off : Offset) (v : Word) : (s.memWrite off v).pending = s.pending := by
  obtain ⟨-, e⟩ | ⟨-, e⟩ | ⟨-, e⟩ | ⟨-, -, e⟩ | ⟨-, -, e⟩ | ⟨-, -, -, -, e⟩ := s.memWrite_cases off v <;> rw [e]
  · obtain ⟨-, e⟩ | ⟨-, -, e⟩ | ⟨-, -, e⟩ := s.offer_cases v <;> rw [e]
    · exact s.raise_pending _ _
    · exact s.raise_pending _ _
    · rfl
  · rw [State.writeStatus_eq]
  · unfold State.writeCtrl; split <;> rfl
  · exact s.raise_pending _ _
  · obtain ⟨-, -, -, -, hc⟩ := s.storeSlot_frame v (slotAt off)
    exact hc.pending

/-! A command's frame. -/

theorem State.completeF_frame (s : State) (rd : FReg) (r : Result U256) :
    (FrameF rd s (s.completeF rd r) ∧ (s.completeF rd r).flags = s.flags) ∧
    (Completed (s.completeF rd r) ∨ s.completeF rd r = s) :=
  have ⟨fr, fl, hc⟩ := s.completeF_spec rd r
  ⟨⟨fr, fl⟩, hc.imp And.left And.right⟩

theorem State.completeA_frame (s : State) (rd : AReg) (r : Result AffineValue) :
    FrameA rd s (s.completeA rd r) ∧ (Completed (s.completeA rd r) ∨ s.completeA rd r = s) :=
  (s.completeA_spec rd r).imp id (Or.imp And.left And.right)

theorem State.completeJ_frame (s : State) (rd : JReg) (r : Result JacobianValue) :
    FrameJ rd s (s.completeJ rd r) ∧ (Completed (s.completeJ rd r) ∨ s.completeJ rd r = s) :=
  (s.completeJ_spec rd r).imp id (Or.imp And.left And.right)

/-- FRED, which advances the draw counter first: that is outside every frame, and FRED always completes (R126). -/
theorem State.completeF_fred_frame (s : State) (rd : FReg) (mayDraw : Bool) (T : U512) :
    (FrameF rd s (s.tick.completeF rd (fredResult mayDraw T)) ∧
      (s.tick.completeF rd (fredResult mayDraw T)).flags = s.flags) ∧
    Completed (s.tick.completeF rd (fredResult mayDraw T)) := by
  obtain ⟨fr, fl, ⟨hc, -⟩ | ⟨hn, -⟩⟩ := s.tick.completeF_spec rd (fredResult mayDraw T)
  · exact ⟨⟨fr.ofTick, fl⟩, hc⟩
  · exact absurd hn (not_or.2 (Laws.fredResult_completes mayDraw T))

/-- Every command answers; it changes its destination only, and completes or leaves the whole state (R211, R247). -/
theorem exec_frame (i : Instr) (s : State) :
    ∃ t, exec i s = .next t ∧ DestinationFrame s t i ∧ (Completed t ∨ t = s) := by
  cases i with
  | cmp a b =>
    exact ⟨_, exec_cmp s a b, ⟨rfl, rfl, rfl, rfl, rfl, ⟨rfl, rfl, rfl, rfl, rfl, rfl, rfl, rfl⟩⟩, Or.inl (Completed.retire _)⟩
  | shr1 | add | sub =>
    refine ⟨_, rfl, ?_⟩
    obtain ⟨fr, hc, -, fl⟩ := s.completeFC_spec _ _
    exact ⟨⟨fr, by rw [fl]⟩, Or.inl hc⟩
  | addmod | submod | montred | mulmod | sqrmod | inv => exact ⟨_, rfl, s.completeF_frame _ _⟩
  | fred rd a =>
    have ⟨fr, hc⟩ := s.completeF_fred_frame rd (Config.fredMayDraw s.draws) (s.readW a)
    exact ⟨_, exec_fred s rd a, fr, Or.inl hc⟩
  | mulfull | mulfullps | sqrfull =>
    refine ⟨_, rfl, ?_⟩
    obtain ⟨fr, hc, -⟩ := s.completeW_spec _ _
    exact ⟨fr, Or.inl hc⟩
  | a2j | dblj | addja => exact ⟨_, rfl, s.completeJ_frame _ _⟩
  | j2a | addaff | dblaff | smulltr | smulrtl | smulwin | smulbit => exact ⟨_, rfl, s.completeA_frame _ _⟩

/-- `exec_frame` for the state a command is known to give. -/
theorem exec_next {i : Instr} {s t : State} (h : exec i s = .next t) : DestinationFrame s t i ∧ (Completed t ∨ t = s) := by
  obtain ⟨u, e, hu⟩ := exec_frame i s
  cases e.symm.trans h
  exact hu

/-- Whatever the destination, the control registers but BUSY and DONE are kept (R211). -/
theorem DestinationFrame.control {s t : State} {i : Instr} (h : DestinationFrame s t i) : ControlKept s t := by
  cases i with
  | cmp => obtain ⟨-, -, -, -, -, hc⟩ := h; exact hc
  | shr1 | add | sub | addmod | submod | mulmod | fred | montred | sqrmod | inv => exact h.1.control
  | mulfull | mulfullps | sqrfull => exact FrameW.control h
  | a2j | dblj | addja => exact FrameJ.control h
  | j2a | addaff | dblaff | smulltr | smulrtl | smulwin | smulbit => exact FrameA.control h

/-- The flags a command's rule names: none, or those of CMP, or C alone for SHR1, ADD and SUB (R29). -/
theorem DestinationFrame.flags_cases {s t : State} {i : Instr} (h : DestinationFrame s t i) :
    t.flags = s.flags ∨ (∃ a b, i = .cmp a b) ∨
    (((∃ d a, i = .shr1 d a) ∨ (∃ d a b, i = .add d a b) ∨ ∃ d a b, i = .sub d a b) ∧
      t.flags = { s.flags with c := t.flags.c }) := by
  cases i with
  | cmp a b => exact Or.inr (Or.inl ⟨a, b, rfl⟩)
  | shr1 d a => exact Or.inr (Or.inr ⟨Or.inl ⟨d, a, rfl⟩, h.2⟩)
  | add d a b => exact Or.inr (Or.inr ⟨Or.inr (Or.inl ⟨d, a, b, rfl⟩), h.2⟩)
  | sub d a b => exact Or.inr (Or.inr ⟨Or.inr (Or.inr ⟨d, a, b, rfl⟩), h.2⟩)
  | addmod | submod | mulmod | fred | montred | sqrmod | inv => exact Or.inl h.2
  | mulfull | mulfullps | sqrfull => exact Or.inl (FrameW.flags h)
  | a2j | dblj | addja => exact Or.inl (FrameJ.flags h)
  | j2a | addaff | dblaff | smulltr | smulrtl | smulwin | smulbit => exact Or.inl (FrameA.flags h)

end Sys2Proof.Machine

namespace Sys2Proof.Laws

open Sys2Proof.Machine

/-- Settles O14: `exec_frame` for the unit's turn, `unitTurn_idle` for the idle unit. -/
theorem completionChangesOnlyItsDestination : Obligations.CompletionChangesOnlyItsDestination := by
  refine ⟨fun i s => ?_, fun s => unitTurn_idle⟩
  obtain ⟨t, e, fr, hc⟩ := exec_frame i s
  exact ⟨t, e, fr.control, fr, hc⟩

end Sys2Proof.Laws
end

section
/-! PROOFS. Every step keeps the machine invariant, and reset meets it: one lemma per update of the state
(spec/10_state.md R29, R37, R41, R42, R50; spec/60_exceptions.md R210, R212). -/

namespace Sys2Proof.Machine

variable {s t : State}

/-- What is the outside's is not in the invariant. -/
theorem Inv.setOutside (h : Inv s) (n : Nat) (ps : List HostEvent) (xs : List (Offset × Word)) :
    Inv { s with portDraws := n, pending := ps, answers := xs } :=
  ⟨h.errorClear, h.errorCode, h.latched, h.command, h.oneHot⟩

theorem Inv.raise (h : Inv s) {code : BitVec 4} (hcode : code = 1 ∨ code = 2 ∨ code = 3) (info : Word) :
    Inv (s.raise code info) := by
  obtain ⟨-, e⟩ | ⟨-, e⟩ := s.raise_cases code info <;> rw [e]
  · exact ⟨fun he => Bool.noConfusion he, fun _ => hcode, h.latched, h.command, h.oneHot⟩
  · exact h

theorem Inv.accept (h : Inv s) {w : Word} (hw : ∃ i, decodeWord w = .ok i) : Inv (s.accept w) :=
  ⟨h.errorClear, h.errorCode, fun v hv => by cases hv; exact ⟨rfl, hw, rfl⟩, Or.inr hw, h.oneHot⟩

theorem Inv.offer (h : Inv s) (w : Word) : Inv (s.offer w) := by
  obtain ⟨-, e⟩ | ⟨-, -, e⟩ | ⟨-, hw, e⟩ := s.offer_cases w <;> rw [e]
  · exact h.raise (Or.inr (Or.inl rfl)) w
  · exact h.raise (Or.inl rfl) w
  · exact h.accept hw

theorem Inv.clearDone (h : Inv s) : Inv s.clearDone :=
  ⟨h.errorClear, h.errorCode, fun w hw => (h.latched w hw).imp id (And.imp id fun _ => rfl), h.command, h.oneHot⟩

theorem Inv.clearError (h : Inv s) : Inv s.clearError :=
  ⟨fun _ => ⟨rfl, rfl⟩, fun he => Bool.noConfusion he, h.latched, h.command, h.oneHot⟩

theorem Inv.writeStatus (h : Inv s) (v : Word) : Inv (s.writeStatus v) := by
  unfold State.writeStatus
  split <;> split
  · exact h.clearDone.clearError
  · exact h.clearDone
  · exact h.clearError
  · exact h

theorem inv_afterReset (n m : Nat) (ps : List HostEvent) (xs : List (Offset × Word)) : Inv (State.afterReset n m ps xs) :=
  ⟨fun _ => ⟨rfl, rfl⟩, fun he => Bool.noConfusion he, fun _ hl => (nomatch hl), Or.inl rfl, Nat.zero_le 1⟩

theorem Inv.writeCtrl (h : Inv s) (v : Word) : Inv (s.writeCtrl v) := by
  unfold State.writeCtrl
  split
  · exact inv_afterReset _ _ _ _
  · exact ⟨h.errorClear, h.errorCode, h.latched, h.command, h.oneHot⟩

/-- An update that keeps the control registers and the latch keeps the invariant, if the flags stay one-hot. -/
theorem Inv.of_controlKept (h : Inv s) (hc : ControlKept s t)
    (hl : ∀ w, t.latch = some w → s.latch = some w ∧ t.done = s.done)
    (hf : t.flags.eq.toNat + t.flags.lt.toNat + t.flags.gt.toNat ≤ 1) : Inv t where
  errorClear := by rw [hc.err, hc.errcode, hc.errinfo]; exact h.errorClear
  errorCode := by rw [hc.err, hc.errcode]; exact h.errorCode
  latched w hw := by
    obtain ⟨hs, hd⟩ := hl w hw
    rw [hc.cmd, hd]; exact h.latched w hs
  command := by rw [hc.cmd]; exact h.command
  oneHot := hf

theorem Inv.storeSlot (h : Inv s) (v : Word) (slot : Slot) : Inv (s.storeSlot v slot) := by
  obtain ⟨hf, hl, hd, -, hc⟩ := s.storeSlot_frame v slot
  exact h.of_controlKept hc (fun w hw => ⟨hl ▸ hw, hd⟩) (by rw [hf]; exact h.oneHot)

theorem Inv.memWrite (h : Inv s) (off : Offset) (v : Word) : Inv (s.memWrite off v) := by
  obtain ⟨-, e⟩ | ⟨-, e⟩ | ⟨-, e⟩ | ⟨-, -, e⟩ | ⟨-, -, e⟩ | ⟨-, -, -, -, e⟩ := s.memWrite_cases off v <;> rw [e]
  · exact h.offer v
  · exact h.writeStatus v
  · exact h.writeCtrl v
  · exact h.raise (Or.inr (Or.inr rfl)) _
  · exact h.storeSlot v _
  · exact h

/-- A comparison sets exactly one of EQ, LT and GT (R29, R111). -/
theorem withCompare_oneHot (fl : Flags) (r : Ordering) :
    (fl.withCompare r).eq.toNat + (fl.withCompare r).lt.toNat + (fl.withCompare r).gt.toNat = 1 := by
  cases r <;> rfl

/-- The compare flags stay one-hot or all 0: CMP sets one of them, no other command changes any. -/
theorem Inv.exec_oneHot (h : Inv s) {i : Instr} (e : exec i s = .next t) :
    t.flags.eq.toNat + t.flags.lt.toNat + t.flags.gt.toNat ≤ 1 := by
  obtain hf | ⟨a, b, rfl⟩ | ⟨-, hf⟩ := (exec_next e).1.flags_cases
  · rw [hf]; exact h.oneHot
  · cases e; exact (withCompare_oneHot _ _).le
  · rw [hf]; exact h.oneHot

theorem Inv.exec (h : Inv s) {i : Instr} (e : exec i s = .next t) : Inv t := by
  obtain ⟨fr, ⟨hb, -⟩ | rfl⟩ := exec_next e
  · have hl : t.latch = none := by rwa [State.busy, Option.isSome_eq_false_iff, Option.isNone_iff_eq_none] at hb
    exact h.of_controlKept fr.control (fun w hw => by rw [hl] at hw; cases hw) (h.exec_oneHot e)
  · exact h

theorem Inv.handleEvent (h : Inv s) {e : HostEvent} (he : handleEvent e s = .next t) : Inv t := by
  obtain ⟨n, xs, rfl⟩ | ⟨off, -, v, -, rfl⟩ | ⟨-, -, rfl⟩ | ⟨-, _, _, -, -, hx⟩ | ⟨-, rfl⟩ := handleEvent_next he
  · exact h.setOutside n s.pending xs
  · exact h.memWrite off v
  · exact h
  · exact h.exec hx
  · exact inv_afterReset _ _ _ _

end Sys2Proof.Machine

namespace Sys2Proof.Laws

open Sys2Proof.Machine

/-- Settles O32: the next event keeps the invariant, whichever it is (`Inv.handleEvent`). -/
theorem stepKeepsInvariant : Obligations.StepKeepsInvariant := by
  intro s t h hs
  rw [step_eq_handleEvent] at hs
  exact Inv.handleEvent (h.setOutside s.portDraws s.pending.tail s.answers) hs

/-- Settles O31: `State.reset` is the state after a reset with nothing pending. -/
theorem resetMeetsInvariant : Obligations.ResetMeetsInvariant := inv_afterReset 0 0 [] []

end Sys2Proof.Laws
end

section
/-! PROOFS. The control registers: what each reads in any state of the unit, and what a write to it does (spec/10_state.md
R40 to R46, R50; spec/20_memory.md R62, R74; spec/60_exceptions.md R213, R218, R219; spec/70_reset_and_hazards.md R240, R241). -/

namespace Sys2Proof.Machine

variable (s : State)

/-- A word that is no data register reads the same, BUSY or not (R71). -/
theorem State.memRead_of_not_data {off : Offset} (h : (slotAt off).isData = false) :
    s.memRead off = (s.readSlot (slotAt off), s) := by
  rw [State.memRead, h, Bool.and_false, if_neg Bool.false_ne_true]

theorem State.memRead_id : s.memRead 0x000 = (Config.idWord, s) := s.memRead_of_not_data (by rw [slotAt_id]; rfl)

theorem State.memRead_cmd : s.memRead 0x004 = (s.cmd, s) := s.memRead_of_not_data (by rw [slotAt_cmd]; rfl)

theorem State.memRead_status : s.memRead 0x008 = (s.statusWord, s) :=
  s.memRead_of_not_data (by rw [slotAt_status]; rfl)

theorem State.memRead_ctrl : s.memRead 0x00C = (s.ctrlWord, s) := s.memRead_of_not_data (by rw [slotAt_ctrl]; rfl)

theorem State.memRead_flags : s.memRead 0x010 = (s.flags.word, s) := s.memRead_of_not_data (by rw [slotAt_flags]; rfl)

theorem State.memRead_errinfo : s.memRead 0x014 = (s.errinfo, s) :=
  s.memRead_of_not_data (by rw [slotAt_errinfo]; rfl)

/-- STATUS bit by bit (R42). -/
theorem State.statusWord_bits :
    s.statusWord.getLsbD 0 = s.busy ∧ s.statusWord.getLsbD 1 = s.done ∧ s.statusWord.getLsbD 2 = s.err ∧
    s.statusWord.getLsbD 3 = false ∧ s.statusWord.extractLsb' 4 4 = s.errcode ∧ s.statusWord.extractLsb' 8 24 = 0 := by
  unfold State.statusWord
  generalize s.busy = b, s.done = d, s.err = e, s.errcode = c
  revert b d e c
  decide

/-- FLAGS bit by bit (R44). -/
theorem Flags.word_bits (fl : Flags) :
    fl.word.getLsbD 0 = fl.c ∧ fl.word.getLsbD 1 = fl.eq ∧ fl.word.getLsbD 2 = fl.lt ∧ fl.word.getLsbD 3 = fl.gt ∧
    fl.word.extractLsb' 4 28 = 0 := by
  obtain ⟨c, e, l, g⟩ := fl
  revert c e l g
  decide

theorem State.ctrlWord_eq : s.ctrlWord = if s.ie then 1 else 0 := by
  unfold State.ctrlWord
  cases s.ie <;> rfl

theorem State.writeCtrl_reset {v : Word} (h : v.getLsbD 31 = true) : s.writeCtrl v = s.resetUnit := by
  rw [State.writeCtrl, if_pos h]

theorem State.writeCtrl_ie {v : Word} (h : v.getLsbD 31 = false) : s.writeCtrl v = { s with ie := v.getLsbD 0 } := by
  rw [State.writeCtrl, if_neg (by rw [h]; exact Bool.false_ne_true)]

theorem State.offer_legal {w : Word} {i : Instr} (hb : s.busy = false) (hd : decodeWord w = .ok i) :
    s.offer w = s.accept w := by
  simp only [State.offer, hb, hd, Bool.false_eq_true, if_false]

/-- The read-only words and the unmapped ones ignore writes (R70). -/
theorem State.memWrite_ignored {off : Offset} (v : Word) (h : (slotAt off).isData = false)
    (hc : slotAt off ≠ .cmd) (hs : slotAt off ≠ .status) (ht : slotAt off ≠ .ctrl) : s.memWrite off v = s := by
  obtain ⟨e, -⟩ | ⟨e, -⟩ | ⟨e, -⟩ | ⟨e, -⟩ | ⟨e, -⟩ | ⟨-, -, -, -, e⟩ := s.memWrite_cases off v
  · exact absurd e hc
  · exact absurd e hs
  · exact absurd e ht
  · exact absurd (h.symm.trans e) Bool.false_ne_true
  · exact absurd (h.symm.trans e) Bool.false_ne_true
  · exact e

theorem State.memWrite_flags (v : Word) : s.memWrite 0x010 v = s := by
  apply s.memWrite_ignored v <;> rw [slotAt_flags] <;> simp [Slot.isData]

/-- A data word is stored while idle and dropped with error 3 while BUSY (R212). -/
theorem State.memWrite_data {off : Offset} (v : Word) (h : (slotAt off).isData = true) :
    s.memWrite off v = if s.busy then s.raise 3 (off.setWidth 32) else s.storeSlot v (slotAt off) := by
  obtain ⟨e, -⟩ | ⟨e, -⟩ | ⟨e, -⟩ | ⟨-, hb, e⟩ | ⟨-, hb, e⟩ | ⟨hn, -⟩ := s.memWrite_cases off v
  · rw [e] at h; cases h
  · rw [e] at h; cases h
  · rw [e] at h; cases h
  · rw [e, hb, if_pos rfl]
  · rw [e, hb, if_neg Bool.false_ne_true]
  · exact absurd (hn.symm.trans h) Bool.false_ne_true

theorem State.latchedError_raise (code : BitVec 4) (info : Word) : LatchedError code info s (s.raise code info) :=
  ⟨fun h => State.raise_of_clear h code info, fun h => State.raise_of_latched h code info⟩

/-- The control registers after any reset are at their reset values, whatever the draws (R50). -/
theorem controlReset_afterReset (n m : Nat) (ps : List HostEvent) (xs : List (Offset × Word)) :
    ControlReset (State.afterReset n m ps xs) :=
  ⟨rfl, rfl, rfl, rfl, rfl, rfl, rfl⟩

/-! Accesses of every shape (R62). -/

theorem accessWellFormed_iff (off : Offset) (size : Nat) : accessWellFormed off size = true ↔ size = 4 ∧ off.toNat % 4 = 0 := by
  simp [accessWellFormed]

theorem host_access_refused {off : Offset} {size : Nat} (v : Word) (h : ¬(size = 4 ∧ off.toNat % 4 = 0)) :
    hostRead s off size = .refused .accessNotExpressible ∧ hostWrite s off size v = .refused .accessNotExpressible := by
  rw [← accessWellFormed_iff] at h
  rw [hostRead, hostWrite, if_neg h, if_neg h]
  exact ⟨rfl, rfl⟩

/-! The error latch along a run. -/

/-- The error latch holds the same in both states. -/
def SameError (s t : State) : Prop := t.err = s.err ∧ t.errcode = s.errcode ∧ t.errinfo = s.errinfo

theorem ControlKept.sameError {s t : State} (h : ControlKept s t) : SameError s t := ⟨h.err, h.errcode, h.errinfo⟩

variable {s} {t : State}

/-- A latched error outlives every write but an acknowledgement in STATUS and a reset in CTRL (R213, R219). -/
theorem State.memWrite_sameError (h : s.err = true) {off : Offset} {size : Nat} {v : Word}
    (hr : (HostEvent.write off size v).resets = false) (hc : (HostEvent.write off size v).clearsError = false) :
    SameError s (s.memWrite off v) := by
  obtain ⟨-, e⟩ | ⟨hs, e⟩ | ⟨hs, e⟩ | ⟨-, -, e⟩ | ⟨-, -, e⟩ | ⟨-, -, -, -, e⟩ := s.memWrite_cases off v <;> rw [e]
  · obtain ⟨-, e⟩ | ⟨-, -, e⟩ | ⟨-, -, e⟩ := s.offer_cases v <;> rw [e]
    · rw [State.raise_of_latched h]; exact ⟨rfl, rfl, rfl⟩
    · rw [State.raise_of_latched h]; exact ⟨rfl, rfl, rfl⟩
    · exact ⟨rfl, rfl, rfl⟩
  · have hv : v.getLsbD 2 = false := by simpa [HostEvent.clearsError, hs] using hc
    rw [State.writeStatus_eq, hv]; exact ⟨Bool.and_true _, rfl, rfl⟩
  · have hv : v.getLsbD 31 = false := by simpa [HostEvent.resets, hs] using hr
    rw [State.writeCtrl_ie s hv]; exact ⟨rfl, rfl, rfl⟩
  · rw [State.raise_of_latched h]; exact ⟨rfl, rfl, rfl⟩
  · obtain ⟨-, -, -, -, hk⟩ := s.storeSlot_frame v (slotAt off)
    exact hk.sameError
  · exact ⟨rfl, rfl, rfl⟩

theorem handleEvent_sameError (h : s.err = true) {e : HostEvent} (hr : e.resets = false) (hc : e.clearsError = false)
    (he : handleEvent e s = .next t) : SameError s t ∧ t.pending = s.pending := by
  obtain ⟨n, xs, rfl⟩ | ⟨off, size, v, rfl, rfl⟩ | ⟨-, -, rfl⟩ | ⟨-, _, _, -, -, hx⟩ | ⟨rfl, -⟩ := handleEvent_next he
  · exact ⟨⟨rfl, rfl, rfl⟩, rfl⟩
  · exact ⟨State.memWrite_sameError h hr hc, s.memWrite_pending off v⟩
  · exact ⟨⟨rfl, rfl, rfl⟩, rfl⟩
  · have hk := (exec_next hx).1.control
    exact ⟨hk.sameError, hk.pending⟩
  · cases hr

/-- The first k events after the next one are among the first k + 1. -/
theorem mem_take_succ_of_mem_take_tail {k : Nat} {l : List HostEvent} {e : HostEvent} (h : e ∈ l.tail.take k) :
    e ∈ l.take (k + 1) := by
  cases l with
  | nil => rw [List.tail_nil, List.take_nil] at h; cases h
  | cons d rest => exact List.mem_cons_of_mem d h

/-- One step keeps a latched error, if the event it handles neither clears nor resets. -/
theorem step_sameError {k : Nat} (h : s.err = true)
    (hp : ∀ e ∈ s.pending.take (k + 1), e.resets = false ∧ e.clearsError = false) (hs : step s = .next t) :
    SameError s t ∧ t.pending = s.pending.tail := by
  rw [step_eq_handleEvent] at hs
  obtain ⟨hr, hc⟩ : s.nextEvent.resets = false ∧ s.nextEvent.clearsError = false := by
    unfold State.nextEvent
    cases hl : s.pending with
    | nil => exact ⟨rfl, rfl⟩
    | cons e rest => exact hp e (by rw [hl]; exact List.mem_cons_self)
  exact handleEvent_sameError (s := s.popEvent) h hr hc hs

/-! The flags. -/

theorem State.raise_flags (s : State) (code : BitVec 4) (info : Word) : (s.raise code info).flags = s.flags := by
  obtain ⟨-, e⟩ | ⟨-, e⟩ := s.raise_cases code info <;> rw [e]

/-- No write changes a flag but a reset (R44). -/
theorem State.memWrite_flags_kept {off : Offset} {size : Nat} {v : Word}
    (hr : (HostEvent.write off size v).resets = false) : (s.memWrite off v).flags = s.flags := by
  obtain ⟨-, e⟩ | ⟨-, e⟩ | ⟨hs, e⟩ | ⟨-, -, e⟩ | ⟨-, -, e⟩ | ⟨-, -, -, -, e⟩ := s.memWrite_cases off v <;> rw [e]
  · obtain ⟨-, e⟩ | ⟨-, -, e⟩ | ⟨-, -, e⟩ := s.offer_cases v <;> rw [e]
    · exact s.raise_flags _ _
    · exact s.raise_flags _ _
    · rfl
  · rw [State.writeStatus_eq]
  · have hv : v.getLsbD 31 = false := by simpa [HostEvent.resets, hs] using hr
    rw [State.writeCtrl_ie s hv]
  · exact s.raise_flags _ _
  · obtain ⟨hf, -⟩ := s.storeSlot_frame v (slotAt off)
    exact hf

/-- CMP, SHR1, ADD and SUB, the commands whose rules name flags (R29). -/
def writesFlags (i : Instr) : Prop :=
  (∃ a b, i = .cmp a b) ∨ (∃ d a, i = .shr1 d a) ∨ (∃ d a b, i = .add d a b) ∨ ∃ d a b, i = .sub d a b

/-- A command that changes a flag is one of the four, and it has completed. -/
theorem exec_flags_changed {i : Instr} (h : exec i s = .next t) (hf : t.flags ≠ s.flags) :
    t.busy = false ∧ writesFlags i := by
  obtain ⟨fr, hc | rfl⟩ := exec_next h
  · refine ⟨hc.1, ?_⟩
    obtain e | hi | ⟨hi, -⟩ := fr.flags_cases
    · exact absurd e hf
    · exact Or.inl hi
    · exact Or.inr hi
  · exact absurd rfl hf

/-- The only events that change a flag: a reset, and a turn of the unit that completes one of the four commands. -/
theorem handleEvent_flags_changed {e : HostEvent} (he : handleEvent e s = .next t) (hf : t.flags ≠ s.flags) :
    e.resets = true ∨ ∃ w i, s.latch = some w ∧ decodeWord w = .ok i ∧ t.busy = false ∧ writesFlags i := by
  obtain ⟨n, xs, rfl⟩ | ⟨off, size, v, rfl, rfl⟩ | ⟨-, -, rfl⟩ | ⟨-, w, i, hl, hd, hx⟩ | ⟨rfl, -⟩ := handleEvent_next he
  · exact absurd rfl hf
  · cases hr : (HostEvent.write off size v).resets
    · exact absurd (State.memWrite_flags_kept hr) hf
    · exact Or.inl rfl
  · exact absurd rfl hf
  · exact Or.inr ⟨w, i, hl, hd, exec_flags_changed hx hf⟩
  · exact Or.inl rfl

/-! The model's placement of a command (log entry 12). -/

/-- A word the table decoder reads is the 32-bit word that R96 decodes. -/
theorem decodeWord_of_decodeTableWord {nbits w : Nat} {i : Instr} (h : decodeTableWord nbits w = some i) :
    decodeWord (BitVec.ofNat 32 (w % 2 ^ nbits)) = .ok i := by
  simp only [decodeTableWord] at h
  split at h
  · revert h
    cases decodeWord (BitVec.ofNat 32 (w % 2 ^ nbits)) with
    | error r => exact fun h => nomatch h
    | ok j => exact fun h => by cases h; rfl
  · cases h

theorem State.withFetchWord_eq (s : State) {nbits w : Nat} {i : Instr} (h : decodeTableWord nbits w = some i) :
    s.withFetchWord nbits w = { s.accept (BitVec.ofNat 32 (w % 2 ^ nbits)) with pending := .unitTurn :: s.pending } := by
  simp only [State.withFetchWord, State.fetchNext, h]

end Sys2Proof.Machine

namespace Sys2Proof.Laws

open Sys2Proof.Machine

/-- Settles O13, by induction on the length of the run: each step keeps the latch and takes one event off the list. -/
theorem firstErrorKept : Obligations.FirstErrorKept := by
  intro k
  induction k with
  | zero => intro s t h _ hr; cases hr; exact ⟨h, rfl, rfl⟩
  | succ k ih =>
    intro s t h hp hr
    obtain ⟨u, hs, hr⟩ := hr.succ
    obtain ⟨⟨he, hcode, hinfo⟩, hpend⟩ := step_sameError h hp hs
    have htake : ∀ e ∈ u.pending.take k, e.resets = false ∧ e.clearsError = false :=
      fun e hm => hp e (mem_take_succ_of_mem_take_tail (hpend ▸ hm))
    obtain ⟨ht, htcode, htinfo⟩ := ih u t (he.trans h) htake hr
    exact ⟨ht, htcode.trans hcode, htinfo.trans hinfo⟩

/-- Settles O18: the bits of the status word, and the write field by field. -/
theorem statusReadsAndClears : Obligations.StatusReadsAndClears := by
  intro s v
  rw [State.memRead_status, State.memWrite_status, State.writeStatus_eq]
  obtain ⟨hb, hd, he, hz, hcode, hhigh⟩ := s.statusWord_bits
  exact ⟨rfl, hb, hd, he, hz, hcode, hhigh, rfl⟩

/-- Settles O20: the bits of the flags word, and `handleEvent_flags_changed` for the event a step handles. -/
theorem flagsChangeOnlyAtNamedCompletions : Obligations.FlagsChangeOnlyAtNamedCompletions := by
  refine ⟨fun s v => ?_, fun s t hs hf => ?_⟩
  · rw [State.memRead_flags]
    obtain ⟨hc, he, hl, hg, hhigh⟩ := s.flags.word_bits
    exact ⟨rfl, hc, he, hl, hg, hhigh, s.memWrite_flags v⟩
  · rw [step_eq_handleEvent] at hs
    obtain hr | hx := handleEvent_flags_changed (s := s.popEvent) hs hf
    · obtain hh | ⟨-, hh⟩ := nextEvent_pending_or_unitTurn s
      · exact Or.inl ⟨_, hh, hr⟩
      · rw [hh] at hr; cases hr
    · exact Or.inr hx

/-- Settles O23: the refusal by the access test, the answers by `memRead_cases`, the effects by the slot written. -/
theorem accessPrimitivesAnswerAndStore : Obligations.AccessPrimitivesAnswerAndStore := by
  intro s off size v
  refine ⟨s.memRead_id, s.memRead_cmd, s.memRead_errinfo, host_access_refused s v, fun h => ?_⟩
  rw [← accessWellFormed_iff] at h
  rw [hostRead_wellFormed s h, hostWrite_wellFormed s v h]
  refine ⟨?_, s.memWrite off v, rfl, fun hro => ?_, fun hd hb => ?_, fun hd hb => ?_⟩
  · obtain ⟨hd, hb, e⟩ | ⟨hn, e⟩ := s.memRead_cases off <;> rw [e]
    · refine ⟨_, s.tickPort, rfl, fun hu => ?_, fun hn => ?_, fun _ => rfl⟩
      · rw [hu] at hd; cases hd
      · rw [hd, hb] at hn; simp at hn
    · refine ⟨_, s, rfl, fun hu => ⟨by rw [hu]; rfl, rfl⟩, fun _ => ⟨rfl, rfl⟩, fun ⟨hd, hb⟩ => ?_⟩
      rw [hd, hb] at hn; simp at hn
  · obtain e | e | e | e | ⟨c, j, e⟩ := hro <;> apply s.memWrite_ignored v <;> rw [e] <;> simp [Slot.isData]
  · rw [s.memWrite_data v hd, hb, if_neg Bool.false_ne_true]
  · rw [s.memWrite_data v hd, hb, if_pos rfl]; exact s.latchedError_raise 3 _

/-- Settles O9: the accepted word is latched, and the unit's turn is the next event. -/
theorem fetchWordRunsNext : Obligations.FetchWordRunsNext := by
  intro s nbits w i h
  rw [s.withFetchWord_eq h, step_cons rfl]
  exact unitTurn_running (s := s.accept _) rfl (decodeWord_of_decodeTableWord h)

/-- Settles O16: both resets give the same state after a reset, and every such state has its control registers reset. -/
theorem resetLeavesControlRegisters : Obligations.ResetLeavesControlRegisters := by
  refine ⟨controlReset_afterReset 0 0 [] [], rfl, fun s v hv => ?_⟩
  rw [State.memWrite_ctrl, s.writeCtrl_reset hv]
  exact ⟨rfl, controlReset_afterReset _ _ _ _, rfl, rfl, rfl⟩

/-- Settles O19: the read word, and the two branches of a write. -/
theorem ctrlHoldsIeAndResets : Obligations.CtrlHoldsIeAndResets := by
  intro s v
  rw [State.memRead_ctrl, s.ctrlWord_eq, State.memWrite_ctrl]
  exact ⟨rfl, fun h => by rw [s.writeCtrl_reset h]; exact ⟨rfl, rfl⟩, s.writeCtrl_ie⟩

/-- Settles O21: each way of clearing irq sets IE to 0, or DONE and ERR. -/
theorem irqFollowsIeDoneErr : Obligations.IrqFollowsIeDoneErr := by
  intro s
  refine ⟨by simp [State.irq], ?_, fun v hr hi => ?_, fun w i hb hd => ?_, rfl⟩
  · rw [State.memWrite_status, State.writeStatus_eq]; simp [State.irq]
  · rw [State.memWrite_ctrl, s.writeCtrl_ie hr, hi]; rfl
  · rw [State.memWrite_cmd, s.offer_legal hb hd]; rfl

end Sys2Proof.Laws
end

section
/-! PROOFS. The coordinates of a register at infinity are never looked at: two states that agree but for such coordinates
read the same operands, so every command makes the same update in both (spec/10_state.md R26). -/

namespace Sys2Proof.Machine

/-- Two updates that keep the control registers keep them equal. -/
theorem ControlKept.transport {s s' t t' : State} (h : ControlKept s s') (ht : ControlKept s t) (ht' : ControlKept s' t') :
    ControlKept t t' where
  cmd := ht'.cmd.trans (h.cmd.trans ht.cmd.symm)
  err := ht'.err.trans (h.err.trans ht.err.symm)
  errcode := ht'.errcode.trans (h.errcode.trans ht.errcode.symm)
  errinfo := ht'.errinfo.trans (h.errinfo.trans ht.errinfo.symm)
  ie := ht'.ie.trans (h.ie.trans ht.ie.symm)
  pending := ht'.pending.trans (h.pending.trans ht.pending.symm)
  answers := ht'.answers.trans (h.answers.trans ht.answers.symm)
  portDraws := ht'.portDraws.trans (h.portDraws.trans ht.portDraws.symm)

theorem ControlKept.ofTick (s : State) : ControlKept s s.tick :=
  ⟨Eq.refl _, Eq.refl _, Eq.refl _, Eq.refl _, Eq.refl _, Eq.refl _, Eq.refl _, Eq.refl _⟩

theorem ControlKept.setFlags (s : State) (fl : Flags) : ControlKept s { s with flags := fl } :=
  ⟨Eq.refl _, Eq.refl _, Eq.refl _, Eq.refl _, Eq.refl _, Eq.refl _, Eq.refl _, Eq.refl _⟩

namespace SameButInfCoordinates

variable {s s' : State}

/-! The operands read the same. -/

theorem readF (h : SameButInfCoordinates s s') (i : FReg) : s.readF i = s'.readF i := by
  rw [State.readF, State.readF, h.f]

theorem readW (h : SameButInfCoordinates s s') (i : WReg) : s.readW i = s'.readW i := by
  rw [State.readW, State.readW, h.w]

/-- A register at infinity has the value INF whatever its coordinates; any other is the same register in both states. -/
theorem readA (h : SameButInfCoordinates s s') (i : AReg) : s.readA i = s'.readA i := by
  unfold State.readA
  cases hi : (s.a.get i).inf with
  | false => rw [h.a i hi]
  | true => rw [AffineReg.value, AffineReg.value, ← h.aInf i, hi, if_pos rfl, if_pos rfl]

theorem readJ (h : SameButInfCoordinates s s') (i : JReg) : s.readJ i = s'.readJ i := by
  unfold State.readJ
  cases hi : (s.j.get i).inf with
  | false => rw [h.j i hi]
  | true => rw [JacobianReg.value, JacobianReg.value, ← h.jInf i, hi, if_pos rfl, if_pos rfl]

theorem drawField (h : SameButInfCoordinates s s') (k : Nat) : s.drawField k = s'.drawField k := by
  rw [State.drawField, State.drawField, h.draws]

/-! The same update of both states keeps them the same. -/

theorem writeF (h : SameButInfCoordinates s s') (i : FReg) (v : U256) :
    SameButInfCoordinates (s.writeF i v) (s'.writeF i v) :=
  { f := by rw [State.writeF_f, State.writeF_f, h.f]
    w := h.w, aInf := h.aInf, a := h.a, jInf := h.jInf, j := h.j, flags := h.flags, latch := h.latch, done := h.done
    draws := h.draws
    control := h.control.transport (FrameF.writeF i s v).control (FrameF.writeF i s' v).control }

theorem writeW (h : SameButInfCoordinates s s') (i : WReg) (v : U512) :
    SameButInfCoordinates (s.writeW i v) (s'.writeW i v) :=
  { w := by rw [State.writeW_w, State.writeW_w, h.w]
    f := h.f, aInf := h.aInf, a := h.a, jInf := h.jInf, j := h.j, flags := h.flags, latch := h.latch, done := h.done
    draws := h.draws
    control := h.control.transport (FrameW.writeW i s v).control (FrameW.writeW i s' v).control }

theorem setA (h : SameButInfCoordinates s s') (i : AReg) (r : AffineReg) :
    SameButInfCoordinates (s.setA i r) (s'.setA i r) :=
  { f := h.f, w := h.w
    aInf := fun k => by
      rw [State.setA_a, State.setA_a]
      obtain rfl | hk := eq_or_ne k i
      · rw [get_set_same, get_set_same]
      · rw [get_set_ne _ hk, get_set_ne _ hk]; exact h.aInf k
    a := fun k => by
      rw [State.setA_a, State.setA_a]
      obtain rfl | hk := eq_or_ne k i
      · rw [get_set_same, get_set_same]; exact fun _ => rfl
      · rw [get_set_ne _ hk, get_set_ne _ hk]; exact h.a k
    jInf := h.jInf, j := h.j, flags := h.flags, latch := h.latch, done := h.done, draws := h.draws
    control := h.control.transport (FrameA.setA i s r).control (FrameA.setA i s' r).control }

theorem setJ (h : SameButInfCoordinates s s') (i : JReg) (r : JacobianReg) :
    SameButInfCoordinates (s.setJ i r) (s'.setJ i r) :=
  { f := h.f, w := h.w, aInf := h.aInf, a := h.a
    jInf := fun k => by
      rw [State.setJ_j, State.setJ_j]
      obtain rfl | hk := eq_or_ne k i
      · rw [get_set_same, get_set_same]
      · rw [get_set_ne _ hk, get_set_ne _ hk]; exact h.jInf k
    j := fun k => by
      rw [State.setJ_j, State.setJ_j]
      obtain rfl | hk := eq_or_ne k i
      · rw [get_set_same, get_set_same]; exact fun _ => rfl
      · rw [get_set_ne _ hk, get_set_ne _ hk]; exact h.j k
    flags := h.flags, latch := h.latch, done := h.done, draws := h.draws
    control := h.control.transport (FrameJ.setJ i s r).control (FrameJ.setJ i s' r).control }

theorem setFlags (h : SameButInfCoordinates s s') (fl : Flags) :
    SameButInfCoordinates { s with flags := fl } { s' with flags := fl } :=
  { f := h.f, w := h.w, aInf := h.aInf, a := h.a, jInf := h.jInf, j := h.j, flags := rfl, latch := h.latch, done := h.done
    draws := h.draws
    control := h.control.transport (.setFlags s fl) (.setFlags s' fl) }

theorem tick (h : SameButInfCoordinates s s') : SameButInfCoordinates s.tick s'.tick :=
  { f := h.f, w := h.w, aInf := h.aInf, a := h.a, jInf := h.jInf, j := h.j, flags := h.flags, latch := h.latch
    done := h.done
    draws := by rw [State.tick_draws, State.tick_draws, h.draws]
    control := h.control.transport (.ofTick s) (.ofTick s') }

theorem retire (h : SameButInfCoordinates s s') : SameButInfCoordinates s.retire s'.retire :=
  { f := h.f, w := h.w, aInf := h.aInf, a := h.a, jInf := h.jInf, j := h.j, flags := h.flags, latch := rfl, done := rfl
    draws := h.draws
    control := h.control.transport ControlKept.rfl.retire ControlKept.rfl.retire }

theorem drawF (h : SameButInfCoordinates s s') (i : FReg) : SameButInfCoordinates (s.drawF i) (s'.drawF i) := by
  rw [State.drawF, State.drawF, h.draws]
  exact (h.writeF i _).tick

theorem drawA (h : SameButInfCoordinates s s') (i : AReg) : SameButInfCoordinates (s.drawA i) (s'.drawA i) := by
  rw [State.drawA, State.drawA, h.drawField, h.drawField, h.draws]
  exact (h.setA i _).tick

theorem drawJ (h : SameButInfCoordinates s s') (i : JReg) : SameButInfCoordinates (s.drawJ i) (s'.drawJ i) := by
  rw [State.drawJ, State.drawJ, h.drawField, h.drawField, h.drawField, h.draws]
  exact (h.setJ i _).tick

theorem writeA (h : SameButInfCoordinates s s') (i : AReg) (v : AffineValue) :
    SameButInfCoordinates (s.writeA i v) (s'.writeA i v) := by
  cases v with
  | point x y => exact h.setA i _
  | inf =>
    rw [State.writeA, State.writeA, h.drawField, h.drawField]
    exact (h.setA i _).tick

theorem writeJ (h : SameButInfCoordinates s s') (i : JReg) (v : JacobianValue) :
    SameButInfCoordinates (s.writeJ i v) (s'.writeJ i v) := by
  cases v with
  | point x y z => exact h.setJ i _
  | inf =>
    rw [State.writeJ, State.writeJ, h.drawField, h.drawField, h.drawField]
    exact (h.setJ i _).tick

/-- A completion with the same result; equal draw counters give the same answer to whether it hangs (log entry 1). -/
theorem complete {α : Type} (h : SameButInfCoordinates s s') {write : State → α → State} {draw : State → State}
    (hw : ∀ v, SameButInfCoordinates (write s v) (write s' v)) (hd : SameButInfCoordinates (draw s) (draw s'))
    (r : Result α) : SameButInfCoordinates (s.complete write draw r) (s'.complete write draw r) := by
  cases r with
  | value v => exact (hw v).retire
  | anyValue => exact hd.retire
  | never => exact h
  | anyValueOrNever =>
    rw [State.complete, State.complete, h.draws]
    split
    · exact h
    · exact hd.retire

theorem completeF (h : SameButInfCoordinates s s') (rd : FReg) (r : Result U256) :
    SameButInfCoordinates (s.completeF rd r) (s'.completeF rd r) := h.complete (h.writeF rd) (h.drawF rd) r

theorem completeA (h : SameButInfCoordinates s s') (rd : AReg) (r : Result AffineValue) :
    SameButInfCoordinates (s.completeA rd r) (s'.completeA rd r) := h.complete (h.writeA rd) (h.drawA rd) r

theorem completeJ (h : SameButInfCoordinates s s') (rd : JReg) (r : Result JacobianValue) :
    SameButInfCoordinates (s.completeJ rd r) (s'.completeJ rd r) := h.complete (h.writeJ rd) (h.drawJ rd) r

theorem completeW (h : SameButInfCoordinates s s') (rd : WReg) (v : U512) :
    SameButInfCoordinates (s.completeW rd v) (s'.completeW rd v) := (h.writeW rd v).retire

theorem completeFC (h : SameButInfCoordinates s s') (rd : FReg) (r : U256 × Bool) :
    SameButInfCoordinates (s.completeFC rd r) (s'.completeFC rd r) := by
  rw [State.completeFC, State.completeFC, h.flags]
  exact ((h.setFlags _).writeF rd r.1).retire

end SameButInfCoordinates

end Sys2Proof.Machine

namespace Sys2Proof.Laws

open Sys2Proof.Machine

/-- Settles O60: the sources read the same in both states, so each command completes both with the same result. -/
theorem infinityCoordinatesIrrelevant : Obligations.InfinityCoordinatesIrrelevant := by
  intro i s s' h
  cases i with
  | cmp a b =>
    refine ⟨_, _, exec_cmp s a b, exec_cmp s' a b, ?_⟩
    rw [h.readF, h.readF, h.flags]
    exact (h.setFlags _).retire
  | shr1 | add | sub => refine ⟨_, _, rfl, rfl, ?_⟩; simp only [h.readF]; exact h.completeFC _ _
  | addmod | submod | mulmod | sqrmod | inv | montred =>
    refine ⟨_, _, rfl, rfl, ?_⟩
    simp only [h.readF, h.readW]
    exact h.completeF _ _
  | fred rd a =>
    refine ⟨_, _, exec_fred s rd a, exec_fred s' rd a, ?_⟩
    rw [h.draws, h.readW]
    exact h.tick.completeF rd _
  | mulfull | mulfullps | sqrfull => refine ⟨_, _, rfl, rfl, ?_⟩; simp only [h.readF]; exact h.completeW _ _
  | a2j | dblj | addja => refine ⟨_, _, rfl, rfl, ?_⟩; simp only [h.readA, h.readJ]; exact h.completeJ _ _
  | j2a | addaff | dblaff | smulltr | smulrtl | smulwin | smulbit =>
    refine ⟨_, _, rfl, rfl, ?_⟩
    simp only [h.readF, h.readA, h.readJ]
    exact h.completeA _ _

end Sys2Proof.Laws
end

section
/-! PROOFS. The entries of the two tables are the multiples of G that R33 and R34 give. That none of them but entry 0 is
infinity rests on n times G being the identity, which left-to-right multiplication computes, and on n being coprime to
every multiplier of the tables (spec/10_state.md R30, R33, R34). -/

namespace Sys2Proof.Laws

open Sys2Proof.Machine

/-- Infinity stands for the identity alone. -/
theorem AffineValue.eq_inf_iff {q : AffineValue} {P : curve.Point} (h : q.StandsFor P) : q = .inf ↔ P = 0 := by
  cases q <;> cases P
  · exact ⟨fun _ => rfl, fun _ => rfl⟩
  · cases h
  · cases h
  · exact ⟨fun e => (nomatch e), fun e => (nomatch e)⟩

theorem JacobianValue.eq_zero_of_inf {P : curve.Point} (h : JacobianValue.inf.StandsFor P) : P = 0 := by
  cases P with
  | zero => rfl
  | some X Y hn => cases h

/-- SMULLTR's loop on n and G ends at infinity, as the spec's vector VS6 says. -/
theorem ltrLoop_order : ltrLoop (BitVec.ofNat 256 Config.n) baseG 256 .inf = .inf := by decide +kernel

theorem order_toNat : (BitVec.ofNat 256 Config.n).toNat = Config.n := by decide

/-- n has no factor below 256. -/
theorem coprime_order_of_lt {v : Nat} (h0 : v ≠ 0) (hv : v < 256) : Nat.Coprime v Config.n :=
  have h : Nat.Coprime (Nat.factorial 255) Config.n := by decide +kernel
  h.coprime_dvd_left (Nat.dvd_factorial (Nat.pos_of_ne_zero h0) (by omega))

theorem coprime_order_two_pow (i : Nat) : Nat.Coprime (2 ^ i) Config.n := Nat.Coprime.pow_left i (by decide)

/-- Entry i of a chain stands for the i-th of any sequence of points that the chain's function follows. -/
theorem pointChain_standsFor {next : AffineValue → Option AffineValue} {P : Nat → curve.Point}
    (hnext : ∀ i q, q.StandsFor (P i) → ∃ r, next q = some r ∧ r.StandsFor (P (i + 1))) (len : Nat) {q : AffineValue}
    (hq : q.StandsFor (P 0)) : ∀ i < len, ∃ r, (pointChain next len q)[i]? = some r ∧ r.StandsFor (P i) := by
  cases len with
  | zero => exact fun i hi => absurd hi (Nat.not_lt_zero i)
  | succ len =>
    intro i
    induction i with
    | zero => exact fun _ => ⟨q, by rw [pointChain, List.getElem?_cons_zero], hq⟩
    | succ i ih =>
      intro hi
      obtain ⟨r, hr, hs⟩ := ih (by omega)
      rw [pointChain_getElem len i q (by omega), hr, Option.bind_some]
      exact hnext i r hs

variable [Fact (Nat.Prime Config.p)]

/-- The loop of SMULLTR over the low i bits of k, from an accumulator that stands for A: 2^i times A, and (k mod 2^i)
times the base (R191). -/
theorem ltrLoop_standsFor (k : U256) {base : AffineValue} {B : curve.Point} (hb : base.StandsFor B) :
    ∀ (i : Nat) {acc : JacobianValue} {A : curve.Point}, acc.StandsFor A →
      (ltrLoop k base i acc).StandsFor (2 ^ i • A + (k.toNat % 2 ^ i) • B) := by
  intro i
  induction i with
  | zero => intro acc A h; rw [Nat.pow_zero, one_nsmul, Nat.mod_one, zero_nsmul, add_zero]; exact h
  | succ i ih =>
    intro acc A h
    have hd := dblj_standsFor h
    rw [ltrLoop, Nat.mod_pow_succ, ← Nat.toNat_testBit, pow_succ', mul_nsmul, two_nsmul]
    cases hk : k.getLsbD i with
    | false =>
      have hbit : k.toNat.testBit i = false := hk
      simpa [hbit] using ih hd
    | true =>
      have hbit : k.toNat.testBit i = true := hk
      have hs := ih (addja_standsFor hd hb)
      rw [nsmul_add, add_assoc, ← add_nsmul, Nat.add_comm (2 ^ i)] at hs
      simpa [hbit] using hs

/-- A multiple whose loop ends at infinity is the identity. -/
theorem smul_eq_zero_of_ltrLoop {k : U256} {base : AffineValue} {B : curve.Point} (hb : base.StandsFor B) {i : Nat}
    (hi : k.toNat < 2 ^ i) (h : ltrLoop k base i .inf = .inf) : k.toNat • B = 0 := by
  have hs := ltrLoop_standsFor k hb i (acc := .inf) (A := 0) trivial
  rw [h, Nat.mod_eq_of_lt hi, nsmul_zero, zero_add] at hs
  exact JacobianValue.eq_zero_of_inf hs

/-- n times G is the identity (R30). -/
theorem order_smul_baseG {G : curve.Point} (hG : baseG.StandsFor G) : Config.n • G = 0 := by
  have h := smul_eq_zero_of_ltrLoop hG (BitVec.isLt _) ltrLoop_order
  rwa [order_toNat] at h

/-- A multiple of G by a number coprime to n is not the identity, or G itself would be. -/
theorem smul_baseG_ne_zero {G : curve.Point} (hG : baseG.StandsFor G) {m : Nat} (hm : Nat.Coprime m Config.n) : m • G ≠ 0 := by
  intro h0
  have hdvd : addOrderOf G ∣ Nat.gcd m Config.n :=
    Nat.dvd_gcd (addOrderOf_dvd_of_nsmul_eq_zero h0) (addOrderOf_dvd_of_nsmul_eq_zero (order_smul_baseG hG))
  rw [hm, Nat.dvd_one, AddMonoid.addOrderOf_eq_one_iff] at hdvd
  exact AffineValue.noConfusion ((AffineValue.eq_inf_iff hG).2 hdvd)

/-- Entry v of the window table is v times G (R33). -/
theorem windowTable_standsFor {G : curve.Point} (hG : baseG.StandsFor G) {v : Nat} (hv : v < 256) :
    ∃ q, windowTableLTR[v]? = some q ∧ q.StandsFor (v • G) :=
  pointChain_standsFor (P := fun v => v • G) (fun i q hq => by rw [succ_nsmul]; exact addaff_standsFor hq hG) 256
    (by rw [zero_nsmul]; trivial) v hv

/-- Entry i of the bit table is 2^i times G (R34). -/
theorem bitTable_standsFor {G : curve.Point} (hG : baseG.StandsFor G) {i : Nat} (hi : i < 256) :
    ∃ q, bitTableRTL[i]? = some q ∧ q.StandsFor (2 ^ i • G) :=
  pointChain_standsFor (P := fun i => 2 ^ i • G)
    (fun i q hq => by rw [pow_succ', mul_nsmul', two_nsmul]; exact dblaff_standsFor hq) 256
    (by rw [pow_zero, one_nsmul]; exact hG) i hi

end Sys2Proof.Laws

namespace Sys2Proof.Laws

open Sys2Proof.Machine

/-- Settles O57: the entries stand for the multiples, and an entry is infinity only where the multiple is the identity. -/
theorem tableEntriesAreMultiples : Obligations.TableEntriesAreMultiples := by
  intro _ G hG
  refine ⟨windowTable_spec.1, bitTable_spec.1, fun v hv => ?_, fun i hi => ?_⟩
  · obtain ⟨q, hq, hs⟩ := windowTable_standsFor hG hv
    refine ⟨q, hq, hs, (AffineValue.eq_inf_iff hs).trans ⟨fun h0 => ?_, fun h0 => by rw [h0, zero_nsmul]⟩⟩
    by_contra hne
    exact smul_baseG_ne_zero hG (coprime_order_of_lt hne hv) h0
  · obtain ⟨q, hq, hs⟩ := bitTable_standsFor hG hi
    exact ⟨q, hq, hs, fun e => smul_baseG_ne_zero hG (coprime_order_two_pow i) ((AffineValue.eq_inf_iff hs).1 e)⟩

end Sys2Proof.Laws
end

section
/-! PROOFS. The map of the window read in both directions: the slot of each region's words, the region of each word, and
the ranges that hold none (spec/20_memory.md R61, R64 to R70). -/

namespace Sys2Proof.Machine

/-! The word numbers of each region. -/

theorem fin_ofNat_eq {n : Nat} [NeZero n] {k : Nat} {i : Fin n} (h : k % n = i.val) : Fin.ofNat n k = i := Fin.ext h

theorem slotOfWord_control {k : Nat} (h : k < 0x040) : slotOfWord k = controlSlot k := by
  rw [slotOfWord, if_pos h]

theorem slotOfWord_const (c j : Fin 8) : slotOfWord (0x040 + 8 * c.val + j.val) = constSlot c.val j := by
  rw [slotOfWord, if_neg (by omega), if_pos (by omega), fin_ofNat_eq (i := j) (by omega)]
  congr 1
  omega

theorem slotOfWord_f (i j : Fin 8) : slotOfWord (0x080 + 8 * i.val + j.val) = .f i j := by
  rw [slotOfWord, if_neg (by omega), if_neg (by omega), if_pos (by omega), fin_ofNat_eq (i := i) (by omega),
    fin_ofNat_eq (i := j) (by omega)]

theorem slotOfWord_w (i : Fin 8) (j : Fin 16) : slotOfWord (0x100 + 16 * i.val + j.val) = .w i j := by
  rw [slotOfWord, if_neg (by omega), if_neg (by omega), if_neg (by omega), if_neg (by omega), if_pos (by omega),
    fin_ofNat_eq (i := i) (by omega), fin_ofNat_eq (i := j) (by omega)]

theorem slotOfWord_gap {k : Nat} (h : 0x0C0 ≤ k ∧ k < 0x100 ∨ 0x180 ≤ k ∧ k < 0x200) : slotOfWord k = .unmapped := by
  obtain h | h := h
  · rw [slotOfWord, if_neg (by omega), if_neg (by omega), if_neg (by omega), if_pos (by omega)]
  · rw [slotOfWord, if_neg (by omega), if_neg (by omega), if_neg (by omega), if_neg (by omega), if_neg (by omega),
      if_pos (by omega)]

theorem slotOfWord_affine (i : Fin 8) (part : Fin 4) (j : Fin 8) :
    slotOfWord (0x200 + 32 * i.val + 8 * part.val + j.val) = affineSlot i part.val j := by
  rw [slotOfWord, if_neg (by omega), if_neg (by omega), if_neg (by omega), if_neg (by omega), if_neg (by omega),
    if_neg (by omega), if_pos (by omega), fin_ofNat_eq (i := i) (by omega), fin_ofNat_eq (i := j) (by omega)]
  congr 1
  omega

theorem slotOfWord_jacobian (i : Fin 8) (part : Fin 4) (j : Fin 8) :
    slotOfWord (0x300 + 32 * i.val + 8 * part.val + j.val) = jacobianSlot i part.val j := by
  rw [slotOfWord, if_neg (by omega), if_neg (by omega), if_neg (by omega), if_neg (by omega), if_neg (by omega),
    if_neg (by omega), if_neg (by omega), fin_ofNat_eq (i := i) (by omega), fin_ofNat_eq (i := j) (by omega)]
  congr 1
  omega

/-- Where the map gives a slot an offset, the port finds that slot. -/
theorem slotOfWord_of_offset {slot : Slot} {n : Nat} (h : slot.offset = some n) : slotOfWord (n / 4) = slot := by
  cases slot <;> simp only [Slot.offset, Option.some.injEq, reduceCtorEq] at h
  case id | cmd | status | ctrl | flags | errinfo => subst h; rfl
  case const c j =>
    cases c <;> simp only [ConstReg.offset] at h
    · exact (congrArg slotOfWord (by omega)).trans (slotOfWord_const 0 j)
    · exact (congrArg slotOfWord (by omega)).trans (slotOfWord_const 1 j)
    · exact (congrArg slotOfWord (by omega)).trans (slotOfWord_const 2 j)
    · exact (congrArg slotOfWord (by omega)).trans (slotOfWord_const 3 j)
    · exact (congrArg slotOfWord (by omega)).trans (slotOfWord_const 4 j)
    · exact (congrArg slotOfWord (by omega)).trans (slotOfWord_const 5 j)
  case f i j => exact (congrArg slotOfWord (by omega)).trans (slotOfWord_f i j)
  case w i j => exact (congrArg slotOfWord (by omega)).trans (slotOfWord_w i j)
  case ax i j => exact (congrArg slotOfWord (by omega)).trans (slotOfWord_affine i 0 j)
  case ay i j => exact (congrArg slotOfWord (by omega)).trans (slotOfWord_affine i 1 j)
  case ainf i => exact (congrArg slotOfWord (by omega)).trans (slotOfWord_affine i 2 0)
  case jx i j => exact (congrArg slotOfWord (by omega)).trans (slotOfWord_jacobian i 0 j)
  case jy i j => exact (congrArg slotOfWord (by omega)).trans (slotOfWord_jacobian i 1 j)
  case jz i j => exact (congrArg slotOfWord (by omega)).trans (slotOfWord_jacobian i 2 j)
  case jinf i => exact (congrArg slotOfWord (by omega)).trans (slotOfWord_jacobian i 3 0)

/-- The word numbers of the ranges that the map calls unmapped (R64, R65, R68 to R70). -/
def UnmappedWord (k : Nat) : Prop :=
  (0x006 ≤ k ∧ k < 0x040) ∨ (0x070 ≤ k ∧ k < 0x080) ∨ (0x0C0 ≤ k ∧ k < 0x100) ∨ (0x180 ≤ k ∧ k < 0x200) ∨
  (0x200 ≤ k ∧ k < 0x300 ∧ 16 < k % 32) ∨ (0x300 ≤ k ∧ 24 < k % 32)

/-- Word k holds no slot and lies in an unmapped range, or holds the slot whose offset is 4·k and lies in none. -/
def PlacedAt (k : Nat) (slot : Slot) : Prop :=
  UnmappedWord k ∧ slot = .unmapped ∨ ¬UnmappedWord k ∧ slot.offset = some (4 * k)

theorem PlacedAt.mapped {k n : Nat} {slot : Slot} (ho : slot.offset = some n) (hk : n = 4 * k) (hu : ¬UnmappedWord k) :
    PlacedAt k slot := Or.inr ⟨hu, ho.trans (congrArg some hk)⟩

theorem placedAt_control {k : Nat} (h : k < 0x040) : PlacedAt k (controlSlot k) := by
  by_cases hk : k < 6
  · interval_cases k <;> exact .mapped rfl rfl (by unfold UnmappedWord; omega)
  · obtain ⟨m, rfl⟩ := Nat.exists_eq_add_of_le' (Nat.le_of_not_lt hk)
    exact Or.inl ⟨Or.inl ⟨by omega, h⟩, rfl⟩

theorem placedAt_const (c j : Fin 8) : PlacedAt (0x040 + 8 * c.val + j.val) (constSlot c.val j) := by
  match c with
  | 0 | 1 | 2 | 3 | 4 | 5 =>
    exact .mapped rfl (by simp only [ConstReg.offset]; omega) (by unfold UnmappedWord; omega)
  | 6 | 7 => exact Or.inl ⟨Or.inr (Or.inl (by omega)), rfl⟩

theorem placedAt_affine (i : Fin 8) (part : Fin 4) (j : Fin 8) :
    PlacedAt (0x200 + 32 * i.val + 8 * part.val + j.val) (affineSlot i part.val j) := by
  match part with
  | 0 | 1 => exact .mapped rfl (by omega) (by unfold UnmappedWord; omega)
  | 2 =>
    by_cases hj : j = 0
    · subst hj; exact .mapped rfl (by omega) (by unfold UnmappedWord; omega)
    · exact Or.inl ⟨by unfold UnmappedWord; omega, if_neg hj⟩
  | 3 => exact Or.inl ⟨by unfold UnmappedWord; omega, rfl⟩

theorem placedAt_jacobian (i : Fin 8) (part : Fin 4) (j : Fin 8) :
    PlacedAt (0x300 + 32 * i.val + 8 * part.val + j.val) (jacobianSlot i part.val j) := by
  match part with
  | 0 | 1 | 2 => exact .mapped rfl (by omega) (by unfold UnmappedWord; omega)
  | 3 =>
    by_cases hj : j = 0
    · subst hj; exact .mapped rfl (by omega) (by unfold UnmappedWord; omega)
    · exact Or.inl ⟨by unfold UnmappedWord; omega, if_neg hj⟩

/-- Every word of the window lies in one of the regions. -/
theorem word_region {k : Nat} (hk : k < 0x400) :
    k < 0x040 ∨ (∃ c j : Fin 8, k = 0x040 + 8 * c.val + j.val) ∨ (∃ i j : Fin 8, k = 0x080 + 8 * i.val + j.val) ∨
    (0x0C0 ≤ k ∧ k < 0x100 ∨ 0x180 ≤ k ∧ k < 0x200) ∨
    (∃ (i : Fin 8) (j : Fin 16), k = 0x100 + 16 * i.val + j.val) ∨
    (∃ (i : Fin 8) (part : Fin 4) (j : Fin 8), k = 0x200 + 32 * i.val + 8 * part.val + j.val) ∨
    ∃ (i : Fin 8) (part : Fin 4) (j : Fin 8), k = 0x300 + 32 * i.val + 8 * part.val + j.val := by
  obtain h | h | h | h | h | h | h : k < 0x040 ∨ (0x040 ≤ k ∧ k < 0x080) ∨ (0x080 ≤ k ∧ k < 0x0C0) ∨
      (0x0C0 ≤ k ∧ k < 0x100 ∨ 0x180 ≤ k ∧ k < 0x200) ∨ (0x100 ≤ k ∧ k < 0x180) ∨ (0x200 ≤ k ∧ k < 0x300) ∨ 0x300 ≤ k := by
    omega
  · exact .inl h
  · exact .inr (.inl ⟨⟨k / 8 - 8, by omega⟩, ⟨k % 8, by omega⟩, by simp only; omega⟩)
  · exact .inr (.inr (.inl ⟨⟨k / 8 - 16, by omega⟩, ⟨k % 8, by omega⟩, by simp only; omega⟩))
  · exact .inr (.inr (.inr (.inl h)))
  · exact .inr (.inr (.inr (.inr (.inl ⟨⟨k / 16 - 16, by omega⟩, ⟨k % 16, by omega⟩, by simp only; omega⟩))))
  · exact .inr (.inr (.inr (.inr (.inr (.inl
      ⟨⟨k / 32 - 16, by omega⟩, ⟨k / 8 % 4, by omega⟩, ⟨k % 8, by omega⟩, by simp only; omega⟩)))))
  · exact .inr (.inr (.inr (.inr (.inr (.inr
      ⟨⟨k / 32 - 24, by omega⟩, ⟨k / 8 % 4, by omega⟩, ⟨k % 8, by omega⟩, by simp only; omega⟩)))))

/-- The region of each word says where its slot lies. -/
theorem placedAt_slotOfWord {k : Nat} (hk : k < 0x400) : PlacedAt k (slotOfWord k) := by
  obtain h | ⟨i, j, rfl⟩ | ⟨i, j, rfl⟩ | h | ⟨i, j, rfl⟩ | ⟨i, part, j, rfl⟩ | ⟨i, part, j, rfl⟩ := word_region hk
  · rw [slotOfWord_control h]; exact placedAt_control h
  · rw [slotOfWord_const]; exact placedAt_const i j
  · rw [slotOfWord_f]; exact .mapped rfl (by omega) (by unfold UnmappedWord; omega)
  · rw [slotOfWord_gap h]; exact Or.inl ⟨by unfold UnmappedWord; omega, rfl⟩
  · rw [slotOfWord_w]; exact .mapped rfl (by omega) (by unfold UnmappedWord; omega)
  · rw [slotOfWord_affine]; exact placedAt_affine i part j
  · rw [slotOfWord_jacobian]; exact placedAt_jacobian i part j

theorem slotOfWord_eq_unmapped_iff {k : Nat} (hk : k < 0x400) : slotOfWord k = .unmapped ↔ UnmappedWord k := by
  obtain ⟨hu, h⟩ | ⟨hu, h⟩ := placedAt_slotOfWord hk
  · exact iff_of_true h hu
  · refine iff_of_false (fun e => ?_) hu
    rw [e] at h; cases h

/-- A slot has the offset of word k exactly when it is the one that word holds. -/
theorem offset_eq_iff {k : Nat} (hk : k < 0x400) (slot : Slot) :
    slot.offset = some (4 * k) ↔ slotOfWord k = slot ∧ slot ≠ .unmapped := by
  constructor
  · intro h
    have e := slotOfWord_of_offset h
    rw [Nat.mul_div_cancel_left k (by decide)] at e
    exact ⟨e, fun hu => by rw [hu] at h; cases h⟩
  · rintro ⟨rfl, hne⟩
    obtain ⟨-, h⟩ | ⟨-, h⟩ := placedAt_slotOfWord hk
    · exact absurd h hne
    · exact h

theorem Slot.offset_lt {slot : Slot} {n : Nat} (h : slot.offset = some n) : n < 0x1000 := by
  cases slot <;> simp only [Slot.offset, Option.some.injEq, reduceCtorEq] at h
  case const c j => cases c <;> simp only [ConstReg.offset] at h <;> omega
  all_goals omega

theorem slotAt_ofNat {slot : Slot} {n : Nat} (h : slot.offset = some n) : slotAt (BitVec.ofNat 12 n) = slot := by
  rw [slotAt, BitVec.toNat_ofNat, Nat.mod_eq_of_lt (Slot.offset_lt h), slotOfWord_of_offset h]

end Sys2Proof.Machine

namespace Sys2Proof.Laws

open Sys2Proof.Machine

/-- Settles O22: an aligned offset is four times its word number, and `offset_eq_iff` and `slotOfWord_eq_unmapped_iff`
speak of that word. -/
theorem windowMapPlacesEveryWord : Obligations.WindowMapPlacesEveryWord := by
  intro off hoff
  have hk : off.toNat / 4 < 0x400 := by omega
  have hoff4 : 4 * (off.toNat / 4) = off.toNat := Nat.mul_div_cancel' (Nat.dvd_of_mod_eq_zero hoff)
  refine ⟨fun slot => ?_, ?_⟩
  · rw [slotAt, ← offset_eq_iff hk slot, hoff4]
  · rw [slotAt, slotOfWord_eq_unmapped_iff hk, UnmappedWord]
    constructor
    · rintro (h | h | h | h | ⟨i, h⟩ | ⟨i, h⟩) <;> omega
    · rintro (h | h | h | h | h | h)
      · exact .inl (by omega)
      · exact .inr (.inl (by omega))
      · exact .inr (.inr (.inl (by omega)))
      · exact .inr (.inr (.inr (.inl (by omega))))
      · exact .inr (.inr (.inr (.inr (.inl ⟨⟨off.toNat / 0x80 - 16, by omega⟩, by simp only; omega⟩))))
      · exact .inr (.inr (.inr (.inr (.inr ⟨⟨off.toNat / 0x80 - 24, by omega⟩, by simp only; omega⟩))))

end Sys2Proof.Laws
end

section
/-! PROOFS. The words of the window: what a read of one returns and what a write to one does, by the offset the map gives
it; and the bytes of a register, least significant first (spec/20_memory.md R62, R63, R65 to R70, R73). -/

namespace Sys2Proof.Machine

/-! Limbs. -/

/-- Limb j of the value that n stands for. -/
theorem limb_ofNat {width j : Nat} (n : Nat) (h : 32 * (j + 1) ≤ width) :
    limb (BitVec.ofNat width n) j = BitVec.ofNat 32 (n / 2 ^ (32 * j)) := by
  apply BitVec.eq_of_getLsbD_eq
  intro i hi
  have hbit : 32 * j + i < width := by omega
  simp only [limb, BitVec.getLsbD_extractLsb', BitVec.getLsbD_ofNat, Nat.testBit_div_two_pow, hi, hbit, decide_true,
    Bool.true_and, Nat.add_comm i]

/-- Limb j of the integer a sequence of limbs stands for. -/
theorem limbsToNat_limb : ∀ (l : List Word) (j : Nat) (h : j < l.length),
    BitVec.ofNat 32 (limbsToNat l / 2 ^ (32 * j)) = l[j] := by
  intro l
  induction l with
  | nil => exact fun j h => absurd h (Nat.not_lt_zero j)
  | cons x rest ih =>
    intro j h
    rw [limbsToNat]
    cases j with
    | zero =>
      apply BitVec.eq_of_toNat_eq
      rw [Nat.mul_zero, Nat.pow_zero, Nat.div_one, BitVec.toNat_ofNat, Nat.add_mul_mod_self_left, Nat.mod_eq_of_lt x.isLt]
      rfl
    | succ j =>
      rw [Nat.mul_succ, Nat.add_comm _ 32, Nat.pow_add, ← Nat.div_div_eq_div_mul, Nat.add_mul_div_left _ _ (by decide),
        Nat.div_eq_of_lt x.isLt, Nat.zero_add]
      exact ih j (Nat.lt_of_succ_lt_succ h)

/-- The limbs of a register's value are the register's limbs. -/
theorem FixedReg.limb_value (r : FixedReg) (j : Fin 8) : limb r.value j.val = r.get j := by
  rw [FixedReg.value, limb_ofNat _ (by omega), limbsToNat_limb _ _ (by simp)]
  simp [Vector.get_eq_getElem]

theorem DoubleReg.limb_value (r : DoubleReg) (j : Fin 16) : limb r.value j.val = r.get j := by
  rw [DoubleReg.value, limb_ofNat _ (by omega), limbsToNat_limb _ _ (by simp)]
  simp [Vector.get_eq_getElem]

/-- Byte k of a value is byte k mod 4 of its limb k div 4 (R63). -/
theorem byteOfLimb_limb {width : Nat} (v : BitVec width) (k : Nat) :
    byteOfLimb (limb v (k / 4)) (k % 4) = v.extractLsb' (8 * k) 8 := by
  apply BitVec.eq_of_getLsbD_eq
  intro i hi
  have hbit : 32 * (k / 4) + (8 * (k % 4) + i) = 8 * k + i := by omega
  simp only [byteOfLimb, limb, BitVec.getLsbD_extractLsb', hbit, hi, show 8 * (k % 4) + i < 32 by omega]
  simp

/-- An INF word is 1 or 0 (R68, R69). -/
theorem infWord_eq (v : Bool) : infWord v = if v then 1 else 0 := by
  cases v <;> rfl

variable (s : State)

/-! Words by their offsets. -/

/-- A read of a data word answers a draw while BUSY, and advances the port's counter alone (R73). -/
theorem State.memRead_busy_data {off : Offset} (hb : s.busy = true) (hd : (slotAt off).isData = true) :
    s.memRead off = (Config.draw32 s.portDraws, s.tickPort) := by
  rw [State.memRead, hb, hd, Bool.and_self, if_pos rfl]

variable {s}

/-- While idle a mapped word reads its slot. -/
theorem State.memRead_idle (hb : s.busy = false) {slot : Slot} {n : Nat} (ho : slot.offset = some n) :
    s.memRead (BitVec.ofNat 12 n) = (s.readSlot slot, s) := by
  rw [State.memRead, hb, Bool.false_and, if_neg Bool.false_ne_true, slotAt_ofNat ho]

/-- While idle a data word is read at its offset and stored there (R66 to R69). -/
theorem State.dataWord_idle (hb : s.busy = false) {slot : Slot} {n : Nat} (ho : slot.offset = some n)
    (hd : slot.isData = true) (v : Word) :
    s.memRead (BitVec.ofNat 12 n) = (s.readSlot slot, s) ∧ s.memWrite (BitVec.ofNat 12 n) v = s.storeSlot v slot := by
  rw [s.memWrite_data v (by rwa [slotAt_ofNat ho]), hb, if_neg Bool.false_ne_true, slotAt_ofNat ho]
  exact ⟨State.memRead_idle hb ho, rfl⟩

variable (s)

/-- An unmapped offset reads 0 and ignores writes (R70). -/
theorem State.access_unmapped {off : Offset} (h : slotAt off = .unmapped) (v : Word) :
    s.memRead off = (0, s) ∧ s.memWrite off v = s := by
  refine ⟨?_, ?_⟩
  · rw [s.memRead_of_not_data (by rw [h]; rfl), h]; rfl
  · apply s.memWrite_ignored v <;> rw [h] <;> simp [Slot.isData]

theorem State.access_unmappedWord {n : Nat} (hn : n < 0x1000) (hu : UnmappedWord (n / 4)) (v : Word) :
    s.memRead (BitVec.ofNat 12 n) = (0, s) ∧ s.memWrite (BitVec.ofNat 12 n) v = s := by
  apply s.access_unmapped
  rw [slotAt, BitVec.toNat_ofNat, Nat.mod_eq_of_lt hn, slotOfWord_eq_unmapped_iff (by omega)]
  exact hu

/-- The words that only read ignore writes (R65, R70). -/
theorem State.memWrite_readOnly {off : Offset}
    (h : slotAt off = .id ∨ slotAt off = .flags ∨ slotAt off = .errinfo ∨ ∃ c j, slotAt off = .const c j) (v : Word) :
    s.memWrite off v = s := by
  obtain e | e | e | ⟨c, j, e⟩ := h <;> apply s.memWrite_ignored v <;> rw [e] <;> simp [Slot.isData]

/-- A constant's word reads its limb in any state and ignores writes (R65). -/
theorem State.access_const (c : ConstReg) (j : Fin 8) (v : Word) :
    s.memRead (BitVec.ofNat 12 (c.offset + 4 * j.val)) = (limb c.value j.val, s) ∧
    s.memWrite (BitVec.ofNat 12 (c.offset + 4 * j.val)) v = s := by
  have e : slotAt (BitVec.ofNat 12 (c.offset + 4 * j.val)) = .const c j := slotAt_ofNat rfl
  exact ⟨by rw [s.memRead_of_not_data (by rw [e]; rfl), e]; rfl,
    s.memWrite_readOnly (Or.inr (Or.inr (Or.inr ⟨c, j, e⟩))) v⟩

/-! Bytes. -/

/-- The byte of word j at place k is byte k of what the aligned read of that word returns. -/
theorem State.windowByte_ofNat {j k : Nat} (hj : j < 0x400) (hk : k < 4) :
    s.windowByte (BitVec.ofNat 12 (4 * j + k)) = byteOfLimb (s.memRead (BitVec.ofNat 12 (4 * j))).1 k := by
  have hn : (BitVec.ofNat 12 (4 * j + k)).toNat = 4 * j + k := by rw [BitVec.toNat_ofNat]; omega
  rw [State.windowByte, wordOffset, hn, show (4 * j + k) / 4 = j by omega, show (4 * j + k) % 4 = k by omega]

variable {s}

/-- While idle the bytes from an aligned base on are those of the value whose limbs stand in the words from there on,
least significant first (R63). -/
theorem State.windowByte_value (hb : s.busy = false) {base count width : Nat} {v : BitVec width} {slot : Fin count → Slot}
    (hbase : base % 4 = 0) (ho : ∀ j, (slot j).offset = some (base + 4 * j.val))
    (hv : ∀ j, limb v j.val = s.readSlot (slot j)) {k : Nat} (hk : k < 4 * count) :
    s.windowByte (BitVec.ofNat 12 (base + k)) = v.extractLsb' (8 * k) 8 := by
  have hj := ho ⟨k / 4, by omega⟩
  have hlt := Slot.offset_lt hj
  dsimp only at hj hlt
  rw [show base + k = 4 * (base / 4 + k / 4) + k % 4 by omega, s.windowByte_ofNat (by omega) (by omega),
    show 4 * (base / 4 + k / 4) = base + 4 * (k / 4) by omega, State.memRead_idle hb hj, ← hv, byteOfLimb_limb]

end Sys2Proof.Machine

namespace Sys2Proof.Laws

open Sys2Proof.Machine

/-- Settles O24: each word is read and written by the slot at its offset. -/
theorem registerWordsReadAndWritten : Obligations.RegisterWordsReadAndWritten := by
  intro s i v hb
  have word {slot : Slot} {n : Nat} (ho : slot.offset = some n) (hd : slot.isData = true) :=
    State.dataWord_idle hb ho hd v
  refine ⟨fun j => word (slot := .f i j) rfl rfl, fun j => word (slot := .w i j) rfl rfl, fun j => ?_, ?_, ?_, fun k => ?_,
    fun j => ?_, ?_, ?_, fun k => ?_⟩
  · obtain ⟨hrx, hwx⟩ := word (slot := .ax i j) rfl rfl
    obtain ⟨hry, hwy⟩ := word (slot := .ay i j) rfl rfl
    exact ⟨hrx, hry, hwx, hwy⟩
  · rw [(word (slot := .ainf i) rfl rfl).1, State.readSlot, infWord_eq]
  · exact (word (slot := .ainf i) rfl rfl).2
  · exact s.access_unmappedWord (by omega) (by unfold UnmappedWord; omega) v
  · obtain ⟨hrx, hwx⟩ := word (slot := .jx i j) rfl rfl
    obtain ⟨hry, hwy⟩ := word (slot := .jy i j) rfl rfl
    obtain ⟨hrz, hwz⟩ := word (slot := .jz i j) rfl rfl
    exact ⟨hrx, hry, hrz, hwx, hwy, hwz⟩
  · rw [(word (slot := .jinf i) rfl rfl).1, State.readSlot, infWord_eq]
  · exact (word (slot := .jinf i) rfl rfl).2
  · exact s.access_unmappedWord (by omega) (by unfold UnmappedWord; omega) v

/-- Settles O25: a byte is a byte of the aligned read, and a register's words are the limbs of its value. -/
theorem registersAreLittleEndian : Obligations.RegistersAreLittleEndian := by
  refine ⟨fun s j k => s.windowByte_ofNat j.isLt k.isLt, fun s i hb => ⟨fun k => ?_, fun k => ?_, fun k => ?_, fun k => ?_,
    fun k => ?_, fun k => ?_, fun k => ?_⟩⟩
  · exact State.windowByte_value hb (slot := .f i) (by omega) (fun _ => rfl) (FixedReg.limb_value _) k.isLt
  · exact State.windowByte_value hb (slot := .w i) (by omega) (fun _ => rfl) (DoubleReg.limb_value _) k.isLt
  · exact State.windowByte_value hb (slot := .ax i) (by omega) (fun _ => rfl) (FixedReg.limb_value _) k.isLt
  · exact State.windowByte_value hb (slot := .ay i) (by omega) (fun _ => rfl) (FixedReg.limb_value _) k.isLt
  · exact State.windowByte_value hb (slot := .jx i) (by omega) (fun _ => rfl) (FixedReg.limb_value _) k.isLt
  · exact State.windowByte_value hb (slot := .jy i) (by omega) (fun _ => rfl) (FixedReg.limb_value _) k.isLt
  · exact State.windowByte_value hb (slot := .jz i) (by omega) (fun _ => rfl) (FixedReg.limb_value _) k.isLt

/-- Settles O26: by the slot written, and field by field for STATUS and CTRL. -/
theorem unmappedAndReadOnlyIgnoreWrites : Obligations.UnmappedAndReadOnlyIgnoreWrites := by
  intro s off v
  refine ⟨fun h => s.access_unmapped h v, fun h => s.memWrite_readOnly h v, fun h1 h2 => ?_, fun h31 h0 => ?_⟩
  · rw [State.memWrite_status, State.writeStatus_eq, h1, h2]; simp
  · rw [State.memWrite_ctrl, s.writeCtrl_ie h31, h0]

/-- Settles O27: each pair of the list is the offset and the value of a constant. -/
theorem constantsAlwaysReadTrue : Obligations.ConstantsAlwaysReadTrue := by
  intro s v j base value h
  obtain ⟨c, rfl, hv⟩ : ∃ c : ConstReg, c.offset = base ∧ c.value = BitVec.ofNat 256 value := by
    simp only [List.mem_cons, Prod.mk.injEq, List.not_mem_nil, or_false] at h
    obtain ⟨rfl, rfl⟩ | ⟨rfl, rfl⟩ | ⟨rfl, rfl⟩ | ⟨rfl, rfl⟩ | ⟨rfl, rfl⟩ | ⟨rfl, rfl⟩ := h
    · exact ⟨.p, rfl, rfl⟩
    · exact ⟨.gx, rfl, rfl⟩
    · exact ⟨.gy, rfl, rfl⟩
    · exact ⟨.pprime, rfl, rfl⟩
    · exact ⟨.rmodp, rfl, rfl⟩
    · exact ⟨.r2modp, rfl, rfl⟩
  rw [← limb_ofNat (width := 256) value (by omega), ← hv]
  exact s.access_const c j v

/-- Settles O28: the draw is a function of the port's counter, and of nothing else. -/
theorem busyReadsTellNothing : Obligations.BusyReadsTellNothing := by
  intro s off hb
  refine ⟨s.memRead_of_not_data, fun hd => ?_⟩
  rw [s.memRead_busy_data hb hd]
  refine ⟨rfl, fun s' hb' hp => ?_⟩
  rw [s'.memRead_busy_data hb' hd, hp]

end Sys2Proof.Laws
end

section
/-! PROOFS. Host accesses beside a running command: which events are answered, and what no access short of a reset
disturbs (spec/20_memory.md R62, R73; spec/60_exceptions.md R211, R214, R216). -/

namespace Sys2Proof.Machine

variable {s t u : State}

/-! Which events are answered. -/

theorem handleEvent_refused {e : HostEvent} (h : e.wellFormed = false) (s : State) :
    handleEvent e s = .refused .accessNotExpressible := by
  cases e with
  | read off size =>
    exact (host_access_refused s 0 fun hw => ne_true_of_eq_false h ((accessWellFormed_iff off size).2 hw)).1
  | write off size v =>
    exact (host_access_refused s v fun hw => ne_true_of_eq_false h ((accessWellFormed_iff off size).2 hw)).2
  | unitTurn | hwReset => cases h

/-- An access the port can express is answered, in any state (R62). -/
theorem access_answered {e : HostEvent} (ha : e.isAccess = true) (h : e.wellFormed = true) (s : State) :
    ∃ t, handleEvent e s = .next t := by
  cases e with
  | read off size => exact ⟨_, hostRead_wellFormed s h⟩
  | write off size v => exact ⟨_, hostWrite_wellFormed s v h⟩
  | unitTurn | hwReset => cases ha

/-- With the invariant the unit's turn ends in a state: a latched word decodes, and no command stops (R210, R211). -/
theorem unitTurn_answered (h : Inv s) : ∃ t, unitTurn s = .next t := by
  cases hl : s.latch with
  | none => exact ⟨s, unitTurn_idle hl⟩
  | some w =>
    obtain ⟨-, ⟨i, hd⟩, -⟩ := h.latched w hl
    obtain ⟨t, e, -⟩ := exec_frame i s
    exact ⟨t, (unitTurn_running hl hd).trans e⟩

/-- With the invariant only an access the port cannot express stops the machine (R62, R214). -/
theorem handleEvent_answered (h : Inv s) {e : HostEvent} (he : e.wellFormed = true) :
    ∃ t, handleEvent e s = .next t := by
  cases e with
  | read | write => exact access_answered rfl he s
  | unitTurn => exact unitTurn_answered h
  | hwReset => exact ⟨_, rfl⟩

/-! What an access leaves alone. -/

theorem CommandUndisturbed.refl (s : State) : CommandUndisturbed s s := ⟨rfl, rfl, rfl, rfl, rfl, rfl, rfl, rfl⟩

theorem CommandUndisturbed.trans (h : CommandUndisturbed s t) (h' : CommandUndisturbed t u) : CommandUndisturbed s u :=
  ⟨h'.f.trans h.f, h'.w.trans h.w, h'.a.trans h.a, h'.j.trans h.j, h'.flags.trans h.flags, h'.latch.trans h.latch,
    h'.cmd.trans h.cmd, h'.draws.trans h.draws⟩

theorem CommandUndisturbed.setPending (s : State) (ps : List HostEvent) : CommandUndisturbed s { s with pending := ps } :=
  ⟨rfl, rfl, rfl, rfl, rfl, rfl, rfl, rfl⟩

theorem CommandUndisturbed.busy (h : CommandUndisturbed s t) : t.busy = s.busy := congrArg Option.isSome h.latch

theorem CommandUndisturbed.raise (s : State) (code : BitVec 4) (info : Word) : CommandUndisturbed s (s.raise code info) := by
  obtain ⟨-, e⟩ | ⟨-, e⟩ := s.raise_cases code info <;> rw [e] <;> exact ⟨rfl, rfl, rfl, rfl, rfl, rfl, rfl, rfl⟩

/-- While BUSY no write but a reset reaches the running command (R216). -/
theorem CommandUndisturbed.memWrite (hb : s.busy = true) {off : Offset} {size : Nat} {v : Word}
    (hr : (HostEvent.write off size v).resets = false) : CommandUndisturbed s (s.memWrite off v) := by
  obtain ⟨-, e⟩ | ⟨-, e⟩ | ⟨hs, e⟩ | ⟨-, -, e⟩ | ⟨-, hn, -⟩ | ⟨-, -, -, -, e⟩ := s.memWrite_cases off v
  · obtain ⟨-, e'⟩ | ⟨hn, -⟩ | ⟨hn, -⟩ := s.offer_cases v
    · rw [e, e']; exact .raise s _ _
    · exact absurd (hn.symm.trans hb) Bool.false_ne_true
    · exact absurd (hn.symm.trans hb) Bool.false_ne_true
  · rw [e, State.writeStatus_eq]; exact ⟨rfl, rfl, rfl, rfl, rfl, rfl, rfl, rfl⟩
  · have hv : v.getLsbD 31 = false := by simpa [HostEvent.resets, hs] using hr
    rw [e, s.writeCtrl_ie hv]; exact ⟨rfl, rfl, rfl, rfl, rfl, rfl, rfl, rfl⟩
  · rw [e]; exact .raise s _ _
  · exact absurd (hn.symm.trans hb) Bool.false_ne_true
  · rw [e]; exact .refl s

/-- An access short of a reset does not disturb a running command, and leaves what is still pending (R216). -/
theorem access_undisturbed (hb : s.busy = true) {e : HostEvent} (ha : e.isAccess = true) (hr : e.resets = false)
    (he : handleEvent e s = .next t) : CommandUndisturbed s t ∧ t.pending = s.pending := by
  obtain ⟨n, xs, rfl⟩ | ⟨off, size, v, rfl, rfl⟩ | ⟨rfl, -⟩ | ⟨rfl, -⟩ | ⟨rfl, -⟩ := handleEvent_next he
  · exact ⟨⟨rfl, rfl, rfl, rfl, rfl, rfl, rfl, rfl⟩, rfl⟩
  · exact ⟨.memWrite hb hr, s.memWrite_pending off v⟩
  · cases ha
  · cases ha
  · cases ha

/-- One step while BUSY, the next event being such an access: it takes the event off the list and disturbs nothing. -/
theorem step_access_undisturbed (hb : s.busy = true) {e : HostEvent} {rest : List HostEvent} (hl : s.pending = e :: rest)
    (ha : e.isAccess = true) (hw : e.wellFormed = true) (hr : e.resets = false) :
    ∃ t, step s = .next t ∧ CommandUndisturbed s t ∧ t.pending = rest := by
  obtain ⟨t, he⟩ := access_answered ha hw { s with pending := rest }
  obtain ⟨ht, hp⟩ := access_undisturbed (s := { s with pending := rest }) hb ha hr he
  exact ⟨t, (step_cons hl).trans he, (CommandUndisturbed.setPending s rest).trans ht, hp⟩

end Sys2Proof.Machine

namespace Sys2Proof.Laws

open Sys2Proof.Machine

/-- Settles O12, by induction on the number of accesses: each is answered and leaves the command alone, so the unit is
still busy at the next. -/
theorem runningCommandUndisturbed : Obligations.RunningCommandUndisturbed := by
  intro k
  induction k with
  | zero => exact fun s _ _ _ => ⟨s, Runs.zero s, .refl s, rfl⟩
  | succ k ih =>
    intro s hb hk hp
    cases hl : s.pending with
    | nil => rw [hl] at hk; exact absurd hk (Nat.not_succ_le_zero k)
    | cons e rest =>
      rw [hl] at hk hp
      obtain ⟨ha, hw, hr⟩ := hp e List.mem_cons_self
      obtain ⟨u, hs, hu, hpend⟩ := step_access_undisturbed hb hl ha hw hr
      obtain ⟨t, hrun, ht, hdrop⟩ := ih u (hu.busy.trans hb) (by rw [hpend]; exact Nat.le_of_succ_le_succ hk)
        (by rw [hpend]; exact fun d hd => hp d (List.mem_cons_of_mem e hd))
      exact ⟨t, hrun.cons hs, hu.trans ht, by rw [hdrop, hpend, List.drop_succ_cons]⟩

/-- Settles O33: an event is answered if it is well formed, and refused, not faulted, if not; with nothing pending the next
event is the unit's turn, which is well formed. -/
theorem stepsOnlyRefuseIllFormedAccesses : Obligations.StepsOnlyRefuseIllFormedAccesses := by
  intro s h
  rw [step_eq_handleEvent]
  cases hw : s.nextEvent.wellFormed with
  | true =>
    have hpop : Inv s.popEvent := h.setOutside s.portDraws s.pending.tail s.answers
    obtain ⟨t, e⟩ := handleEvent_answered hpop hw
    rw [e]
    exact ⟨fun _ hf => (nomatch hf), fun _ hf => (nomatch hf)⟩
  | false =>
    rw [handleEvent_refused hw]
    refine ⟨fun _ hf => (nomatch hf), fun _ _ => ?_⟩
    obtain hh | ⟨-, hh⟩ := nextEvent_pending_or_unitTurn s
    · exact ⟨_, hh, hw⟩
    · rw [hh] at hw; cases hw

end Sys2Proof.Laws
end

section
/-! PROOFS. The fields of a command word by arithmetic, and the format test as a statement about the fields: a word passes
exactly when it is the word made of its own fields (spec/30_encoding.md R91, R92). -/

namespace Sys2Proof

/-! The fields of a word. -/

theorem opcOf_eq_extract (w : Word) : opcOf w = (w.extractLsb' 24 8).toNat := by
  rw [opcOf, BitVec.extractLsb'_toNat, Nat.shiftRight_eq_div_pow]
  omega

theorem rdOf_eq_extract (w : Word) : (rdOf w).val = (w.extractLsb' 20 3).toNat := by
  rw [BitVec.extractLsb'_toNat, Nat.shiftRight_eq_div_pow]; rfl

theorem rs1Of_eq_extract (w : Word) : (rs1Of w).val = (w.extractLsb' 16 3).toNat := by
  rw [BitVec.extractLsb'_toNat, Nat.shiftRight_eq_div_pow]; rfl

theorem rs2Of_eq_extract (w : Word) : (rs2Of w).val = (w.extractLsb' 12 3).toNat := by
  rw [BitVec.extractLsb'_toNat, Nat.shiftRight_eq_div_pow]; rfl

/-- The word of R91 with 0 in the field a format does not use (R92). -/
def Format.word (fmt : Format) (opc : Nat) (rd rs1 rs2 : Fin 8) : Word :=
  packWord opc (if fmt = .c2 then 0 else rd.val) rs1.val (if fmt = .r2 then 0 else rs2.val)

/-- The operands a format has, destination first (R92). -/
def Format.operands : Format → Nat → Nat → Nat → List Nat
  | .r3, rd, rs1, rs2 => [rd, rs1, rs2]
  | .r2, rd, rs1, _ => [rd, rs1]
  | .c2, _, rs1, rs2 => [rs1, rs2]

theorem packWord_toNat {opc rd rs1 rs2 : Nat} (hopc : opc < 256) (hrd : rd < 8) (h1 : rs1 < 8) (h2 : rs2 < 8) :
    (packWord opc rd rs1 rs2).toNat = opc * 2 ^ 24 + rd * 2 ^ 20 + rs1 * 2 ^ 16 + rs2 * 2 ^ 12 := by
  rw [packWord, BitVec.toNat_ofNat]
  omega

/-- The decoder's fields of a packed word are the fields packed (R91). -/
theorem fields_packWord {opc rd rs1 rs2 : Nat} (hopc : opc < 256) (hrd : rd < 8) (h1 : rs1 < 8) (h2 : rs2 < 8) :
    opcOf (packWord opc rd rs1 rs2) = opc ∧ (rdOf (packWord opc rd rs1 rs2)).val = rd ∧
    (rs1Of (packWord opc rd rs1 rs2)).val = rs1 ∧ (rs2Of (packWord opc rd rs1 rs2)).val = rs2 := by
  simp only [opcOf, rdOf, rs1Of, rs2Of, Fin.ofNat, packWord_toNat hopc hrd h1 h2]
  omega

section
variable (fmt : Format) (rd rs1 rs2 : Fin 8)

theorem Format.rd_lt : (if fmt = .c2 then 0 else rd.val) < 8 := by split <;> omega

theorem Format.rs2_lt : (if fmt = .r2 then 0 else rs2.val) < 8 := by split <;> omega

theorem Format.word_toNat {opc : Nat} (h : opc < 256) :
    (fmt.word opc rd rs1 rs2).toNat = opc * 2 ^ 24 + (if fmt = .c2 then 0 else rd.val) * 2 ^ 20 + rs1.val * 2 ^ 16 +
      (if fmt = .r2 then 0 else rs2.val) * 2 ^ 12 :=
  packWord_toNat h (fmt.rd_lt rd) rs1.isLt (fmt.rs2_lt rs2)

/-- The decoder's fields of a format's word are the fields it was made of, as far as the format uses them (R91, R92). -/
theorem Format.fields_word {opc : Nat} (h : opc < 256) :
    opcOf (fmt.word opc rd rs1 rs2) = opc ∧ (fmt ≠ .c2 → rdOf (fmt.word opc rd rs1 rs2) = rd) ∧
    rs1Of (fmt.word opc rd rs1 rs2) = rs1 ∧ (fmt ≠ .r2 → rs2Of (fmt.word opc rd rs1 rs2) = rs2) := by
  obtain ⟨hopc, hrd, h1, h2⟩ := fields_packWord h (fmt.rd_lt rd) rs1.isLt (fmt.rs2_lt rs2)
  exact ⟨hopc, fun hc => Fin.ext (hrd.trans (if_neg hc)), Fin.ext h1, fun hr => Fin.ext (h2.trans (if_neg hr))⟩

/-- The fields a format does not use do not matter. -/
theorem Format.word_congr {rd' rs2' : Fin 8} (hrd : fmt ≠ .c2 → rd' = rd) (h2 : fmt ≠ .r2 → rs2' = rs2) (opc : Nat) :
    fmt.word opc rd' rs1 rs2' = fmt.word opc rd rs1 rs2 := by
  unfold Format.word
  congr 1
  · split
    · rfl
    · rw [hrd ‹_›]
  · split
    · rfl
    · rw [h2 ‹_›]

end

/-! The format test. -/

/-- Digits of a bitwise AND are taken digit by digit. -/
theorem and_digit (x m k n : Nat) : (x &&& m) / 2 ^ k % 2 ^ n = (x / 2 ^ k % 2 ^ n) &&& (m / 2 ^ k % 2 ^ n) := by
  rw [Nat.and_div_two_pow, Nat.and_mod_two_pow]

theorem matchOf_toNat {opc : Nat} (h : opc < 256) : (matchOf opc).toNat = opc * 2 ^ 24 := by
  rw [matchOf, BitVec.toNat_ofNat]
  omega

theorem opcOf_lt (w : Word) : opcOf w < 256 := by
  have := w.isLt
  unfold opcOf
  omega

/-- The digits of a word that the format's mask lets through: the opcode, and bit 3 of a used field's digit or the whole
digit of an unused one. -/
theorem and_mask_digits (fmt : Format) (w : Word) :
    (w &&& fmt.mask).toNat / 2 ^ 24 = opcOf w ∧
    (w &&& fmt.mask).toNat / 2 ^ 20 % 2 ^ 4 = w.toNat / 2 ^ 20 % 2 ^ 4 &&& (if fmt = .c2 then 15 else 8) ∧
    (w &&& fmt.mask).toNat / 2 ^ 16 % 2 ^ 4 = w.toNat / 2 ^ 16 % 2 ^ 4 &&& 8 ∧
    (w &&& fmt.mask).toNat / 2 ^ 12 % 2 ^ 4 = w.toNat / 2 ^ 12 % 2 ^ 4 &&& (if fmt = .r2 then 15 else 8) ∧
    (w &&& fmt.mask).toNat % 2 ^ 12 = w.toNat % 2 ^ 12 := by
  have hopc : w.toNat / 2 ^ 24 &&& 2 ^ 8 - 1 = opcOf w := by
    rw [Nat.and_two_pow_sub_one_eq_mod, ← opcOf, Nat.mod_eq_of_lt (opcOf_lt w)]
  have hlow : w.toNat % 2 ^ 12 &&& 2 ^ 12 - 1 = w.toNat % 2 ^ 12 := by
    rw [Nat.and_two_pow_sub_one_eq_mod, Nat.mod_mod]
  rw [BitVec.toNat_and, and_digit, and_digit, and_digit, Nat.and_div_two_pow, Nat.and_mod_two_pow]
  cases fmt <;> exact ⟨hopc, rfl, rfl, rfl, hlow⟩

/-- A number is made of its digits: those above bit 24, three of four bits, and the low twelve bits. -/
theorem sum_digits (x : Nat) :
    x / 2 ^ 24 * 2 ^ 24 + x / 2 ^ 20 % 2 ^ 4 * 2 ^ 20 + x / 2 ^ 16 % 2 ^ 4 * 2 ^ 16 + x / 2 ^ 12 % 2 ^ 4 * 2 ^ 12 +
      x % 2 ^ 12 = x := by
  omega

/-- The must-be-zero part of a field's digit and the index in its lower three bits make up the digit. -/
theorem and_eight_add_mod_eight (x k : Nat) :
    (x / 2 ^ k % 2 ^ 4 &&& 8) + x / 2 ^ k % 8 = x / 2 ^ k % 2 ^ 4 := by
  have h : ∀ d < 16, (d &&& 8) + d % 8 = d := by decide
  rw [← Nat.mod_mod_of_dvd (x / 2 ^ k) (show 8 ∣ 2 ^ 4 by decide)]
  exact h _ (Nat.mod_lt _ (by decide))

/-- Of a field that the format does not use the whole digit must be zero (R92). -/
theorem mustBeZero_add_field (unused : Prop) [Decidable unused] (x k : Nat) :
    (x / 2 ^ k % 2 ^ 4 &&& (if unused then 15 else 8)) + (if unused then 0 else x / 2 ^ k % 8) = x / 2 ^ k % 2 ^ 4 := by
  split
  · rw [Nat.and_two_pow_sub_one_eq_mod _ 4, Nat.mod_mod, Nat.add_zero]
  · exact and_eight_add_mod_eight x k

/-- A sum of digits without its fields is the opcode alone exactly when the fields alone are the whole sum: both say that
the rest is 0. -/
theorem masked_digits_eq_iff (o d d' a a' b b' l : Nat) :
    o * 2 ^ 24 + d * 2 ^ 20 + a * 2 ^ 16 + b * 2 ^ 12 + l = o * 2 ^ 24 ↔
    o * 2 ^ 24 + d' * 2 ^ 20 + a' * 2 ^ 16 + b' * 2 ^ 12 =
      o * 2 ^ 24 + (d + d') * 2 ^ 20 + (a + a') * 2 ^ 16 + (b + b') * 2 ^ 12 + l := by
  omega

/-- A word passes the format test exactly when it is the word of its own fields in that format (R91, R92): each digit is
its must-be-zero part plus its field, and both sides say that the must-be-zero parts are 0. -/
theorem and_mask_eq_iff (fmt : Format) (w : Word) :
    w &&& fmt.mask = matchOf (opcOf w) ↔ fmt.word (opcOf w) (rdOf w) (rs1Of w) (rs2Of w) = w := by
  obtain ⟨hopc, hrd, h1, h2, hlow⟩ := and_mask_digits fmt w
  have hmasked := sum_digits (w &&& fmt.mask).toNat
  have hword := sum_digits w.toNat
  have hd := mustBeZero_add_field (fmt = .c2) w.toNat 20
  have ha := and_eight_add_mod_eight w.toNat 16
  have hb := mustBeZero_add_field (fmt = .r2) w.toNat 12
  rw [hopc, hrd, h1, h2, hlow] at hmasked
  rw [← opcOf, ← hd, ← ha, ← hb] at hword
  rw [← BitVec.toNat_inj, matchOf_toNat (opcOf_lt w), ← BitVec.toNat_inj, Format.word_toNat (h := opcOf_lt w)]
  exact (Eq.congr_left hmasked.symm).trans ((masked_digits_eq_iff ..).trans (Eq.congr_right hword))

/-- The word made of a format's fields passes its format test (R92). -/
theorem Format.word_and_mask {opc : Nat} (h : opc < 256) (fmt : Format) (rd rs1 rs2 : Fin 8) :
    fmt.word opc rd rs1 rs2 &&& fmt.mask = matchOf opc := by
  obtain ⟨hopc, hrd, h1, h2⟩ := fmt.fields_word rd rs1 rs2 h
  have hw := and_mask_eq_iff fmt (fmt.word opc rd rs1 rs2)
  rw [hopc, h1] at hw
  exact hw.2 (fmt.word_congr rd rs1 rs2 hrd h2 opc)

/-- A word that passes a format test with some opcode has that opcode. -/
theorem opcOf_of_and_mask {fmt : Format} {w : Word} {opc : Nat} (h : opc < 256) (hw : w &&& fmt.mask = matchOf opc) :
    opcOf w = opc := by
  obtain ⟨hopc, -⟩ := and_mask_digits fmt w
  rw [← hopc, hw, matchOf_toNat h, Nat.mul_div_cancel _ (by decide)]

/-- Below the opcode a word that passes its format test has only zeros under the mask. -/
theorem mustBeZero_of_and_mask {w m : Word} {opc : Nat} (h : opc < 256) (hw : w &&& m = matchOf opc) :
    w &&& m &&& 0x00FFFFFF#32 = 0 := by
  rw [hw, ← BitVec.toNat_inj, BitVec.toNat_and, matchOf_toNat h]
  exact (Nat.and_two_pow_sub_one_eq_mod _ 24).trans (Nat.mul_mod_left _ _)

end Sys2Proof
end

section
/-! PROOFS. What the decoder can do with a word, said once, and that decoder and encoder are inverse to each other
(spec/30_encoding.md R92, R95 to R98). -/

namespace Sys2Proof

theorem checkFormat_pass {fmt : Format} {w : Word} (h : w &&& fmt.mask = matchOf (opcOf w)) (i : Instr) :
    checkFormat fmt w i = .ok i := if_pos h

theorem checkFormat_fail {fmt : Format} {w : Word} (h : w &&& fmt.mask ≠ matchOf (opcOf w)) (i : Instr) :
    checkFormat fmt w i = .error .mustBeZero := if_neg h

/-- The command has this opcode, this format and these fields, as far as the format uses them (R91, R92, R95). -/
structure Instr.HasFields (i : Instr) (opc : Nat) (fmt : Format) (rd rs1 rs2 : Fin 8) : Prop where
  row_eq : i.row = (opc, fmt)
  operands_eq : i.operands = fmt.operands rd rs1 rs2
  encode_eq : encode i = fmt.word opc rd rs1 rs2

/-- Everything the decoder can do: it knows no such opcode, or it puts the command of the opcode, with the fields of the
word, to its format's test (R96). -/
theorem decodeWord_cases (w : Word) :
    (opcOf w ∉ opcodeRows.map Prod.fst ∧ decodeWord w = .error .unknownOpcode) ∨
    ∃ fmt i, (opcOf w, fmt) ∈ opcodeRows ∧ i.HasFields (opcOf w) fmt (rdOf w) (rs1Of w) (rs2Of w) ∧
      decodeWord w = checkFormat fmt w i := by
  have known {opc : Nat} {fmt : Format} {i : Instr} (hopc : opcOf w = opc) (hmem : (opc, fmt) ∈ opcodeRows)
      (hi : i.HasFields opc fmt (rdOf w) (rs1Of w) (rs2Of w)) :
      ∃ fmt' i', (opcOf w, fmt') ∈ opcodeRows ∧ i'.HasFields (opcOf w) fmt' (rdOf w) (rs1Of w) (rs2Of w) ∧
        checkFormat fmt w i = checkFormat fmt' w i' := ⟨fmt, i, hopc ▸ hmem, hopc ▸ hi, rfl⟩
  unfold decodeWord
  split
  case h_25 => exact Or.inl ⟨by simp_all [opcodeRows], rfl⟩
  all_goals exact Or.inr (known ‹_› (by decide) ⟨rfl, rfl, rfl⟩)

/-- No two rows of the map share an opcode (R95). -/
theorem format_unique {opc : Nat} {fmt fmt' : Format} (h : (opc, fmt) ∈ opcodeRows) (h' : (opc, fmt') ∈ opcodeRows) :
    fmt = fmt' :=
  congrArg Prod.snd (List.inj_on_of_nodup_map Laws.opcodes_nodup h h' rfl)

theorem opcode_lt {row : Nat × Format} (h : row ∈ opcodeRows) : row.1 < 256 := by
  revert row
  decide

theorem decodeWord_of_not_mem {w : Word} (h : opcOf w ∉ opcodeRows.map Prod.fst) : decodeWord w = .error .unknownOpcode := by
  obtain ⟨-, e⟩ | ⟨fmt, -, hmem, -⟩ := decodeWord_cases w
  · exact e
  · exact absurd (List.mem_map_of_mem hmem) h

theorem decodeWord_of_mem {w : Word} {fmt : Format} (h : (opcOf w, fmt) ∈ opcodeRows) :
    ∃ i : Instr, i.HasFields (opcOf w) fmt (rdOf w) (rs1Of w) (rs2Of w) ∧ decodeWord w = checkFormat fmt w i := by
  obtain ⟨hno, -⟩ | ⟨fmt', i, hmem, hi, e⟩ := decodeWord_cases w
  · exact absurd (List.mem_map_of_mem h) hno
  · cases format_unique h hmem
    exact ⟨i, hi, e⟩

/-- A word that passes its format's test is the command of its opcode with its fields (R96). -/
theorem decodeWord_pass {w : Word} {fmt : Format} (h : (opcOf w, fmt) ∈ opcodeRows)
    (hm : w &&& fmt.mask = matchOf (opcOf w)) :
    ∃ i : Instr, i.HasFields (opcOf w) fmt (rdOf w) (rs1Of w) (rs2Of w) ∧ decodeWord w = .ok i := by
  obtain ⟨i, hi, e⟩ := decodeWord_of_mem h
  exact ⟨i, hi, e.trans (checkFormat_pass hm i)⟩

theorem decodeWord_fail {w : Word} {fmt : Format} (h : (opcOf w, fmt) ∈ opcodeRows)
    (hm : w &&& fmt.mask ≠ matchOf (opcOf w)) : decodeWord w = .error .mustBeZero := by
  obtain ⟨i, -, e⟩ := decodeWord_of_mem h
  exact e.trans (checkFormat_fail hm i)

/-- What is known of a word that decodes (R92, R96). -/
theorem decodeWord_ok {w : Word} {i : Instr} (h : decodeWord w = .ok i) :
    ∃ fmt, (opcOf w, fmt) ∈ opcodeRows ∧ w &&& fmt.mask = matchOf (opcOf w) ∧
      i.HasFields (opcOf w) fmt (rdOf w) (rs1Of w) (rs2Of w) := by
  obtain ⟨-, e⟩ | ⟨fmt, j, hmem, hj, e⟩ := decodeWord_cases w
  · cases e.symm.trans h
  · by_cases hm : w &&& fmt.mask = matchOf (opcOf w)
    · cases (e.trans (checkFormat_pass hm j)).symm.trans h
      exact ⟨fmt, hmem, hm, hj⟩
    · cases (e.trans (checkFormat_fail hm j)).symm.trans h

/-! The round trip. -/

/-- A command's word is its format's word of some fields, and the decoder answers any word of the command's opcode with these
fields by putting the command to its format's test (R91, R96). -/
theorem encode_fields (i : Instr) :
    ∃ rd rs1 rs2, encode i = i.row.2.word i.row.1 rd rs1 rs2 ∧
      ∀ w, opcOf w = i.row.1 → (i.row.2 ≠ .c2 → rdOf w = rd) → rs1Of w = rs1 → (i.row.2 ≠ .r2 → rs2Of w = rs2) →
        decodeWord w = checkFormat i.row.2 w i := by
  cases i with
  | cmp a b =>
    refine ⟨0, a, b, rfl, fun w hopc _ h1 h2 => ?_⟩
    rw [decodeWord, hopc, h1, h2 nofun]; rfl
  | shr1 d a | sqrfull d a | fred d a | montred d a | sqrmod d a | inv d a | a2j d a | j2a d a | dblaff d a | dblj d a
  | smulwin d a | smulbit d a =>
    refine ⟨d, a, 0, rfl, fun w hopc hrd h1 _ => ?_⟩
    rw [decodeWord, hopc, hrd nofun, h1]; rfl
  | add d a b | sub d a b | addmod d a b | submod d a b | mulfull d a b | mulfullps d a b | mulmod d a b | addaff d a b
  | addja d a b | smulltr d a b | smulrtl d a b =>
    refine ⟨d, a, b, rfl, fun w hopc hrd h1 h2 => ?_⟩
    rw [decodeWord, hopc, hrd nofun, h1, h2 nofun]; rfl

theorem decodeWord_encode (i : Instr) : decodeWord (encode i) = .ok i := by
  obtain ⟨rd, rs1, rs2, hword, hdec⟩ := encode_fields i
  have hlt := opcode_lt (Laws.row_mem i)
  obtain ⟨hopc, hrd, h1, h2⟩ := i.row.2.fields_word rd rs1 rs2 hlt
  have hm := i.row.2.word_and_mask hlt rd rs1 rs2
  rw [hword, hdec _ hopc hrd h1 h2]
  exact checkFormat_pass (hopc.symm ▸ hm) i

theorem encode_of_decodeWord {w : Word} {i : Instr} (h : decodeWord w = .ok i) : encode i = w := by
  obtain ⟨fmt, -, hm, hi⟩ := decodeWord_ok h
  exact hi.encode_eq.trans ((and_mask_eq_iff fmt w).1 hm)

theorem decodeTableWord_toNat (w : Word) : decodeTableWord 32 w.toNat = (decodeWord w).toOption := by
  simp only [decodeTableWord, Nat.mod_eq_of_lt w.isLt, w.isLt, if_true, BitVec.ofNat_toNat, BitVec.setWidth_eq]

end Sys2Proof

namespace Sys2Proof.Machine

theorem State.offer_illegal (s : State) {w : Word} {r : Reject} (hb : s.busy = false) (hd : decodeWord w = .error r) :
    s.offer w = s.raise 1 w := by
  simp only [State.offer, hb, hd, Bool.false_eq_true, if_false]

theorem State.raise_done (s : State) (code : BitVec 4) (info : Word) : (s.raise code info).done = s.done := by
  obtain ⟨-, e⟩ | ⟨-, e⟩ := s.raise_cases code info <;> rw [e]

end Sys2Proof.Machine

namespace Sys2Proof.Laws

open Sys2Proof.Machine

/-- Settles O2: a command's word has the command's fields and passes its format's test; a word that passes the test is the
word of its own fields. -/
theorem decodeAndEncodeAgree : Obligations.DecodeAndEncodeAgree := by
  refine ⟨fun i _ => ⟨decodeWord_encode i, ?_⟩, fun w i h => ⟨encode_of_decodeWord h, wellFormed i⟩⟩
  rw [decodeTableWord_toNat, decodeWord_encode]; rfl

/-- Settles O3: the decoder's opcode is the one the format test names. -/
theorem wordEncodesExactlyWhenMaskMatches : Obligations.WordEncodesExactlyWhenMaskMatches := by
  refine ⟨rfl, rfl, rfl, fun fmt w => ⟨?_, ?_⟩⟩
  · rintro ⟨i, h, rfl⟩
    obtain ⟨fmt, hmem, hm, hi⟩ := decodeWord_ok h
    rw [hi.row_eq]
    exact ⟨opcOf w, hmem, hm⟩
  · rintro ⟨opc, hmem, hm⟩
    obtain rfl := opcOf_of_and_mask (opcode_lt hmem) hm
    obtain ⟨i, hi, h⟩ := decodeWord_pass hmem hm
    exact ⟨i, h, congrArg Prod.snd hi.row_eq⟩

/-- Settles O4: the three ways the decoder can go, the fields written as bits of the word. -/
theorem decodeFollowsProcedure : Obligations.DecodeFollowsProcedure := by
  intro w
  simp only [← opcOf_eq_extract, ← rdOf_eq_extract, ← rs1Of_eq_extract, ← rs2Of_eq_extract]
  refine ⟨decodeWord_of_not_mem, fun fmt h => ⟨decodeWord_fail h, fun hm => ?_⟩⟩
  obtain ⟨i, hi, e⟩ := decodeWord_pass h hm
  refine ⟨i, e, hi.row_eq, hi.operands_eq.trans ?_⟩
  cases fmt <;> rfl

/-- Settles O5: both refusals are the decoder's, an index of any field a format uses gives a word that passes its test, and
a refused word offered while idle is raised as error 1. -/
theorem illegalWordsLatchErrorOne : Obligations.IllegalWordsLatchErrorOne := by
  refine ⟨opcodes_nodup, rfl, by decide +kernel, fun w h => ?_, fun w ⟨opc, fmt⟩ hrow hw hm => ?_,
    fun ⟨opc, fmt⟩ hrow rd rs1 rs2 => ?_, fun s w r hb hd => ?_⟩
  · rw [← opcOf_eq_extract] at h
    exact ⟨_, decodeWord_of_not_mem h⟩
  · obtain rfl : opcOf w = opc := (opcOf_eq_extract w).trans hw
    exact ⟨_, decodeWord_fail hrow fun e => hm (mustBeZero_of_and_mask (opcOf_lt w) e)⟩
  · have hlt : opc < 256 := opcode_lt hrow
    obtain ⟨hopc, -⟩ := fmt.fields_word rd rs1 rs2 hlt
    have hm := fmt.word_and_mask hlt rd rs1 rs2
    obtain ⟨i, -, h⟩ := decodeWord_pass (hopc.symm ▸ hrow) (hopc.symm ▸ hm)
    exact ⟨i, h⟩
  · rw [State.memWrite_cmd, s.offer_illegal hb hd]
    exact ⟨s.latchedError_raise 1 w, (CommandUndisturbed.raise s 1 w).busy.trans hb, s.raise_done 1 w⟩

/-- Settles O1, by evaluation of the decoder on the nine words. -/
theorem exampleWordsDecode : Obligations.ExampleWordsDecode :=
  ⟨rfl, rfl, rfl, rfl, rfl, rfl, rfl, rfl, rfl⟩

end Sys2Proof.Laws
end

section
/-! PROOFS. Writing registers word by word: the words of a list stored one after another, and the register they make up when
they are all its limbs (spec/20_memory.md R66 to R69; spec/30_encoding.md R99). -/

namespace Sys2Proof.Machine

/-- Words stored one after another, the first of the list first. -/
def State.stores (s : State) (ps : List (Slot × Word)) : State := ps.foldl (fun t p => t.storeSlot p.2 p.1) s

@[simp] theorem State.stores_nil (s : State) : s.stores [] = s := rfl

@[simp] theorem State.stores_cons (s : State) (p : Slot × Word) (ps : List (Slot × Word)) :
    s.stores (p :: ps) = (s.storeSlot p.2 p.1).stores ps := rfl

@[simp] theorem State.stores_append (s : State) (ps qs : List (Slot × Word)) :
    s.stores (ps ++ qs) = (s.stores ps).stores qs := List.foldl_append

theorem State.storeSlot_busy (s : State) (v : Word) (slot : Slot) : (s.storeSlot v slot).busy = s.busy := by
  obtain ⟨-, hl, -⟩ := s.storeSlot_frame v slot
  exact congrArg Option.isSome hl

theorem State.stores_busy (s : State) (ps : List (Slot × Word)) : (s.stores ps).busy = s.busy := by
  induction ps generalizing s with
  | nil => rfl
  | cons p ps ih => rw [stores_cons, ih, storeSlot_busy]

/-- A store neither looks at nor changes what is the outside's. -/
theorem State.storeSlot_setPending (s : State) (v : Word) (slot : Slot) (es : List HostEvent) :
    { s with pending := es }.storeSlot v slot = { s.storeSlot v slot with pending := es } := by
  cases slot <;> rfl

theorem State.storeSlot_setAnswers (s : State) (v : Word) (slot : Slot) (xs : List (Offset × Word)) :
    { s with answers := xs }.storeSlot v slot = { s.storeSlot v slot with answers := xs } := by
  cases slot <;> rfl

theorem State.stores_setAnswers (s : State) (ps : List (Slot × Word)) (xs : List (Offset × Word)) :
    { s with answers := xs }.stores ps = { s.stores ps with answers := xs } := by
  induction ps generalizing s with
  | nil => rfl
  | cons p ps ih => rw [stores_cons, storeSlot_setAnswers, ih, stores_cons]

/-! All words of one field. -/

/-- The limbs g j put into a field, for the j of the list. -/
def setWords {n : Nat} (g : Fin n → Word) (js : List (Fin n)) (r : Vector Word n) : Vector Word n :=
  js.foldl (fun q (j : Fin n) => q.set j.val (g j) j.isLt) r

theorem setWords_getElem {n : Nat} (g : Fin n → Word) (js : List (Fin n)) (r : Vector Word n) (k : Fin n) :
    (setWords g js r)[k] = if k ∈ js then g k else r[k] := by
  induction js generalizing r with
  | nil => rfl
  | cons j js ih =>
    rw [setWords, List.foldl_cons, ← setWords, ih]
    by_cases hk : k ∈ js
    · rw [if_pos hk, if_pos (List.mem_cons_of_mem j hk)]
    · by_cases hj : j = k
      · subst hj; simp [hk]
      · have hv : (j : Nat) ≠ k := fun e => hj (Fin.ext e)
        simp [hk, Ne.symm hj, Vector.getElem_set_ne, hv]

/-- With a word put into every place nothing is left of what was there. -/
theorem setWords_finRange {n : Nat} (g : Fin n → Word) (r : Vector Word n) :
    setWords g (List.finRange n) r = Vector.ofFn g := by
  refine Vector.ext fun k hk => ?_
  have h := setWords_getElem g (List.finRange n) r ⟨k, hk⟩
  rw [if_pos (List.mem_finRange _)] at h
  simpa using h

theorem FixedReg.ofValue_eq_ofFn (v : U256) : FixedReg.ofValue v = Vector.ofFn fun j : Fin 8 => limb v j.val := rfl

theorem DoubleReg.ofValue_eq_ofFn (v : U512) : DoubleReg.ofValue v = Vector.ofFn fun j : Fin 16 => limb v j.val := rfl

/-- The words of a field with the limbs of a value for them. -/
def fieldStores {n width : Nat} (slot : Fin n → Slot) (v : BitVec width) : List (Slot × Word) :=
  (List.finRange n).map fun j => (slot j, limb v j.val)

/-- `put r` is the state whose field holds r. If a store sets one word of the field, storing all the limbs of a value leaves
the field with these limbs. -/
theorem stores_fieldStores {n width : Nat} {slot : Fin n → Slot} {put : Vector Word n → State}
    (h : ∀ r j w, (put r).storeSlot w (slot j) = put (r.set j w j.isLt)) (r : Vector Word n) (v : BitVec width) :
    (put r).stores (fieldStores slot v) = put (Vector.ofFn fun j => limb v j.val) := by
  have hjs (js : List (Fin n)) : ∀ r, (put r).stores (js.map fun j => (slot j, limb v j.val)) =
      put (setWords (fun j => limb v j.val) js r) := by
    induction js with
    | nil => exact fun _ => rfl
    | cons j js ih => exact fun r => (congrArg (State.stores · _) (h r j _)).trans (ih _)
  rw [fieldStores, hjs, setWords_finRange]

variable (s : State) (i : Fin 8)

theorem set_get {α : Type} (v : Vector α 8) : v.set i (v.get i) i.isLt = v := by
  simp [Vector.get_eq_getElem]

theorem State.setA_setA (r q : AffineReg) : (s.setA i r).setA i q = s.setA i q := by
  simp only [setA, Vector.set_set]

theorem State.setJ_setJ (r q : JacobianReg) : (s.setJ i r).setJ i q = s.setJ i q := by
  simp only [setJ, Vector.set_set]

theorem State.setA_get : s.setA i (s.a.get i) = s := by rw [setA, set_get]

theorem State.setJ_get : s.setJ i (s.j.get i) = s := by rw [setJ, set_get]

/-- The sixteen limbs of a value make up W[i], and so on for the other registers. -/
theorem State.stores_w (v : U512) : s.stores (fieldStores (.w i) v) = s.writeW i v := by
  have h := stores_fieldStores (slot := .w i) (put := fun r => { s with w := s.w.set i r i.isLt })
    (fun r j w => by simp only [storeSlot, get_set_same, Vector.set_set]) (s.w.get i) v
  rw [set_get, ← DoubleReg.ofValue_eq_ofFn] at h
  exact h

theorem State.stores_f (v : U256) : s.stores (fieldStores (.f i) v) = s.writeF i v := by
  have h := stores_fieldStores (slot := .f i) (put := fun r => { s with f := s.f.set i r i.isLt })
    (fun r j w => by simp only [storeSlot, get_set_same, Vector.set_set]) (s.f.get i) v
  rw [set_get, ← FixedReg.ofValue_eq_ofFn] at h
  exact h

section
variable (r : AffineReg) (v : U256) (j : Fin 8) (w : Word)

theorem State.storeSlot_ax : (s.setA i r).storeSlot w (.ax i j) = s.setA i { r with x := r.x.set j w j.isLt } := by
  simp only [storeSlot, setA_a, get_set_same, setA_setA]

theorem State.storeSlot_ay : (s.setA i r).storeSlot w (.ay i j) = s.setA i { r with y := r.y.set j w j.isLt } := by
  simp only [storeSlot, setA_a, get_set_same, setA_setA]

theorem State.storeSlot_ainf : (s.setA i r).storeSlot w (.ainf i) = s.setA i { r with inf := w.getLsbD 0 } := by
  simp only [storeSlot, setA_a, get_set_same, setA_setA]

theorem State.stores_ax : (s.setA i r).stores (fieldStores (.ax i) v) = s.setA i { r with x := FixedReg.ofValue v } :=
  stores_fieldStores (put := fun x => s.setA i { r with x := x }) (fun _ _ _ => s.storeSlot_ax i _ _ _) r.x v

theorem State.stores_ay : (s.setA i r).stores (fieldStores (.ay i) v) = s.setA i { r with y := FixedReg.ofValue v } :=
  stores_fieldStores (put := fun y => s.setA i { r with y := y }) (fun _ _ _ => s.storeSlot_ay i _ _ _) r.y v

/-- The words of both coordinates in turn, as `LDG` writes them (R99). -/
theorem State.stores_ax_ay (g h : Fin 8 → Word) (js : List (Fin 8)) :
    (s.setA i r).stores (js.flatMap fun j => [(.ax i j, g j), (.ay i j, h j)]) =
      s.setA i { r with x := setWords g js r.x, y := setWords h js r.y } := by
  induction js generalizing r with
  | nil => rfl
  | cons j js ih =>
    rw [List.flatMap_cons, stores_append, stores_cons, stores_cons, stores_nil, storeSlot_ax, storeSlot_ay, ih]
    rfl

end

section
variable (r : JacobianReg) (v : U256) (j : Fin 8) (w : Word)

theorem State.storeSlot_jinf : (s.setJ i r).storeSlot w (.jinf i) = s.setJ i { r with inf := w.getLsbD 0 } := by
  simp only [storeSlot, setJ_j, get_set_same, setJ_setJ]

theorem State.stores_jx : (s.setJ i r).stores (fieldStores (.jx i) v) = s.setJ i { r with x := FixedReg.ofValue v } :=
  stores_fieldStores (put := fun x => s.setJ i { r with x := x })
    (fun _ _ _ => by simp only [storeSlot, setJ_j, get_set_same, setJ_setJ]) r.x v

theorem State.stores_jy : (s.setJ i r).stores (fieldStores (.jy i) v) = s.setJ i { r with y := FixedReg.ofValue v } :=
  stores_fieldStores (put := fun y => s.setJ i { r with y := y })
    (fun _ _ _ => by simp only [storeSlot, setJ_j, get_set_same, setJ_setJ]) r.y v

theorem State.stores_jz : (s.setJ i r).stores (fieldStores (.jz i) v) = s.setJ i { r with z := FixedReg.ofValue v } :=
  stores_fieldStores (put := fun z => s.setJ i { r with z := z })
    (fun _ _ _ => by simp only [storeSlot, setJ_j, get_set_same, setJ_setJ]) r.z v

end

/-- The words of `WRA Ai, (x, y)` (R99). -/
def affineStores (x y : U256) : List (Slot × Word) := fieldStores (.ax i) x ++ fieldStores (.ay i) y ++ [(.ainf i, 0)]

/-- The words of `WRJ Ji, (X, Y, Z)` (R99). -/
def jacobianStores (x y z : U256) : List (Slot × Word) :=
  fieldStores (.jx i) x ++ fieldStores (.jy i) y ++ fieldStores (.jz i) z ++ [(.jinf i, 0)]

/-- Both coordinates and a 0 in the INF word make up a finite point (R68). -/
theorem State.stores_a (x y : U256) : s.stores (affineStores i x y) = s.writeA i (.point x y) := by
  conv_lhs => rw [← s.setA_get i]
  rw [affineStores, stores_append, stores_append, stores_ax, stores_ay, stores_cons, stores_nil, storeSlot_ainf]
  simp [writeA]

theorem State.stores_j (x y z : U256) : s.stores (jacobianStores i x y z) = s.writeJ i (.point x y z) := by
  conv_lhs => rw [← s.setJ_get i]
  rw [jacobianStores, stores_append, stores_append, stores_append, stores_jx, stores_jy, stores_jz, stores_cons, stores_nil,
    storeSlot_jinf]
  simp [writeJ]

/-- A 1 in the INF word, and nothing else, makes the point infinite. -/
theorem State.stores_ainf_one :
    s.stores [(.ainf i, 1)] = { s with a := s.a.set i { s.a.get i with inf := true } i.isLt } := by
  simp [storeSlot, setA]

theorem State.stores_jinf_one :
    s.stores [(.jinf i, 1)] = { s with j := s.j.set i { s.j.get i with inf := true } i.isLt } := by
  simp [storeSlot, setJ]

end Sys2Proof.Machine
end

section
/-! PROOFS. The accesses of the pseudo-instructions, and those that write as lists of pending events: one step for each
access (spec/30_encoding.md R99; spec/20_memory.md R74). -/

namespace Sys2Proof.Machine

/-! The accesses. -/

theorem Slot.offset_of_isData {slot : Slot} (h : slot.isData = true) : ∃ n, slot.offset = some n ∧ n % 4 = 0 := by
  cases slot <;> simp [Slot.isData, Slot.offset] at h ⊢ <;> omega

theorem accessWellFormed_ofNat {n : Nat} (h : n % 4 = 0) : accessWellFormed (BitVec.ofNat 12 n) 4 = true := by
  rw [accessWellFormed_iff, BitVec.toNat_ofNat]
  omega

/-- The host's write of a word to its slot. -/
def storeEvent (p : Slot × Word) : HostEvent := writeEvent (p.1.offset.getD 0) p.2

theorem storeEvent_eq {slot : Slot} {n : Nat} (ho : slot.offset = some n) (v : Word) :
    storeEvent (slot, v) = writeEvent n v := by
  rw [storeEvent, ho]; rfl

/-- While idle the write of a data word stores it (R74). -/
theorem handleEvent_storeEvent {s : State} (hb : s.busy = false) {p : Slot × Word} (hd : p.1.isData = true) :
    handleEvent (storeEvent p) s = .next (s.storeSlot p.2 p.1) := by
  obtain ⟨slot, v⟩ := p
  obtain ⟨n, ho, hn⟩ := Slot.offset_of_isData hd
  rw [storeEvent_eq ho]
  exact (hostWrite_wellFormed s v (accessWellFormed_ofNat hn)).trans
    (congrArg Host.Outcome.next (State.dataWord_idle hb ho hd v).2)

/-- A read of a constant is answered with its limb (R65). -/
theorem handleEvent_readConst (s : State) (c : ConstReg) (j : Fin 8) :
    handleEvent (readEvent (c.offset + 4 * j.val)) s =
      .next { s with answers := (BitVec.ofNat 12 (c.offset + 4 * j.val), limb c.value j.val) :: s.answers } := by
  have hn : (c.offset + 4 * j.val) % 4 = 0 := by cases c <;> simp only [ConstReg.offset] <;> omega
  obtain ⟨hread, -⟩ := s.access_const c j 0
  have h := hostRead_wellFormed s (accessWellFormed_ofNat hn)
  rw [hread] at h
  exact h

/-- The state after `WAIT` has read STATUS once (R99). -/
def State.polled (s : State) : State := { s with answers := (0x008, s.statusWord) :: s.answers }

theorem handleEvent_readStatus (s : State) : handleEvent (readEvent 0x008) s = .next s.polled := by
  have h := hostRead_wellFormed s (show accessWellFormed 0x008 4 = true by decide)
  rw [State.memRead_status] at h
  exact h

/-- `ISSUE` while idle: the command's word is accepted, since it decodes (R99, R210). -/
theorem handleEvent_issue {s : State} (hb : s.busy = false) (c : Instr) :
    handleEvent (writeEvent 0x004 (encode c)) s = .next (s.accept (encode c)) := by
  have h := hostWrite_wellFormed s (encode c) (show accessWellFormed 0x004 4 = true by decide)
  rw [State.memWrite_cmd, s.offer_legal hb (decodeWord_encode c)] at h
  exact h

/-! Writes as pending events. -/

theorem Runs.trans {k m : Nat} {s t u : State} (h : Runs k s t) (h' : Runs m t u) : Runs (k + m) s u := by
  induction k generalizing s with
  | zero => cases h; rwa [Nat.zero_add]
  | succ k ih =>
    obtain ⟨v, hs, hr⟩ := h.succ
    rw [Nat.succ_add]
    exact (ih hr).cons hs

/-- An idle unit with such writes pending takes a step for each and has stored the words. -/
theorem runs_stores {s : State} (hb : s.busy = false) {ps : List (Slot × Word)} (hd : ∀ p ∈ ps, p.1.isData = true)
    (rest : List HostEvent) :
    Runs ps.length { s with pending := ps.map storeEvent ++ rest } { s.stores ps with pending := rest } := by
  induction ps generalizing s with
  | nil => exact Runs.zero _
  | cons p ps ih =>
    have hstep := handleEvent_storeEvent (s := { s with pending := ps.map storeEvent ++ rest }) hb
      (hd p List.mem_cons_self)
    rw [State.storeSlot_setPending] at hstep
    have hrest := ih ((s.storeSlot_busy p.2 p.1).trans hb) fun q hq => hd q (List.mem_cons_of_mem p hq)
    exact hrest.cons ((step_cons rfl).trans hstep)

/-- The same for the whole pending list of a state. -/
theorem runs_stores_pending {s t : State} (hb : s.busy = false) {ps : List (Slot × Word)}
    (hd : ∀ p ∈ ps, p.1.isData = true) {rest : List HostEvent} (hp : s.pending = ps.map storeEvent ++ rest)
    (ht : s.stores ps = t) : Runs ps.length s { t with pending := rest } := by
  have h := runs_stores hb hd rest
  rw [← hp, ht] at h
  exact h

/-- The words of a field are data words at consecutive offsets from `base` on. -/
structure IsField {n : Nat} (base : Nat) (slot : Fin n → Slot) : Prop where
  offset : ∀ j, (slot j).offset = some (base + 4 * j.val)
  isData : ∀ j, (slot j).isData = true

theorem IsField.stores_isData {n width base : Nat} {slot : Fin n → Slot} (h : IsField base slot) (v : BitVec width) :
    ∀ p ∈ fieldStores slot v, p.1.isData = true :=
  List.forall_mem_map.2 fun j _ => h.isData j

/-- Writing the limbs of a value from a field's offset on stores them in the field. -/
theorem IsField.writeLimbs_eq {n width base : Nat} {slot : Fin n → Slot} (h : IsField base slot) (v : BitVec width) :
    writeLimbs base v n = (fieldStores slot v).map storeEvent := by
  rw [writeLimbs, ← List.map_coe_finRange_eq_range, fieldStores, List.map_map, List.map_map]
  exact List.map_congr_left fun j _ => (storeEvent_eq (h.offset j) _).symm

section
variable (i : Fin 8)

theorem isField_f : IsField (0x200 + 0x20 * i.val) (Slot.f i) := ⟨fun _ => rfl, fun _ => rfl⟩

theorem isField_w : IsField (0x400 + 0x40 * i.val) (Slot.w i) := ⟨fun _ => rfl, fun _ => rfl⟩

theorem isField_ax : IsField (0x800 + 0x80 * i.val) (Slot.ax i) := ⟨fun _ => rfl, fun _ => rfl⟩

theorem isField_ay : IsField (0x820 + 0x80 * i.val) (Slot.ay i) := ⟨fun _ => rfl, fun _ => rfl⟩

theorem isField_jx : IsField (0xC00 + 0x80 * i.val) (Slot.jx i) := ⟨fun _ => rfl, fun _ => rfl⟩

theorem isField_jy : IsField (0xC20 + 0x80 * i.val) (Slot.jy i) := ⟨fun _ => rfl, fun _ => rfl⟩

theorem isField_jz : IsField (0xC40 + 0x80 * i.val) (Slot.jz i) := ⟨fun _ => rfl, fun _ => rfl⟩

theorem wra_eq_stores (x y : U256) : wra i x y = (affineStores i x y).map storeEvent := by
  rw [wra, (isField_ax i).writeLimbs_eq, (isField_ay i).writeLimbs_eq, affineStores, List.map_append, List.map_append]
  rfl

theorem wrj_eq_stores (x y z : U256) : wrj i x y z = (jacobianStores i x y z).map storeEvent := by
  rw [wrj, (isField_jx i).writeLimbs_eq, (isField_jy i).writeLimbs_eq, (isField_jz i).writeLimbs_eq, jacobianStores,
    List.map_append, List.map_append, List.map_append]
  rfl

theorem affineStores_isData (x y : U256) : ∀ p ∈ affineStores i x y, p.1.isData = true :=
  List.forall_mem_append.2 ⟨List.forall_mem_append.2 ⟨(isField_ax i).stores_isData x, (isField_ay i).stores_isData y⟩,
    List.forall_mem_singleton.2 rfl⟩

theorem jacobianStores_isData (x y z : U256) : ∀ p ∈ jacobianStores i x y z, p.1.isData = true :=
  List.forall_mem_append.2 ⟨List.forall_mem_append.2 ⟨List.forall_mem_append.2 ⟨(isField_jx i).stores_isData x,
    (isField_jy i).stores_isData y⟩, (isField_jz i).stores_isData z⟩, List.forall_mem_singleton.2 rfl⟩

end

/-! `LDG`. -/

/-- One copy of `LDG`: word j of a constant into a data word (R99). -/
structure ConstCopy where
  const : ConstReg
  j : Fin 8
  slot : Slot

/-- The offset the copy reads. -/
def ConstCopy.src (q : ConstCopy) : Nat := q.const.offset + 4 * q.j.val

/-- The word it stores. -/
def ConstCopy.store (q : ConstCopy) : Slot × Word := (q.slot, limb q.const.value q.j.val)

/-- The copies of `LDG Ai`. -/
def ldgCopies (i : Fin 8) : List ConstCopy :=
  (List.finRange 8).flatMap fun j => [⟨.gx, j, .ax i j⟩, ⟨.gy, j, .ay i j⟩]

theorem ldg_eq_copies (i : Fin 8) :
    ldg i = (ldgCopies i).flatMap (fun q => [readEvent q.src, storeEvent q.store]) ++ [storeEvent (.ainf i, 0)] := rfl

theorem expand_ldg_eq_copies (i : Fin 8) :
    (Pseudo.ldg i).expand =
      (ldgCopies i).map (fun q => .copy q.src (q.slot.offset.getD 0)) ++ [.access (storeEvent (.ainf i, 0))] := rfl

theorem ldgCopies_length (i : Fin 8) : (ldgCopies i).length = 16 := rfl

theorem ldgCopies_isData (i : Fin 8) : ∀ q ∈ ldgCopies i, q.slot.isData = true := by
  intro q hq
  obtain ⟨j, -, hj⟩ := List.mem_flatMap.1 hq
  simp only [List.mem_cons, List.not_mem_nil, or_false] at hj
  obtain rfl | rfl := hj <;> rfl

/-- The copies and a 0 in the INF word leave the base point. -/
theorem State.stores_ldgCopies (s : State) (i : Fin 8) :
    (s.stores ((ldgCopies i).map ConstCopy.store)).storeSlot 0 (.ainf i) = s.writeA i baseG := by
  have hmap : (ldgCopies i).map ConstCopy.store = (List.finRange 8).flatMap fun j =>
      [(.ax i j, limb ConstReg.gx.value j.val), (.ay i j, limb ConstReg.gy.value j.val)] := rfl
  conv_lhs => rw [← s.setA_get i]
  rw [hmap, stores_ax_ay, storeSlot_ainf, setWords_finRange, setWords_finRange]
  simp [writeA, baseG, FixedReg.ofValue_eq_ofFn, ConstReg.value]

/-- The state after a copy's read: the port has answered the constant's limb. -/
def State.copyRead (s : State) (q : ConstCopy) : State :=
  { s with answers := (BitVec.ofNat 12 q.src, q.store.2) :: s.answers }

/-- The state after a whole copy. -/
def State.copied (s : State) (q : ConstCopy) : State := (s.copyRead q).storeSlot q.store.2 q.store.1

theorem State.copied_busy (s : State) (q : ConstCopy) : (s.copied q).busy = s.busy := State.storeSlot_busy _ _ _

/-- Up to the answers a copy is the store of its word. -/
theorem State.copied_eq (s : State) (q : ConstCopy) :
    s.copied q = { s.storeSlot q.store.2 q.store.1 with answers := (BitVec.ofNat 12 q.src, q.store.2) :: s.answers } :=
  s.storeSlot_setAnswers _ _ _

theorem handleEvent_copyRead (s : State) (q : ConstCopy) : handleEvent (readEvent q.src) s = .next (s.copyRead q) :=
  handleEvent_readConst s q.const q.j

/-- Two steps for each copy, as pending events: the port has answered the reads, and the words are stored. -/
theorem runs_copies {s : State} (hb : s.busy = false) {qs : List ConstCopy} (hd : ∀ q ∈ qs, q.slot.isData = true)
    (rest : List HostEvent) : ∃ xs, Runs (2 * qs.length)
      { s with pending := qs.flatMap (fun q => [readEvent q.src, storeEvent q.store]) ++ rest }
      { s.stores (qs.map ConstCopy.store) with pending := rest, answers := xs } := by
  induction qs generalizing s with
  | nil => exact ⟨s.answers, Runs.zero _⟩
  | cons q qs ih =>
    obtain ⟨hq, hqs⟩ := List.forall_mem_cons.1 hd
    have hread (es : List HostEvent) : step { s with pending := readEvent q.src :: es } =
        .next { s.copyRead q with pending := es } := (step_cons rfl).trans (handleEvent_copyRead _ q)
    have hstore := runs_stores (s := s.copyRead q) hb (ps := [q.store]) (List.forall_mem_singleton.2 hq)
      (qs.flatMap (fun q => [readEvent q.src, storeEvent q.store]) ++ rest)
    obtain ⟨xs, hrest⟩ := ih ((s.copied_busy q).trans hb) hqs
    have h := (hstore.trans hrest).cons (hread _)
    rw [List.length_singleton, Nat.add_comm 1, State.copied_eq, State.stores_setAnswers] at h
    exact ⟨xs, h⟩

theorem runs_ldg {s : State} (hb : s.busy = false) {i : Fin 8} {rest : List HostEvent} (hp : s.pending = ldg i ++ rest) :
    ∃ xs, Runs 33 s { s.writeA i baseG with pending := rest, answers := xs } := by
  obtain ⟨xs, hcopies⟩ := runs_copies hb (ldgCopies_isData i) ([storeEvent (.ainf i, 0)] ++ rest)
  rw [ldgCopies_length, ← List.append_assoc, ← ldg_eq_copies, ← hp] at hcopies
  have htb := (s.stores_busy ((ldgCopies i).map ConstCopy.store)).trans hb
  have hbase := s.stores_ldgCopies i
  generalize s.stores ((ldgCopies i).map ConstCopy.store) = t at hcopies htb hbase
  have hinf := runs_stores (s := { t with answers := xs }) htb (ps := [(.ainf i, 0)]) (List.forall_mem_singleton.2 rfl) rest
  rw [State.stores_cons, State.stores_nil, State.storeSlot_setAnswers, hbase] at hinf
  exact ⟨xs, hcopies.trans hinf⟩

end Sys2Proof.Machine
end

section
/-! PROOFS. Host programs beside the unit: `LDG` by its copies, `WAIT` by one poll, `RUN` by all of its moves
(spec/30_encoding.md R99). -/

namespace Sys2Proof.Machine

theorem Session.run_host {x y : Session} (h : x.hostMove = .next y) (ms : List Mover) :
    Session.run (.host :: ms) x = Session.run ms y := by
  simp only [Session.run, h]

theorem Session.run_unit {s t : State} (h : unitTurn s = .next t) (ops : List HostOp) (stopped : Bool) (ms : List Mover) :
    Session.run (.unit :: ms) ⟨ops, stopped, s⟩ = Session.run ms ⟨ops, stopped, t⟩ := by
  simp only [Session.run, h, Session.continue]

theorem Session.hostMove_access {s t : State} {e : HostEvent} (h : handleEvent e s = .next t) (rest : List HostOp) :
    Session.hostMove ⟨.access e :: rest, false, s⟩ = .next ⟨rest, false, t⟩ := by
  simp only [Session.hostMove, h, Session.continue, Bool.false_eq_true, if_false]

/-- A copy of a constant's word is a read, after which the write of that word is to do. -/
theorem Session.hostMove_copy (s : State) (q : ConstCopy) (rest : List HostOp) :
    Session.hostMove ⟨.copy q.src (q.slot.offset.getD 0) :: rest, false, s⟩ =
      .next ⟨.access (storeEvent q.store) :: rest, false, s.copyRead q⟩ := by
  have hread : (s.memRead (BitVec.ofNat 12 q.src)).1 = q.store.2 := congrArg Prod.fst (s.access_const q.const q.j 0).1
  simp only [Session.hostMove, handleEvent_copyRead, Session.continue, Bool.false_eq_true, if_false, hread]
  rfl

/-- `WAIT` reads STATUS again while BUSY = 1 (R99). -/
theorem Session.hostMove_wait_busy {s : State} (hb : s.busy = true) (rest : List HostOp) :
    Session.hostMove ⟨.wait :: rest, false, s⟩ = .next ⟨.wait :: rest, false, s.polled⟩ := by
  obtain ⟨h0, -⟩ := s.statusWord_bits
  simp only [Session.hostMove, handleEvent_readStatus, State.memRead_status, Session.continue, Session.afterPoll, h0, hb,
    Bool.false_eq_true, if_false, if_true]

/-- With BUSY = 0 the program goes on if DONE = 1 and ERR = 0, and stops if not (R99). -/
theorem Session.hostMove_wait_idle {s : State} (hb : s.busy = false) (rest : List HostOp) :
    Session.hostMove ⟨.wait :: rest, false, s⟩ = .next ⟨rest, !(s.done && !s.err), s.polled⟩ := by
  obtain ⟨h0, h1, h2, -⟩ := s.statusWord_bits
  simp only [Session.hostMove, handleEvent_readStatus, State.memRead_status, Session.continue, Session.afterPoll, h0, h1, h2,
    hb, Bool.false_eq_true, if_false]
  cases s.done && !s.err <;> rfl

/-- Two moves of the host for each copy. -/
theorem Session.run_copies {s : State} (hb : s.busy = false) {qs : List ConstCopy} (hd : ∀ q ∈ qs, q.slot.isData = true)
    (rest : List HostOp) (ms : List Mover) : ∃ xs,
      Session.run (List.replicate (2 * qs.length) .host ++ ms)
        ⟨qs.map (fun q => .copy q.src (q.slot.offset.getD 0)) ++ rest, false, s⟩ =
      Session.run ms ⟨rest, false, { s.stores (qs.map ConstCopy.store) with answers := xs }⟩ := by
  induction qs generalizing s with
  | nil => exact ⟨s.answers, rfl⟩
  | cons q qs ih =>
    obtain ⟨hq, hqs⟩ := List.forall_mem_cons.1 hd
    have hstore := handleEvent_storeEvent (s := s.copyRead q) hb (p := q.store) hq
    obtain ⟨xs, hrest⟩ := ih ((s.copied_busy q).trans hb) hqs
    rw [State.copied_eq, State.stores_setAnswers, ← State.copied_eq] at hrest
    exact ⟨xs, (Session.run_host (Session.hostMove_copy s q _) _).trans
      ((Session.run_host (Session.hostMove_access hstore _) _).trans hrest)⟩

theorem Session.run_ldg {s : State} (hb : s.busy = false) (i : Fin 8) (rest : List HostOp) : ∃ xs,
    Session.run (List.replicate 33 .host) ⟨(Pseudo.ldg i).expand ++ rest, false, s⟩ =
      .next ⟨rest, false, { s.writeA i baseG with answers := xs }⟩ := by
  obtain ⟨xs, hcopies⟩ := Session.run_copies hb (ldgCopies_isData i) ([.access (storeEvent (.ainf i, 0))] ++ rest) [.host]
  rw [ldgCopies_length, ← List.append_assoc, ← expand_ldg_eq_copies] at hcopies
  have htb := (s.stores_busy ((ldgCopies i).map ConstCopy.store)).trans hb
  have hbase := s.stores_ldgCopies i
  generalize s.stores ((ldgCopies i).map ConstCopy.store) = t at hcopies htb hbase
  have hinf := handleEvent_storeEvent (s := { t with answers := xs }) htb (p := (.ainf i, 0)) rfl
  rw [State.storeSlot_setAnswers, hbase] at hinf
  exact ⟨xs, hcopies.trans (Session.run_host (Session.hostMove_access hinf rest) [])⟩

/-- However often the host polls a busy unit, the program stays at its `WAIT` and the unit as it is. -/
theorem Session.run_polls {s : State} (hb : s.busy = true) (polls : Nat) (rest : List HostOp) (ms : List Mover) : ∃ xs,
    Session.run (List.replicate polls .host ++ ms) ⟨.wait :: rest, false, s⟩ =
      Session.run ms ⟨.wait :: rest, false, { s with answers := xs }⟩ := by
  induction polls generalizing s with
  | zero => exact ⟨s.answers, rfl⟩
  | succ k ih =>
    obtain ⟨xs, h⟩ := ih (s := s.polled) hb
    exact ⟨xs, (Session.run_host (Session.hostMove_wait_busy hb rest) _).trans h⟩

/-- `RUN` issues its command, polls while it is in flight, and goes on after the poll that sees it completed: no command
raises an error (R99, R211). -/
theorem Session.run_run {s : State} (hb : s.busy = false) (he : s.err = false) (c : Instr) (polls : Nat)
    (rest : List HostOp) : ∃ xs u, exec c { s.accept (encode c) with answers := xs } = .next u ∧
      (Completed u → Session.run (.host :: List.replicate polls .host ++ [.unit, .host])
        ⟨(Pseudo.run c).expand ++ rest, false, s⟩ = .next ⟨rest, false, u.polled⟩) := by
  obtain ⟨xs, hpolls⟩ := Session.run_polls (s := s.accept (encode c)) rfl polls rest [.unit, .host]
  obtain ⟨u, hexec, hframe, -⟩ := exec_frame c { s.accept (encode c) with answers := xs }
  refine ⟨xs, u, hexec, fun ⟨hub, hud⟩ => ?_⟩
  have hue : u.err = false := hframe.control.err.trans he
  have hturn := (unitTurn_running (s := { s.accept (encode c) with answers := xs }) rfl (decodeWord_encode c)).trans hexec
  have hlast := Session.hostMove_wait_idle hub rest
  rw [hud, hue] at hlast
  calc Session.run (.host :: (List.replicate polls .host ++ [.unit, .host])) ⟨(Pseudo.run c).expand ++ rest, false, s⟩
    _ = Session.run (List.replicate polls .host ++ [.unit, .host]) ⟨.wait :: rest, false, s.accept (encode c)⟩ :=
      Session.run_host (Session.hostMove_access (handleEvent_issue hb c) _) _
    _ = Session.run [.unit, .host] ⟨.wait :: rest, false, { s.accept (encode c) with answers := xs }⟩ := hpolls
    _ = Session.run [.host] ⟨.wait :: rest, false, u⟩ := Session.run_unit hturn _ _ _
    _ = .next ⟨rest, false, u.polled⟩ := Session.run_host hlast []

end Sys2Proof.Machine

namespace Sys2Proof.Laws

open Sys2Proof.Machine

/-- Settles O30: the events of each writing pseudo-instruction store the words of its register; `LDG` copies them, as events
and as a host program; `WAIT` by its poll, and `RUN` by the acceptance, the polls, the unit's turn and the last poll. -/
theorem pseudoInstructionsWrite : Obligations.PseudoInstructionsWrite := by
  refine ⟨fun s i rest hb => ⟨fun v hp => ?_, fun v hp => ?_, fun x y hp => ?_, fun hp => ?_, fun x y z hp => ?_,
    fun hp => ?_, runs_ldg hb⟩, fun s i rest hb => Session.run_ldg hb i rest,
    fun s rest => ⟨fun hb => ?_, fun hb hd he => ?_, fun hb h => ?_⟩,
    fun s c polls rest hb he => Session.run_run hb he c polls rest⟩
  · rw [wrf, (isField_f i).writeLimbs_eq] at hp
    exact runs_stores_pending hb ((isField_f i).stores_isData v) hp (s.stores_f i v)
  · rw [wrw, (isField_w i).writeLimbs_eq] at hp
    exact runs_stores_pending hb ((isField_w i).stores_isData v) hp (s.stores_w i v)
  · rw [wra_eq_stores] at hp
    exact runs_stores_pending hb (affineStores_isData i x y) hp (s.stores_a i x y)
  · exact runs_stores_pending (ps := [(.ainf i, 1)]) hb (List.forall_mem_singleton.2 rfl) hp (s.stores_ainf_one i)
  · rw [wrj_eq_stores] at hp
    exact runs_stores_pending hb (jacobianStores_isData i x y z) hp (s.stores_j i x y z)
  · exact runs_stores_pending (ps := [(.jinf i, 1)]) hb (List.forall_mem_singleton.2 rfl) hp (s.stores_jinf_one i)
  · exact Session.hostMove_wait_busy hb rest
  · have h := Session.hostMove_wait_idle hb rest
    rw [hd, he] at h
    exact h
  · have hstop : (s.done && !s.err) = false := by
      obtain h | h := h <;> simp [h]
    have h := Session.hostMove_wait_idle hb rest
    rw [hstop] at h
    exact ⟨h, rfl⟩

end Sys2Proof.Laws
end

section
/-! PROOFS. The limb forms of compare, add and subtract against the values of the registers, and the four commands of the
fixed-width core (spec/40_fixed_width.md R111 to R114). -/

namespace Sys2Proof.Machine

/-! Sequences of limbs and the integers they stand for. -/

theorem limbsToNat_lt : ∀ l : List Word, limbsToNat l < 2 ^ (32 * l.length)
  | [] => by decide
  | x :: rest => by
    have hx := x.isLt
    have hrest := limbsToNat_lt rest
    rw [limbsToNat, List.length_cons, Nat.mul_succ, Nat.pow_add]
    omega

/-- The value of a field is the integer its limbs stand for (R6). -/
theorem FixedReg.value_toNat (r : FixedReg) : r.value.toNat = limbsToNat r.toList := by
  have h := limbsToNat_lt r.toList
  rw [Vector.length_toList] at h
  rw [FixedReg.value, BitVec.toNat_ofNat, Nat.mod_eq_of_lt h]

theorem limbsToNat_inj {l m : List Word} (hlen : l.length = m.length) (h : limbsToNat l = limbsToNat m) : l = m :=
  List.ext_getElem hlen fun j hl hm => by rw [← limbsToNat_limb l j hl, h, limbsToNat_limb m j hm]

/-- Limbs and a carry out of them are determined by the integer they stand for together. -/
theorem limbs_carry_unique {l m : List Word} {c d : Nat} (hlen : l.length = m.length)
    (h : limbsToNat l + 2 ^ (32 * l.length) * c = limbsToNat m + 2 ^ (32 * l.length) * d) : l = m ∧ c = d := by
  have hm := limbsToNat_lt m
  rw [← hlen] at hm
  obtain ⟨hc, hl⟩ := (Nat.div_mod_unique (Nat.two_pow_pos _)).2 ⟨h, limbsToNat_lt l⟩
  obtain ⟨hd, hm⟩ := (Nat.div_mod_unique (Nat.two_pow_pos _)).2 ⟨rfl, hm⟩
  exact ⟨limbsToNat_inj hlen (hl.symm.trans hm), hc.symm.trans hd⟩

/-! Compare. -/

/-- The lowest limbs, which stand last, decide only between equal limbs above them. -/
theorem cmpLimbsDown_append_singleton (a b : Word) : ∀ {as bs : List Word}, as.length = bs.length →
    cmpLimbsDown (as ++ [a]) (bs ++ [b]) = (cmpLimbsDown as bs).then (compare a.toNat b.toNat)
  | [], [], _ => by
    simp only [List.nil_append, cmpLimbsDown, Nat.compare_eq_ite_lt, Ordering.then]
  | x :: as, y :: bs, h => by
    have ih := cmpLimbsDown_append_singleton a b (Nat.succ.inj h)
    simp only [List.cons_append, cmpLimbsDown, ih]
    split
    · rfl
    · split <;> rfl

/-- Integers with a low digit compare by what stands above it first. -/
theorem compare_add_mul {n a b : Nat} (ha : a < n) (hb : b < n) (x y : Nat) :
    compare (a + n * x) (b + n * y) = (compare x y).then (compare a b) := by
  obtain h | rfl | h := Nat.lt_trichotomy x y
  · have : n * x + n ≤ n * y := Nat.mul_le_mul_left n h
    exact (Nat.compare_eq_lt.2 (by omega)).trans (by rw [Nat.compare_eq_lt.2 h]; rfl)
  · simp only [Nat.compare_eq_ite_lt, Nat.add_lt_add_iff_right, Nat.lt_irrefl, if_false, Ordering.then]
  · have : n * y + n ≤ n * x := Nat.mul_le_mul_left n h
    exact (Nat.compare_eq_gt.2 (by omega)).trans (by rw [Nat.compare_eq_gt.2 h]; rfl)

/-- Comparing from the most significant limb down compares the integers (R111). -/
theorem cmpLimbsDown_reverse : ∀ {as bs : List Word}, as.length = bs.length →
    cmpLimbsDown as.reverse bs.reverse = compare (limbsToNat as) (limbsToNat bs)
  | [], [], _ => rfl
  | a :: as, b :: bs, h => by
    have hlen : as.length = bs.length := Nat.succ.inj h
    rw [List.reverse_cons, List.reverse_cons, cmpLimbsDown_append_singleton a b (by simpa using hlen),
      cmpLimbsDown_reverse hlen, limbsToNat, limbsToNat, compare_add_mul a.isLt b.isLt]

theorem cmpLimbs_eq_compare (a b : FixedReg) : cmpLimbs a b = compare a.value.toNat b.value.toNat := by
  rw [cmpLimbs, cmpLimbsDown_reverse (by simp), a.value_toNat, b.value_toNat]

/-- The compare flags of two integers (R111). -/
theorem Flags.withCompare_compare (fl : Flags) (m n : Nat) :
    fl.withCompare (compare m n) = { c := fl.c, eq := decide (m = n), lt := decide (m < n), gt := decide (n < m) } := by
  obtain h | rfl | h := Nat.lt_trichotomy m n
  · rw [Nat.compare_eq_lt.2 h]
    simp [Flags.withCompare, h, h.ne, h.le]
  · simp [Flags.withCompare]
  · rw [Nat.compare_eq_gt.2 h]
    simp [Flags.withCompare, h, h.ne', h.le]

/-! Shift. -/

theorem limb_getLsbD {width : Nat} (v : BitVec width) (j : Nat) {i : Nat} (hi : i < 32) :
    (limb v j).getLsbD i = v.getLsbD (32 * j + i) := by
  simp [limb, hi]

/-- Bit i of limb j is bit 32·j + i of the value (R9). -/
theorem FixedReg.getElem_getLsbD (r : FixedReg) {j i : Nat} (hj : j < 8) (hi : i < 32) :
    (r[j]).getLsbD i = r.value.getLsbD (32 * j + i) := by
  rw [← limb_getLsbD r.value j hi, r.limb_value ⟨j, hj⟩, Vector.get_eq_getElem]

theorem shr1_fst (a : U256) : (shr1 a).1 = a >>> 1 := by
  apply BitVec.eq_of_toNat_eq
  have := a.isLt
  simp only [shr1, BitVec.toNat_ofNat, BitVec.toNat_ushiftRight, Nat.shiftRight_eq_div_pow]
  omega

/-! Add and subtract. -/

/-- Ripple-carry addition gives as many limbs, and with the final carry they stand for the sum (R113). -/
theorem addLimbs_spec : ∀ (c : Nat) {as bs : List Word}, as.length = bs.length →
    (addLimbs c as bs).1.length = as.length ∧
    limbsToNat (addLimbs c as bs).1 + 2 ^ (32 * as.length) * (addLimbs c as bs).2 = limbsToNat as + limbsToNat bs + c
  | c, [], [], _ => by simp [addLimbs, limbsToNat]
  | c, a :: as, b :: bs, h => by
    obtain ⟨hlen, ih⟩ := addLimbs_spec ((a.toNat + b.toNat + c) / 2 ^ 32) (Nat.succ.inj h)
    refine ⟨congrArg Nat.succ hlen, ?_⟩
    simp only [addLimbs, limbsToNat, BitVec.toNat_ofNat, List.length_cons, Nat.mul_succ, Nat.pow_add,
      Nat.mul_comm _ (2 ^ 32), Nat.mul_assoc]
    omega

/-- Limbs and a carry that stand for the sum are those of the ripple-carry form. -/
theorem addLimbs_eq {a b r : FixedReg} {c : Nat}
    (h : r.value.toNat + 2 ^ 256 * c = a.value.toNat + b.value.toNat) :
    addLimbs 0 a.toList b.toList = (r.toList, c) := by
  obtain ⟨hlen, hsum⟩ := addLimbs_spec 0 (as := a.toList) (bs := b.toList) (by simp)
  rw [Nat.add_zero, ← a.value_toNat, ← b.value_toNat, ← h, r.value_toNat, Vector.length_toList] at hsum
  rw [Vector.length_toList] at hlen
  exact Prod.ext_iff.2 (limbs_carry_unique (by simp [hlen]) (by rw [hlen]; exact hsum))

/-- One limb of a subtraction: the difference modulo 2^32, and a borrow where it is negative. -/
theorem sub_limb_borrow (a b : Word) {w : Nat} (hw : w ≤ 1) :
    (BitVec.ofInt 32 ((a.toNat : Int) - b.toNat - w)).toNat + b.toNat + w =
      a.toNat + 2 ^ 32 * (if (a.toNat : Int) - b.toNat - w < 0 then 1 else 0) := by
  have ha := a.isLt
  have hb := b.isLt
  rw [BitVec.toNat_ofInt]
  split <;> omega

/-- Ripple-borrow subtraction gives as many limbs, and with the final borrow they stand for the difference (R114). -/
theorem subLimbs_spec : ∀ {w : Nat} {as bs : List Word}, w ≤ 1 → as.length = bs.length →
    (subLimbs w as bs).1.length = as.length ∧
    limbsToNat (subLimbs w as bs).1 + limbsToNat bs + w = limbsToNat as + 2 ^ (32 * as.length) * (subLimbs w as bs).2
  | w, [], [], _, _ => by simp [subLimbs, limbsToNat]
  | w, a :: as, b :: bs, hw, h => by
    have hlimb := sub_limb_borrow a b hw
    generalize hw' : (if (a.toNat : Int) - b.toNat - w < 0 then 1 else 0) = w' at hlimb
    obtain ⟨hlen, ih⟩ := subLimbs_spec (w := w') (by subst hw'; split <;> omega) (Nat.succ.inj h)
    simp only [subLimbs, hw']
    refine ⟨congrArg Nat.succ hlen, ?_⟩
    simp only [limbsToNat, List.length_cons, Nat.mul_succ, Nat.pow_add, Nat.mul_comm _ (2 ^ 32), Nat.mul_assoc]
    omega

/-- Limbs and a borrow that stand for the difference are those of the ripple-borrow form. -/
theorem subLimbs_eq {a b r : FixedReg} {w : Nat}
    (h : r.value.toNat + b.value.toNat = a.value.toNat + 2 ^ 256 * w) :
    subLimbs 0 a.toList b.toList = (r.toList, w) := by
  obtain ⟨hlen, hdiff⟩ := subLimbs_spec (as := a.toList) (bs := b.toList) (Nat.zero_le 1) (by simp)
  rw [Nat.add_zero, ← a.value_toNat, ← b.value_toNat, Vector.length_toList] at hdiff
  rw [r.value_toNat] at h
  rw [Vector.length_toList] at hlen
  obtain ⟨hr, hw⟩ := limbs_carry_unique (l := (subLimbs 0 a.toList b.toList).1) (m := r.toList) (c := w)
    (d := (subLimbs 0 a.toList b.toList).2) (by simp [hlen]) (by rw [hlen]; omega)
  exact Prod.ext hr hw.symm

/-- The sum and the carry stand for the sum of the operands (R113). -/
theorem add256_spec (a b : U256) :
    (add256 a b).1.toNat + 2 ^ 256 * (add256 a b).2.toNat = a.toNat + b.toNat := by
  have ha := a.isLt
  have hb := b.isLt
  simp only [add256, carryOut, BitVec.toNat_ofNat]
  by_cases h : 2 ^ 256 ≤ a.toNat + b.toNat
  · rw [decide_eq_true h, Bool.toNat_true]; omega
  · rw [decide_eq_false h, Bool.toNat_false]; omega

/-- The difference, less the borrow, is the difference of the operands (R114). -/
theorem sub256_spec (a b : U256) :
    (sub256 a b).1.toNat + b.toNat = a.toNat + 2 ^ 256 * (sub256 a b).2.toNat := by
  have ha := a.isLt
  have hb := b.isLt
  simp only [sub256, borrowOut, BitVec.toNat_sub]
  by_cases h : a.toNat < b.toNat
  · rw [decide_eq_true h, Bool.toNat_true]; omega
  · rw [decide_eq_false h, Bool.toNat_false]; omega

end Sys2Proof.Machine

namespace Sys2Proof.Laws

open Sys2Proof.Machine

/-- Settles O34: the limb order compares the integers, and the compare flags are those of two integers. -/
theorem cmpSetsOneHotFlags : Obligations.CmpSetsOneHotFlags := fun s a b =>
  ⟨⟨rfl, rfl, decodeWord_encode (.cmp a b)⟩, cmpLimbs_eq_compare _ _, _, exec_cmp s a b, Completed.retire _,
    (exec_next (exec_cmp s a b)).1, s.flags.withCompare_compare _ _⟩

/-- Settles O35: the quotient is the shifted value, and its bits are read limb by limb. -/
theorem shr1HalvesAndShiftsOutBitZero : Obligations.Shr1HalvesAndShiftsOutBitZero := by
  intro s rd a
  obtain ⟨-, hdone, hread, hflags⟩ := s.completeFC_spec rd (shr1 (s.readF a))
  rw [shr1_fst] at hread
  refine ⟨⟨rfl, rfl, decodeWord_encode (.shr1 rd a)⟩, _, exec_shr1 s rd a, hdone, (exec_next (exec_shr1 s rd a)).1, ?_, ?_,
    fun j => ?_, hflags⟩
  · rw [hread, BitVec.toNat_ushiftRight, Nat.shiftRight_eq_div_pow, Nat.pow_one]
  · rw [hread, BitVec.getLsbD_ushiftRight]
    exact BitVec.getLsbD_of_ge _ _ (by decide)
  · rw [FixedReg.getElem_getLsbD _ _ (by decide), FixedReg.getElem_getLsbD _ _ (by decide), ← State.readF, ← State.readF,
      hread, BitVec.getLsbD_ushiftRight]
    congr 1
    omega

/-- Settles O36: sum and carry stand for the sum of the operands, and that determines both, limb by limb. -/
theorem addGivesSumAndCarry : Obligations.AddGivesSumAndCarry := by
  intro s rd a b
  obtain ⟨-, hdone, hread, hflags⟩ := s.completeFC_spec rd (add256 (s.readF a) (s.readF b))
  have hsum := add256_spec (s.readF a) (s.readF b)
  rw [← hread] at hsum
  generalize (add256 (s.readF a) (s.readF b)).2 = c at hsum hflags
  have hlt := ((s.completeFC rd (add256 (s.readF a) (s.readF b))).readF rd).isLt
  refine ⟨⟨rfl, rfl, decodeWord_encode (.add rd a b)⟩, _, exec_add s rd a b, hdone, (exec_next (exec_add s rd a b)).1, ?_,
    by rw [hflags], ?_, ?_⟩
  · omega
  · rw [hflags]; dsimp only; omega
  · rw [hflags]; exact addLimbs_eq hsum

/-- Settles O37: difference and borrow stand for the difference of the operands, and that determines both, limb by limb. -/
theorem subGivesDifferenceAndBorrow : Obligations.SubGivesDifferenceAndBorrow := by
  intro s rd a b
  obtain ⟨-, hdone, hread, hflags⟩ := s.completeFC_spec rd (sub256 (s.readF a) (s.readF b))
  have hdiff := sub256_spec (s.readF a) (s.readF b)
  rw [← hread] at hdiff
  have hlt := ((s.completeFC rd (sub256 (s.readF a) (s.readF b))).readF rd).isLt
  refine ⟨⟨rfl, rfl, decodeWord_encode (.sub rd a b)⟩, _, exec_sub s rd a b, hdone, (exec_next (exec_sub s rd a b)).1, ?_,
    hflags, ?_⟩
  · omega
  · rw [hflags]; exact subLimbs_eq hdiff

end Sys2Proof.Laws
end

section
/-! PROOFS. The two limb orders of the product and the symmetric square against the values of the registers, and the three
full-product commands (spec/41_modular.md R123 to R125). -/

namespace Sys2Proof.Machine

/-! Sixteen limbs and the integer they stand for. -/

set_option exponentiation.threshold 512 in
/-- The value of a DoubleWidth register is the integer its limbs stand for (R6). -/
theorem DoubleReg.value_toNat (r : DoubleReg) : r.value.toNat = limbsToNat r.toList := by
  have h := limbsToNat_lt r.toList
  rw [Vector.length_toList] at h
  rw [DoubleReg.value, BitVec.toNat_ofNat, Nat.mod_eq_of_lt h]

/-- Sixteen limbs that stand for a register's value are its limbs. -/
theorem DoubleReg.eq_toList {r : DoubleReg} {l : List Word} (hlen : l.length = 16) (h : limbsToNat l = r.value.toNat) :
    l = r.toList :=
  limbsToNat_inj (hlen.trans r.length_toList.symm) (h.trans r.value_toNat)

/-! Operand scanning. -/

/-- What one limb of a row carries into the next is a limb again: each step of the row fits 64 bits (R123). -/
theorem row_carry_lt (c x b : Word) {u : Nat} (hu : u < 2 ^ 32) : (c.toNat + x.toNat * b.toNat + u) / 2 ^ 32 < 2 ^ 32 := by
  have hxb : x.toNat * b.toNat ≤ (2 ^ 32 - 1) * (2 ^ 32 - 1) := Nat.mul_le_mul (by omega) (by omega)
  omega

/-- One row adds x times the second factor, and is one limb longer (R123). -/
theorem rowScan_spec (x : Word) : ∀ {cs bs : List Word} {u : Nat}, cs.length = bs.length → u < 2 ^ 32 →
    (rowScan x cs bs u).length = bs.length + 1 ∧
    limbsToNat (rowScan x cs bs u) = limbsToNat cs + x.toNat * limbsToNat bs + u
  | [], [], u, _, hu => by simpa [rowScan, limbsToNat] using hu
  | c :: cs, b :: bs, u, h, hu => by
    obtain ⟨hlen, ih⟩ := rowScan_spec x (Nat.succ.inj h) (row_carry_lt c x b hu)
    refine ⟨congrArg Nat.succ hlen, ?_⟩
    simp only [rowScan, limbsToNat, ih, BitVec.toNat_ofNat, Nat.mul_add, Nat.mul_left_comm x.toNat]
    omega

/-- Row after row adds the product, and the result is as long as the first factor and the limbs so far together (R123). -/
theorem operandScan_spec {bs : List Word} : ∀ {as acc : List Word}, acc.length = bs.length →
    (operandScan bs as acc).length = as.length + acc.length ∧
    limbsToNat (operandScan bs as acc) = limbsToNat acc + limbsToNat as * limbsToNat bs
  | [], acc, _ => by simp [operandScan, limbsToNat]
  | x :: as, acc, h => by
    obtain ⟨hlen, hrow⟩ := rowScan_spec x h (u := 0) (by decide)
    obtain ⟨low, acc', e⟩ := List.exists_cons_of_length_eq_add_one hlen
    rw [e] at hlen hrow
    have hacc : acc'.length = bs.length := Nat.succ.inj hlen
    obtain ⟨hlen', ih⟩ := operandScan_spec (as := as) hacc
    simp only [operandScan, e, List.length_cons, hlen', limbsToNat, ih]
    rw [limbsToNat] at hrow
    refine ⟨by omega, ?_⟩
    rw [Nat.mul_add, ← Nat.add_assoc, hrow]
    ring

/-! Product scanning. -/

/-- Column by column the accumulator carries what stands above the limb written, so that the limbs stand for the sum of the
columns, each at its place, as far as the result is long (R124). -/
theorem columnScan_spec (column : Nat → Nat) : ∀ left k acc,
    (columnScan column left k acc).length = left + 1 ∧
    limbsToNat (columnScan column left k acc) =
      (acc + ∑ i ∈ Finset.range left, 2 ^ (32 * i) * column (k + i)) % 2 ^ (32 * (left + 1))
  | 0, k, acc => by simp [columnScan, limbsToNat]
  | left + 1, k, acc => by
    obtain ⟨hlen, ih⟩ := columnScan_spec column left (k + 1) ((acc + column k) / 2 ^ 32)
    refine ⟨congrArg Nat.succ hlen, ?_⟩
    have hsum : acc + ∑ i ∈ Finset.range (left + 1), 2 ^ (32 * i) * column (k + i) =
        acc + column k + 2 ^ 32 * ∑ i ∈ Finset.range left, 2 ^ (32 * i) * column (k + 1 + i) := by
      rw [Finset.sum_range_succ', Finset.mul_sum, Nat.mul_zero, Nat.pow_zero, Nat.one_mul, Nat.add_zero, ← Nat.add_assoc,
        Nat.add_right_comm]
      simp only [Nat.mul_succ, Nat.pow_add, Nat.mul_comm _ (2 ^ 32), Nat.mul_assoc, Nat.add_assoc, Nat.add_comm 1]
    rw [columnScan, limbsToNat, ih, BitVec.toNat_ofNat, hsum, Nat.mul_succ 32 (left + 1), Nat.add_comm (32 * (left + 1)),
      Nat.pow_add, Nat.mod_mul, Nat.add_mul_mod_self_left, Nat.add_mul_div_left _ _ (by decide)]

theorem limbNat_of_length_le {l : List Word} {i : Nat} (h : l.length ≤ i) : limbNat l i = 0 := by
  rw [limbNat, List.getD_eq_default _ _ h]; rfl

/-- The integer of a sequence of limbs is the sum of its limbs, each at its place; what is beyond the end counts 0. -/
theorem sum_limbNat : ∀ {l : List Word} {n : Nat}, l.length ≤ n →
    ∑ i ∈ Finset.range n, 2 ^ (32 * i) * limbNat l i = limbsToNat l
  | [], n, _ => Finset.sum_eq_zero fun i _ => by rw [limbNat_of_length_le (Nat.zero_le i), Nat.mul_zero]
  | x :: l, n + 1, h => by
    rw [Finset.sum_range_succ', limbsToNat, ← sum_limbNat (Nat.le_of_succ_le_succ h), Finset.mul_sum, Nat.add_comm]
    refine congrArg₂ (· + ·) (by simp [limbNat]) (Finset.sum_congr rfl fun i _ => ?_)
    rw [Nat.mul_succ, Nat.pow_add, Nat.mul_comm (2 ^ (32 * i)), Nat.mul_assoc]
    rfl

/-- The columns with the first n limbs of the first factor, each at its place, sum to that part times the second factor. -/
theorem sum_columnSum (a : List Word) {b : List Word} {m : Nat} : ∀ {n : Nat}, n + b.length ≤ m + 1 →
    ∑ k ∈ Finset.range m, 2 ^ (32 * k) * columnSum a b k n =
      (∑ i ∈ Finset.range n, 2 ^ (32 * i) * limbNat a i) * limbsToNat b
  | 0, _ => by simp [columnSum]
  | n + 1, h => by
    obtain ⟨d, rfl⟩ : ∃ d, m = n + d := ⟨m - n, by omega⟩
    have hshift : ∑ k ∈ Finset.range (n + d), 2 ^ (32 * k) * (if n ≤ k then limbNat a n * limbNat b (k - n) else 0) =
        2 ^ (32 * n) * limbNat a n * limbsToNat b := by
      rw [Finset.sum_range_add, Finset.sum_eq_zero fun k hk => by
        rw [if_neg (Nat.not_le.2 (Finset.mem_range.1 hk)), Nat.mul_zero], Nat.zero_add,
        ← sum_limbNat (show b.length ≤ d by omega), Finset.mul_sum]
      refine Finset.sum_congr rfl fun j _ => ?_
      rw [if_pos (Nat.le_add_right n j), Nat.add_sub_cancel_left, Nat.mul_add, Nat.pow_add]
      ring
    simp only [columnSum, Nat.mul_add, Finset.sum_add_distrib]
    rw [sum_columnSum a (by omega), hshift, Finset.sum_range_succ, Nat.add_mul]

/-- The columns of two 256-bit operands sum to the product. -/
theorem sum_columns (a b : FixedReg) :
    ∑ k ∈ Finset.range 15, 2 ^ (32 * k) * columnSum a.toList b.toList k 8 = a.value.toNat * b.value.toNat := by
  rw [sum_columnSum a.toList (by rw [b.length_toList]), sum_limbNat a.length_toList.le, a.value_toNat, b.value_toNat]

/-! Symmetric squaring. -/

/-- Sums that stop anywhere in a tail of zeros agree. -/
theorem sum_range_eq_of_zero_tails {f : Nat → Nat} {m n : Nat} (hm : ∀ i, m ≤ i → f i = 0) (hn : ∀ i, n ≤ i → f i = 0) :
    ∑ i ∈ Finset.range m, f i = ∑ i ∈ Finset.range n, f i :=
  (Finset.eventually_constant_sum hm (le_max_left m n)).symm.trans (Finset.eventually_constant_sum hn (le_max_right m n))

/-- The product of the limbs at the positions i and k - i. -/
def pairTerm (a b : List Word) (k i : Nat) : Nat := limbNat a i * limbNat b (k - i)

/-- The terms of a sum over i ≤ k folded at its middle: each below it counts twice, the middle once, the rest not. -/
def foldedTerm (f : Nat → Nat) (k i : Nat) : Nat := if i + i < k then 2 * f i else if i + i = k then f i else 0

theorem pairTerm_of_length_le {a : List Word} {i : Nat} (h : a.length ≤ i) (b : List Word) (k : Nat) :
    pairTerm a b k i = 0 := by
  rw [pairTerm, limbNat_of_length_le h, Nat.zero_mul]

/-- A column of the product of all limbs is the sum over the pairs of positions that add up to the column (R124). -/
theorem columnSum_eq_sum {a b : List Word} {n : Nat} (h : a.length ≤ n) (k : Nat) :
    columnSum a b k n = ∑ i ∈ Finset.range (k + 1), pairTerm a b k i := by
  have hrec : ∀ n, columnSum a b k n = ∑ i ∈ Finset.range n, if i ≤ k then pairTerm a b k i else 0 := by
    intro n
    induction n with
    | zero => rfl
    | succ n ih => rw [Finset.sum_range_succ, ← ih, columnSum, pairTerm]
  rw [hrec, sum_range_eq_of_zero_tails (n := k + 1)]
  · exact Finset.sum_congr rfl fun i hi => if_pos (Nat.le_of_lt_succ (Finset.mem_range.1 hi))
  · intro i hi
    rw [pairTerm_of_length_le (h.trans hi), ite_self]
  · exact fun i hi => if_neg (Nat.not_le.2 hi)

/-- A column of the symmetric form is the same sum folded at its middle (R125). -/
theorem squareColumn_eq_sum {a : List Word} {n : Nat} (h : a.length ≤ n) (k : Nat) :
    squareColumn a k n = ∑ i ∈ Finset.range (k + 1), foldedTerm (pairTerm a a k) k i := by
  have hrec : ∀ n, squareColumn a k n = ∑ i ∈ Finset.range n, foldedTerm (pairTerm a a k) k i := by
    intro n
    induction n with
    | zero => rfl
    | succ n ih =>
      rw [Finset.sum_range_succ, ← ih, squareColumn, foldedTerm, pairTerm]
      refine congrArg (_ + ·) (if_congr (by omega) rfl (if_ctx_congr Iff.rfl (fun e => ?_) fun _ => rfl))
      rw [← Nat.eq_sub_of_add_eq e]
  rw [hrec, sum_range_eq_of_zero_tails (n := k + 1)]
  · intro i hi
    rw [foldedTerm, pairTerm_of_length_le (h.trans hi), Nat.mul_zero, ite_self, ite_self]
  · intro i hi
    rw [foldedTerm, if_neg (by omega), if_neg (by omega)]

/-- Folding does not change the sum of a function that is the same at i and at k - i. -/
theorem sum_foldedTerm {f : Nat → Nat} {k : Nat} (hf : ∀ i ≤ k, f (k - i) = f i) :
    ∑ i ∈ Finset.range (k + 1), foldedTerm f k i = ∑ i ∈ Finset.range (k + 1), f i := by
  have hmirror : ∑ i ∈ Finset.range (k + 1), (if i + i < k then f i else 0) =
      ∑ i ∈ Finset.range (k + 1), if k < i + i then f i else 0 := by
    rw [← Finset.sum_range_reflect]
    refine Finset.sum_congr rfl fun i hi => ?_
    have hik : i ≤ k := Nat.le_of_lt_succ (Finset.mem_range.1 hi)
    rw [Nat.add_sub_cancel, hf i hik]
    exact if_congr (by omega) rfl rfl
  calc ∑ i ∈ Finset.range (k + 1), foldedTerm f k i
      = ∑ i ∈ Finset.range (k + 1), ((if i + i < k then f i else 0) + if i + i ≤ k then f i else 0) :=
        Finset.sum_congr rfl fun i _ => by rw [foldedTerm]; split_ifs <;> omega
    _ = ∑ i ∈ Finset.range (k + 1), ((if k < i + i then f i else 0) + if i + i ≤ k then f i else 0) := by
        rw [Finset.sum_add_distrib, Finset.sum_add_distrib, hmirror]
    _ = ∑ i ∈ Finset.range (k + 1), f i := Finset.sum_congr rfl fun i _ => by split_ifs <;> omega

/-- Doubling the cross terms gives the column of the product of the limbs with themselves (R125). -/
theorem squareColumn_eq_columnSum {a : List Word} {n : Nat} (h : a.length ≤ n) (k : Nat) :
    squareColumn a k n = columnSum a a k n := by
  rw [squareColumn_eq_sum h, columnSum_eq_sum h]
  exact sum_foldedTerm fun i hi => by rw [pairTerm, pairTerm, Nat.sub_sub_self hi, Nat.mul_comm]

/-! The kernels. -/

/-- Operand scanning from eight zero limbs gives sixteen limbs that stand for the product (R123). -/
theorem mulFullOperandScanning_spec (a b : FixedReg) :
    (mulFullOperandScanning a b).length = 16 ∧
    limbsToNat (mulFullOperandScanning a b) = a.value.toNat * b.value.toNat := by
  obtain ⟨hlen, hprod⟩ := operandScan_spec (bs := b.toList) (as := a.toList) (acc := List.replicate 8 0) (by simp)
  refine ⟨hlen.trans (by simp), ?_⟩
  rw [mulFullOperandScanning, hprod, a.value_toNat, b.value_toNat]
  exact Nat.zero_add _

set_option exponentiation.threshold 512 in
/-- Product scanning gives sixteen limbs, and the product fits into them (R124). -/
theorem mulFullProductScanning_spec (a b : FixedReg) :
    (mulFullProductScanning a b).length = 16 ∧
    limbsToNat (mulFullProductScanning a b) = a.value.toNat * b.value.toNat := by
  obtain ⟨hlen, hsum⟩ := columnScan_spec (fun k => columnSum a.toList b.toList k 8) 15 0 0
  have hlt : a.value.toNat * b.value.toNat < 2 ^ 512 := Laws.mulfull_toNat a.value b.value ▸ (mulfull a.value b.value).isLt
  simp only [Nat.zero_add, sum_columns] at hsum
  exact ⟨hlen, hsum.trans (Nat.mod_eq_of_lt hlt)⟩

/-- The symmetric form writes the same limbs as product scanning of the operand with itself (R125). -/
theorem sqrFullScanning_eq (a : FixedReg) : sqrFullScanning a = mulFullProductScanning a a :=
  congrArg (columnScan · 15 0 0) (funext fun k => squareColumn_eq_columnSum a.length_toList.le k)

end Sys2Proof.Machine

namespace Sys2Proof.Laws

open Sys2Proof.Machine

/-- Settles O39: both scanning orders give sixteen limbs that stand for the product, and so does the register. -/
theorem mulfullGivesExactProduct : Obligations.MulfullGivesExactProduct := by
  intro s rd a b
  obtain ⟨hframe, hdone, hread⟩ := s.completeW_spec rd (mulfull (s.readF a) (s.readF b))
  have hprod := (congrArg BitVec.toNat hread).trans (mulfull_toNat _ _)
  obtain ⟨hlen, hos⟩ := mulFullOperandScanning_spec (s.f.get a) (s.f.get b)
  obtain ⟨hlen', hps⟩ := mulFullProductScanning_spec (s.f.get a) (s.f.get b)
  exact ⟨⟨rfl, rfl, decodeWord_encode (.mulfull rd a b)⟩, ⟨rfl, rfl, decodeWord_encode (.mulfullps rd a b)⟩, _,
    exec_mulfull s rd a b, exec_mulfullps s rd a b, hdone, hframe, hprod,
    DoubleReg.eq_toList hlen (hos.trans hprod.symm), DoubleReg.eq_toList hlen' (hps.trans hprod.symm)⟩

/-- Settles O40: MULFULL of the operand with itself, in the command and in the columns. -/
theorem sqrfullGivesExactSquare : Obligations.SqrfullGivesExactSquare := by
  intro s rd a
  obtain ⟨-, -, t, hmul, -, hdone, hframe, hprod, -, hps⟩ := mulfullGivesExactProduct s rd a a
  exact ⟨⟨rfl, rfl, decodeWord_encode (.sqrfull rd a)⟩, t, hmul, hmul, hdone, hframe, hprod.trans (pow_two _).symm,
    (sqrFullScanning_eq _).trans hps⟩

end Sys2Proof.Laws
end

section
/-! PROOFS. The table of the fast reducer modulo p, and its correction step (spec/41_modular.md R127, R128). -/

namespace Sys2Proof.Machine

/-- A partial value in Mathlib's terms: a number from its digits to the base 2^32, which Mathlib takes least significant
first. -/
theorem partialValue_eq_ofDigits (l : List Nat) : partialValue l = Nat.ofDigits (2 ^ 32) l.reverse := by
  rw [Nat.ofDigits_eq_foldr, List.foldr_reverse, partialValue]
  simp only [Nat.cast_id, Nat.add_comm, Nat.mul_comm]

theorem partialValue_lt {l : List Nat} (h : ∀ x ∈ l, x < 2 ^ 32) : partialValue l < (2 ^ 32) ^ l.length := by
  rw [partialValue_eq_ofDigits, ← List.length_reverse]
  exact Nat.ofDigits_lt_base_pow_length (by decide) fun x hx => h x (List.mem_reverse.1 hx)

theorem limbOf_lt (T j : Nat) : limbOf T j < 2 ^ 32 := Nat.mod_lt _ (by decide)

/-- Eight limbs, each at its place, in any semiring the value is read in. -/
theorem cast_partialValue_eight {R : Type} [CommSemiring R] (a b c d e f g h : Nat) :
    (partialValue [a, b, c, d, e, f, g, h] : R) =
      a * (2 ^ 32) ^ 7 + b * (2 ^ 32) ^ 6 + c * (2 ^ 32) ^ 5 + d * (2 ^ 32) ^ 4 + e * (2 ^ 32) ^ 3 + f * (2 ^ 32) ^ 2 +
        g * 2 ^ 32 + h := by
  simp only [partialValue, List.foldl_cons, List.foldl_nil]
  push_cast
  ring

/-- The lowest n limbs of T, each at its place, are T modulo 2^(32·n). -/
theorem sum_limbOf (T n : Nat) : ∑ j ∈ Finset.range n, limbOf T j * (2 ^ 32) ^ j = T % (2 ^ 32) ^ n := by
  induction n with
  | zero => rw [Nat.pow_zero, Nat.mod_one, Finset.sum_range_zero]
  | succ n ih => rw [Finset.sum_range_succ, ih, limbOf, Nat.pow_mul, pow_succ (2 ^ 32), Nat.mod_mul, Nat.mul_comm]

set_option exponentiation.threshold 512 in
/-- Sixteen limbs are all of a 512-bit T. -/
theorem sum_sixteen_limbs {T : Nat} (hT : T < 2 ^ 512) : ∑ j ∈ Finset.range 16, limbOf T j * (2 ^ 32) ^ j = T :=
  (sum_limbOf T 16).trans (Nat.mod_eq_of_lt hT)

/-- Eight places with a limb of T or a 0 in each. -/
theorem partialValue_placed_lt {T : Nat} {l : List Nat} (hlen : l.length = 8) (h : ∀ d ∈ l, d = 0 ∨ ∃ j, limbOf T j = d) :
    partialValue l < 2 ^ 256 := by
  refine (partialValue_lt fun d hd => ?_).trans_eq (by rw [hlen, ← Nat.pow_mul])
  obtain rfl | ⟨j, rfl⟩ := h d hd
  · decide
  · exact limbOf_lt T j

theorem fastPartials_lt (T : Nat) : ∀ x ∈ fastPartials T, x < 2 ^ 256 := by
  simp only [fastPartials, List.forall_mem_cons]
  refine ⟨?_, ?_, ?_, ?_, ?_, ?_, ?_, ?_, ?_, List.forall_mem_nil _⟩ <;>
    exact partialValue_placed_lt (T := T) rfl (by simp)

/-- s0 is the low half of T (R127). -/
theorem fastPartials_head (T : Nat) : (fastPartials T).head? = some (T % 2 ^ 256) := by
  refine congrArg some ((cast_partialValue_eight (R := Nat) _ _ _ _ _ _ _ _).trans ?_)
  rw [Nat.pow_mul 2 32 8, ← sum_limbOf]
  simp only [Finset.sum_range_succ, Finset.sum_range_zero, Nat.cast_id]
  ring

/-- p has few terms in powers of X = 2^32 (R8); where p is 0 that gives X⁸ in lower powers. -/
theorem limb_base_pow_eight {R : Type} [CommRing R] (hp : (Config.p : R) = 0) :
    ((2 : R) ^ 32) ^ 8 = (2 ^ 32) ^ 7 - (2 ^ 32) ^ 6 - (2 ^ 32) ^ 3 + 1 := by
  have h := congrArg (Nat.cast (R := R))
    (show (2 ^ 32) ^ 8 + (2 ^ 32) ^ 6 + (2 ^ 32) ^ 3 = (2 ^ 32) ^ 7 + 1 + Config.p by decide)
  rw [Nat.cast_add _ Config.p, hp] at h
  push_cast at h
  linear_combination h

/-- Where p is 0, the signed sum of the nine partial values is T: each limb from c8 up stands in the table where the powers
of X that replace its own stand (R127). -/
theorem fastSum_cast {R : Type} [CommRing R] (hp : (Config.p : R) = 0) {T : Nat} (hT : T < 2 ^ 512) :
    ((fastSum T : Int) : R) = T := by
  have hlimbs := congrArg (Nat.cast (R := R)) (sum_sixteen_limbs hT)
  have h8 := limb_base_pow_eight hp
  rw [← hlimbs]
  simp only [fastSum, fastPartials, Int.cast_add, Int.cast_sub, Int.cast_mul, Int.cast_natCast, Int.cast_ofNat,
    cast_partialValue_eight (R := R), Finset.sum_range_succ, Finset.sum_range_zero, Nat.cast_add, Nat.cast_mul,
    Nat.cast_pow, Nat.cast_ofNat, Nat.cast_zero]
  generalize (2 : R) ^ 32 = X at h8 ⊢
  have h9 : X ^ 9 = -X ^ 6 - X ^ 4 - X ^ 3 + X + 1 := by linear_combination X * h8 + h8
  have h10 : X ^ 10 = -X ^ 7 - X ^ 5 - X ^ 4 + X ^ 2 + X := by linear_combination X * h9
  have h11 : X ^ 11 = -X ^ 7 - X ^ 5 + 2 * X ^ 3 + X ^ 2 - 1 := by linear_combination X * h10 - h8
  have h12 : X ^ 12 = -X ^ 7 + 2 * X ^ 4 + 2 * X ^ 3 - X - 1 := by linear_combination X * h11 - h8
  have h13 : X ^ 13 = -X ^ 7 + X ^ 6 + 2 * X ^ 5 + 2 * X ^ 4 + X ^ 3 - X ^ 2 - X - 1 := by linear_combination X * h12 - h8
  have h14 : X ^ 14 = 3 * X ^ 6 + 2 * X ^ 5 + X ^ 4 - X ^ 2 - X - 1 := by linear_combination X * h13 - h8
  have h15 : X ^ 15 = 3 * X ^ 7 + 2 * X ^ 6 + X ^ 5 - X ^ 3 - X ^ 2 - X := by linear_combination X * h14
  linear_combination -(limbOf T 8 : R) * h8 - (limbOf T 9 : R) * h9 - (limbOf T 10 : R) * h10 - (limbOf T 11 : R) * h11 -
    (limbOf T 12 : R) * h12 - (limbOf T 13 : R) * h13 - (limbOf T 14 : R) * h14 - (limbOf T 15 : R) * h15

theorem fastSum_emod {T : Nat} (hT : T < 2 ^ 512) : fastSum T % (Config.p : Int) = (T : Int) % Config.p :=
  (ZMod.intCast_eq_intCast_iff' ..).1 ((fastSum_cast (ZMod.natCast_self _) hT).trans (Int.cast_natCast T).symm)

end Sys2Proof.Machine

namespace Sys2Proof.Laws

open Sys2Proof.Machine

/-- Settles O42: the table modulo p, and the correction subtracts a multiple of p. -/
theorem ninePartialValuesCongruent : Obligations.NinePartialValuesCongruent := by
  intro T hT
  have hsum := fastSum_emod hT
  refine ⟨rfl, fastPartials_lt T, fastPartials_head T, hsum, ?_, ?_⟩
  · rw [fastCorrected, Int.sub_mul_emod_self_right, hsum]
  · rw [fastCarries, Int.mul_comm, ← Int.emod_def]
    exact ⟨Int.emod_nonneg _ (by decide), Int.emod_lt_of_pos _ (by decide)⟩

end Sys2Proof.Laws
end

section
/-! PROOFS. ADDMOD, SUBMOD and FRED, and the field properties (spec/41_modular.md R120 to R122, R126;
spec/42_montgomery_inverse.md R147). -/

namespace Sys2Proof.Laws

open Sys2Proof.Machine

/-- A class V function of two field elements completes, with its value in domain (R120, R247). -/
theorem completeF_fieldBinary (s : State) (rd : FReg) (op : U256 → U256 → U256) (a b : U256) :
    Completed (s.completeF rd (fieldBinary op a b)) ∧
    (a.toNat < Config.p → b.toNat < Config.p → (s.completeF rd (fieldBinary op a b)).readF rd = op a b) := by
  obtain ⟨-, -, ⟨hdone, hread⟩ | ⟨hnever, -⟩⟩ := s.completeF_spec rd (fieldBinary op a b)
  · exact ⟨hdone, fun ha hb => hread _ (fieldBinary_inDomain op ha hb)⟩
  · exact absurd hnever (not_or.2 (fieldBinary_completes op a b))

/-- SUBMOD's value as the integer difference modulo p (R122). -/
theorem submod_toInt {a b : U256} (ha : a.toNat < Config.p) (hb : b.toNat < Config.p) :
    ((submod a b).toNat : Int) = ((a.toNat : Int) - b.toNat) % Config.p := by
  rw [submod_toNat ha hb, Int.natCast_mod, Nat.cast_sub (by omega), Nat.cast_add, add_sub_right_comm, Int.add_emod_right]

/-- Settles O38: the values in domain, and a class V command completes in any case. -/
theorem addmodSubmodGiveResidues : Obligations.AddmodSubmodGiveResidues := by
  intro s rd a b
  obtain ⟨hadd, hsum⟩ := completeF_fieldBinary s rd addmod (s.readF a) (s.readF b)
  obtain ⟨hsub, hdiff⟩ := completeF_fieldBinary s rd submod (s.readF a) (s.readF b)
  refine ⟨⟨rfl, rfl, decodeWord_encode (.addmod rd a b)⟩, ⟨rfl, rfl, decodeWord_encode (.submod rd a b)⟩,
    ⟨_, exec_addmod s rd a b, hadd, (exec_next (exec_addmod s rd a b)).1, fun ha hb => ?_⟩,
    ⟨_, exec_submod s rd a b, hsub, (exec_next (exec_submod s rd a b)).1, fun ha hb => ?_⟩⟩
  · rw [hsum ha hb, addmod_toNat ha hb]
  · rw [hdiff ha hb, submod_toInt ha hb]

/-- Settles O41: in domain FRED's value is T mod p, and a class V command completes in any case. -/
theorem fredReducesProducts : Obligations.FredReducesProducts := by
  intro s rd a
  refine ⟨⟨rfl, rfl, decodeWord_encode (.fred rd a)⟩, _, exec_fred s rd a, ?_⟩
  obtain ⟨-, -, ⟨hdone, hread⟩ | ⟨hnever, -⟩⟩ :=
    s.tick.completeF_spec rd (fredResult (Config.fredMayDraw s.draws) (s.readW a))
  · refine ⟨hdone, (exec_next (exec_fred s rd a)).1, fun hT => ?_⟩
    rw [hread _ (fredResult_inDomain _ hT), fred_toNat]
  · exact absurd hnever (not_or.2 (fredResult_completes _ _))

/-- The two reduction paths agree (R126, R142). -/
theorem fred_mulfull_eq_mulmod (a : U256) {b : U256} (hb : b.toNat < Config.p) : fred (mulfull a b) = mulmod a b :=
  BitVec.eq_of_toNat_eq (by rw [fred_toNat, mulfull_toNat, mulmod_toNat hb])

theorem mulmod_comm {a b : U256} (ha : a.toNat < Config.p) (hb : b.toNat < Config.p) : mulmod a b = mulmod b a :=
  BitVec.eq_of_toNat_eq (by rw [mulmod_toNat hb, mulmod_toNat ha, Nat.mul_comm])

theorem addmod_comm {a b : U256} (ha : a.toNat < Config.p) (hb : b.toNat < Config.p) : addmod a b = addmod b a :=
  BitVec.eq_of_toNat_eq (by rw [addmod_toNat ha hb, addmod_toNat hb ha, Nat.add_comm])

theorem submod_addmod_cancel {a b : U256} (ha : a.toNat < Config.p) (hb : b.toNat < Config.p) :
    submod (addmod a b) b = a := by
  have hsum := addmod_lt ha hb
  refine residue_inj (submod_lt hsum hb) ha ?_
  rw [residue_submod hsum hb, residue_addmod ha hb, add_sub_cancel_right]

/-- The inverse times the operand is 1 (R145, R147). -/
theorem mulmod_inv {a : U256} (h0 : a ≠ 0) (ha : a.toNat < Config.p) : ∃ x, inv a = some x ∧ mulmod x a = 1 := by
  obtain ⟨x, hx, -, hinv⟩ := inv_spec h0 ha
  refine ⟨x, hx, residue_inj mulmod_lt (by decide) ?_⟩
  rw [residue_mulmod ha, mul_comm, hinv, residue_one]

/-- Settles O47: each identity by the residues, or the numbers modulo p, that its two sides are. -/
theorem fieldIdentitiesHold : Obligations.FieldIdentitiesHold := fun a _ ha hb =>
  ⟨mulmod_comm ha hb, sqrmod_eq_mulmod a, fun h0 => mulmod_inv h0 ha, submod_addmod_cancel ha hb, addmod_comm ha hb,
    fred_mulfull_eq_mulmod a hb⟩

end Sys2Proof.Laws
end

section
/-! PROOFS. A command that hangs: its turn leaves the state, no event short of a reset reaches it, so it never completes
(spec/42_montgomery_inverse.md R146; spec/70_reset_and_hazards.md R247, R248). -/

namespace Sys2Proof.Machine

variable {s t : State}

/-! Whether a command hangs is decided by its operands and the draw counter. -/

/-- A completion ends BUSY, so it never gives back a busy state. -/
theorem State.retire_ne_of_busy (hb : s.busy = true) (u : State) : u.retire ≠ s := by
  rintro rfl
  exact Bool.noConfusion hb

/-- A result that leaves one busy state as it is leaves every state with the same draw counter (log entry 5). -/
theorem State.complete_stays {α : Type} {write : State → α → State} {draw : State → State} {r : Result α}
    (hb : s.busy = true) (hd : t.draws = s.draws) (h : s.complete write draw r = s) : t.complete write draw r = t := by
  cases r with
  | value v => exact absurd h (State.retire_ne_of_busy hb _)
  | anyValue => exact absurd h (State.retire_ne_of_busy hb _)
  | never => rfl
  | anyValueOrNever =>
    rw [State.complete] at h ⊢
    rw [hd]
    split at h
    · rw [if_pos ‹_›]
    · exact absurd h (State.retire_ne_of_busy hb _)

namespace CommandUndisturbed

theorem readF (h : CommandUndisturbed s t) (i : FReg) : t.readF i = s.readF i := by rw [State.readF, State.readF, h.f]

theorem readW (h : CommandUndisturbed s t) (i : WReg) : t.readW i = s.readW i := by rw [State.readW, State.readW, h.w]

theorem readA (h : CommandUndisturbed s t) (i : AReg) : t.readA i = s.readA i := by rw [State.readA, State.readA, h.a]

theorem readJ (h : CommandUndisturbed s t) (i : JReg) : t.readJ i = s.readJ i := by rw [State.readJ, State.readJ, h.j]

/-- A busy command that leaves the state at its turn does so at any later turn, if nothing has disturbed it: the commands
that write a flag or a W register, and FRED, always complete, and the others meet the same operands. -/
theorem exec_stays (h : CommandUndisturbed s t) (hb : s.busy = true) {i : Instr} (hi : exec i s = .next s) :
    exec i t = .next t := by
  cases i with
  | cmp | shr1 | add | sub | mulfull | mulfullps | sqrfull =>
    exact absurd (Host.Outcome.next.inj hi) (State.retire_ne_of_busy hb _)
  | fred rd a =>
    obtain ⟨-, hn, -⟩ := s.completeF_fred_frame rd (Config.fredMayDraw s.draws) (s.readW a)
    rw [Host.Outcome.next.inj hi] at hn
    exact absurd (hn.symm.trans hb) Bool.false_ne_true
  | addmod | submod | montred | mulmod | sqrmod | inv | a2j | j2a | addaff | dblaff | dblj | addja | smulltr | smulrtl
  | smulwin | smulbit =>
    refine congrArg Host.Outcome.next (Eq.trans ?_ (State.complete_stays hb h.draws (Host.Outcome.next.inj hi)))
    simp only [h.readF, h.readW, h.readA, h.readJ]
    rfl

end CommandUndisturbed

/-! The hang along a run. -/

/-- The command i is in flight and its turn leaves the state as it is. -/
structure Hung (i : Instr) (s : State) : Prop where
  latched : ∃ w, s.latch = some w ∧ decodeWord w = .ok i
  stays : exec i s = .next s
  done : s.done = false

namespace Hung

variable {i : Instr}

theorem busy (h : Hung i s) : s.busy = true := by
  obtain ⟨w, hl, -⟩ := h.latched
  rw [State.busy, hl, Option.isSome_some]

theorem ofUndisturbed (h : Hung i s) (hu : CommandUndisturbed s t) (hd : t.done = false) : Hung i t :=
  ⟨by rw [hu.latch]; exact h.latched, hu.exec_stays h.busy h.stays, hd⟩

theorem popEvent (h : Hung i s) : Hung i s.popEvent := h.ofUndisturbed (.setPending s _) h.done

end Hung

/-- No write sets DONE (R42, R211). -/
theorem State.memWrite_not_done (h : s.done = false) (off : Offset) (v : Word) : (s.memWrite off v).done = false := by
  obtain ⟨-, e⟩ | ⟨-, e⟩ | ⟨-, e⟩ | ⟨-, -, e⟩ | ⟨-, -, e⟩ | ⟨-, -, -, -, e⟩ := s.memWrite_cases off v <;> rw [e]
  · obtain ⟨-, e⟩ | ⟨-, -, e⟩ | ⟨-, -, e⟩ := s.offer_cases v <;> rw [e]
    · rw [s.raise_done, h]
    · rw [s.raise_done, h]
    · rfl
  · rw [State.writeStatus_eq, h, Bool.false_and]
  · unfold State.writeCtrl; split
    · rfl
    · exact h
  · rw [s.raise_done, h]
  · obtain ⟨-, -, hd, -⟩ := s.storeSlot_frame v (slotAt off)
    rw [hd, h]
  · exact h

/-- An access does not set DONE. -/
theorem access_not_done (h : s.done = false) {e : HostEvent} (ha : e.isAccess = true) (he : handleEvent e s = .next t) :
    t.done = false := by
  obtain ⟨n, xs, rfl⟩ | ⟨off, size, v, rfl, rfl⟩ | ⟨rfl, -⟩ | ⟨rfl, -⟩ | ⟨rfl, -⟩ := handleEvent_next he
  · exact h
  · exact State.memWrite_not_done h off v
  · cases ha
  · cases ha
  · cases ha

namespace Hung

variable {i : Instr}

/-- An access short of a reset is answered and leaves the command alone (R216). -/
theorem access (h : Hung i s) {e : HostEvent} (ha : e.isAccess = true) (hw : e.wellFormed = true)
    (hr : e.resets = false) :
    ∃ t, handleEvent e s = .next t ∧ CommandUndisturbed s t ∧ t.done = false ∧ t.pending = s.pending := by
  obtain ⟨t, he⟩ := access_answered ha hw s
  obtain ⟨hu, hp⟩ := access_undisturbed h.busy ha hr he
  exact ⟨t, he, hu, access_not_done h.done ha he, hp⟩

/-- So is every event short of a reset: at the unit's turn the command hangs again (R248). -/
theorem handleEvent (h : Hung i s) {e : HostEvent} (hw : e.wellFormed = true) (hr : e.resets = false) :
    ∃ t, handleEvent e s = .next t ∧ CommandUndisturbed s t ∧ t.done = false ∧ t.pending = s.pending := by
  cases e with
  | read | write => exact h.access rfl hw hr
  | unitTurn =>
    obtain ⟨w, hl, hd⟩ := h.latched
    exact ⟨s, (unitTurn_running hl hd).trans h.stays, .refl s, h.done, rfl⟩
  | hwReset => cases hr

/-- One step, the next event being such an event or, with nothing pending, the unit's turn. -/
theorem step (h : Hung i s) {k : Nat} (hp : ∀ e ∈ s.pending.take (k + 1), e.wellFormed = true ∧ e.resets = false) :
    ∃ t, step s = .next t ∧ CommandUndisturbed s t ∧ t.done = false ∧ t.pending = s.pending.tail := by
  obtain ⟨hw, hr⟩ : s.nextEvent.wellFormed = true ∧ s.nextEvent.resets = false := by
    unfold State.nextEvent
    cases hl : s.pending with
    | nil => exact ⟨rfl, rfl⟩
    | cons e rest => exact hp e (by rw [hl]; exact List.mem_cons_self)
  obtain ⟨t, he, hu, hd, hpend⟩ := h.popEvent.handleEvent hw hr
  exact ⟨t, (step_eq_handleEvent s).trans he, (CommandUndisturbed.setPending s _).trans hu, hd, hpend⟩

/-- A command that hangs does so for any number of steps without a reset (R248). -/
theorem runs {k : Nat} (h : Hung i s) (hp : ∀ e ∈ s.pending.take k, e.wellFormed = true ∧ e.resets = false) :
    ∃ t, Runs k s t ∧ CommandUndisturbed s t ∧ Hung i t := by
  induction k generalizing s with
  | zero => exact ⟨s, Runs.zero s, .refl s, h⟩
  | succ k ih =>
    obtain ⟨u, hs, hu, hd, hpend⟩ := h.step hp
    obtain ⟨t, hrun, ht, hung⟩ := ih (h.ofUndisturbed hu hd)
      fun e he => hp e (mem_take_succ_of_mem_take_tail (hpend ▸ he))
    exact ⟨t, hrun.cons hs, hu.trans ht, hung⟩

end Hung

/-- INV of 0 or of p leaves the whole state (R146). -/
theorem exec_inv_stays (s : State) (rd a : FReg) (h : s.readF a = 0 ∨ (s.readF a).toNat = Config.p) :
    exec (.inv rd a) s = .next s := by
  rw [exec_inv, Laws.invResult_never h]
  rfl

end Sys2Proof.Machine

namespace Sys2Proof.Laws

open Sys2Proof.Machine

/-- Settles O15: INV of 0 or of p leaves the state at its turn, so it hangs; and whatever hangs once hangs along the whole
run, by `Hung.runs`. -/
theorem inverseOfZeroNeverCompletes : Obligations.InverseOfZeroNeverCompletes := by
  refine ⟨fun k s w rd ra hl hdec ha hd hp => ?_, fun k s w i hl hdec hx hd hp => ?_⟩
  · have h : Hung (.inv rd ra) s := ⟨⟨w, hl, hdec⟩, exec_inv_stays s rd ra ha, hd⟩
    obtain ⟨t, hrun, hu, hung⟩ := h.runs hp
    exact ⟨t, hrun, hu.latch.trans hl, hung.busy, hung.done, hu.readF ra⟩
  · have h : Hung i s := ⟨⟨w, hl, hdec⟩, hx, hd⟩
    obtain ⟨t, hrun, hu, hung⟩ := h.runs hp
    exact ⟨t, hrun, hung.busy, hung.done, hu, hung.stays⟩

end Sys2Proof.Laws
end

section
/-! PROOFS. MONTRED, MULMOD, SQRMOD, the halving of residues and INV: what each completes with (spec/42_montgomery_inverse.md
R141 to R146). -/

namespace Sys2Proof.Machine

/-- A result that is not a hang is completed into F[rd], and reads back if it is a value (R211). -/
theorem State.completeF_completes (s : State) (rd : FReg) {r : Result U256} (hr : r ≠ .never ∧ r ≠ .anyValueOrNever) :
    Completed (s.completeF rd r) ∧ ∀ v, r = .value v → (s.completeF rd r).readF rd = v := by
  obtain ⟨-, -, hc | ⟨hn, -⟩⟩ := s.completeF_spec rd r
  · exact hc
  · exact absurd hn (not_or.2 hr)

end Sys2Proof.Machine

namespace Sys2Proof.Laws

open Sys2Proof.Machine

/-! Montgomery reduction. -/

/-- MONTRED's value in domain: the exact quotient V of R141, reduced by one conditional subtraction. -/
theorem montred_toNat {T : U512} (hT : T.toNat < Config.p * 2 ^ 256) :
    let U := (T.toNat % 2 ^ 256 * Config.pprime) % 2 ^ 256
    let V := (T.toNat + U * Config.p) / 2 ^ 256
    (montred T).toNat = if Config.p ≤ V then V - Config.p else V := by
  intro U V
  have hV : V < 2 * Config.p := (montred_quotient hT).2
  have hp : Config.p < 2 ^ 256 := by decide
  have hred : (if Config.p ≤ V then V - Config.p else V) < 2 ^ 256 := by
    clear_value V
    split <;> omega
  exact (BitVec.toNat_ofNat _ _).trans (Nat.mod_eq_of_lt hred)

/-- Settles O43: the value by `montred_toNat` and `montred_spec`; class V completes in any case. -/
theorem montredDividesByR : Obligations.MontredDividesByR := by
  intro s rd a
  obtain ⟨hdone, hread⟩ := s.completeF_completes rd (montredResult_completes (s.readW a))
  refine ⟨⟨rfl, rfl, decodeWord_encode (.montred rd a)⟩, _, exec_montred s rd a, hdone,
    (exec_next (exec_montred s rd a)).1, fun hT => ?_⟩
  obtain ⟨hlt, hmod⟩ := montred_spec hT
  obtain ⟨hexact, hV⟩ := montred_quotient hT
  rw [hread _ (montredResult_inDomain hT)]
  exact ⟨hlt, hmod, Nat.mod_eq_zero_of_dvd ⟨_, hexact.symm.trans (Nat.mul_comm _ _)⟩, hV, montred_toNat hT⟩

/-- Settles O44: the values by `mulmod_toNat`, SQRMOD being MULMOD of a with itself; class V completes in any case. -/
theorem mulmodSqrmodGiveProducts : Obligations.MulmodSqrmodGiveProducts := by
  intro s rd a b
  obtain ⟨hmul, hprod⟩ := completeF_fieldBinary s rd mulmod (s.readF a) (s.readF b)
  obtain ⟨hsqr, hsquare⟩ := s.completeF_completes rd (sqrmodResult_completes (s.readF a))
  refine ⟨⟨rfl, rfl, decodeWord_encode (.mulmod rd a b)⟩, ⟨rfl, rfl, decodeWord_encode (.sqrmod rd a)⟩,
    ⟨_, exec_mulmod s rd a b, hmul, (exec_next (exec_mulmod s rd a b)).1, fun ha hb => ?_⟩,
    ⟨_, exec_sqrmod s rd a, hsqr, (exec_next (exec_sqrmod s rd a)).1, fun ha => ?_⟩⟩
  · rw [hprod ha hb]
    exact ⟨mulmod_toNat hb, rfl⟩
  · rw [hsquare _ (sqrmodResult_inDomain ha)]
    exact ⟨by rw [sqrmod_eq_mulmod, mulmod_toNat ha, pow_two], rfl⟩

/-! Halving. -/

theorem half_toNat {x : U256} (hx : x.toNat < Config.p) :
    (half x).toNat = if x.toNat % 2 = 0 then x.toNat / 2 else (x.toNat + Config.p) / 2 := by
  have hp : Config.p < 2 ^ 256 := by decide
  unfold half
  split
  · have hodd := (getLsbD_zero_iff x).1 ‹_›
    rw [if_neg (by omega), BitVec.toNat_ofNat, Nat.mod_eq_of_lt (by omega)]
  · have heven := mt (getLsbD_zero_iff x).2 ‹_›
    rw [if_pos (by omega), halved_toNat]

/-- Settles O45: twice the half is x if x is even, and x + p if it is odd, p being odd too. -/
theorem halfHalvesResidues : Obligations.HalfHalvesResidues := by
  intro x hx
  refine ⟨half_toNat hx, (half_spec hx).1, ?_⟩
  have hp := p_odd
  rw [half_toNat hx]
  split
  · rw [show 2 * (x.toNat / 2) = x.toNat by omega, Nat.mod_eq_of_lt hx]
  · rw [show 2 * ((x.toNat + Config.p) / 2) = x.toNat + Config.p by omega, Nat.add_mod_right, Nat.mod_eq_of_lt hx]

/-! The inverse. -/

/-- To be the inverse of a modulo p, as a residue and as a number. -/
theorem residue_mul_natCast_eq_one_iff (a : U256) (y : Nat) :
    residue a * (y : ZMod Config.p) = 1 ↔ a.toNat * y % Config.p = 1 := by
  rw [residue, ← Nat.cast_mul, ← Nat.cast_one, ZMod.natCast_eq_natCast_iff']
  rfl

/-- Inverses modulo p are unique below p. -/
theorem inverse_unique {a x : U256} (hx : x.toNat < Config.p) (h : residue a * residue x = 1) {y : Nat}
    (hy : y < Config.p) (hay : a.toNat * y % Config.p = 1) : y = x.toNat := by
  have hres : (y : ZMod Config.p) = residue x := by
    rw [← residue_mul_natCast_eq_one_iff] at hay
    exact left_inv_eq_right_inv ((mul_comm _ _).trans hay) h
  rw [residue, ZMod.natCast_eq_natCast_iff', Nat.mod_eq_of_lt hy, Nat.mod_eq_of_lt hx] at hres
  exact hres

/-- Fermat: the inverse of a is a^(p-2) (R145). -/
theorem residue_inverse_eq_pow {a x : U256} (h : residue a * residue x = 1) :
    residue x = residue a ^ (Config.p - 2) := by
  have := fact_p_prime
  have h0 : residue a ≠ 0 := left_ne_zero_of_mul_eq_one h
  have hpow : residue a * residue a ^ (Config.p - 2) = 1 := by
    rw [← pow_succ', show Config.p - 2 + 1 = Config.p - 1 by decide, ZMod.pow_card_sub_one_eq_one h0]
  exact left_inv_eq_right_inv ((mul_comm _ _).trans h) hpow

/-- Settles O46: in domain by `inv_spec` and the uniqueness of inverses; 0 and p leave the state; above p the command has
its frame, as every command has. -/
theorem invGivesUniqueInverse : Obligations.InvGivesUniqueInverse := by
  intro s rd a
  refine ⟨⟨rfl, rfl, decodeWord_encode (.inv rd a)⟩, fun hpos hlt => ?_, fun h => ?_, fun _ => ?_⟩
  · have h0 : s.readF a ≠ 0 := fun e => absurd hpos (by rw [e]; exact lt_irrefl 0)
    obtain ⟨x, hx, hxlt, hinv⟩ := inv_spec h0 hlt
    have hval := invResult_inDomain h0 hlt hx
    obtain ⟨hdone, hread⟩ := s.completeF_completes rd (r := invResult (s.readF a)) (by rw [hval]; exact ⟨nofun, nofun⟩)
    refine ⟨_, exec_inv s rd a, hdone, (exec_next (exec_inv s rd a)).1, ?_⟩
    rw [hread x hval]
    exact ⟨Nat.pos_of_ne_zero fun e => inv_ne_zero hinv (BitVec.eq_of_toNat_eq e), hxlt,
      (residue_mul_natCast_eq_one_iff _ _).1 hinv, residue_inverse_eq_pow hinv, fun _ => inverse_unique hxlt hinv⟩
  · exact exec_inv_stays s rd a (h.imp_left fun e => BitVec.eq_of_toNat_eq e)
  · obtain ⟨t, e, fr, hc⟩ := exec_frame (.inv rd a) s
    exact ⟨t, e, hc.symm.imp_right (⟨·, fr⟩)⟩

end Sys2Proof.Laws
end

section
/-! PROOFS. Every command in domain completes with its result in domain: for each command the value its function has in
domain, completed into its destination (spec/60_exceptions.md R211; spec/70_reset_and_hazards.md R246). -/

namespace Sys2Proof.Machine

/-- A point result that is not a hang is completed into A[rd], and reads back if it is a value (R211). -/
theorem State.completeA_completes (s : State) (rd : AReg) {r : Result AffineValue}
    (hr : r ≠ .never ∧ r ≠ .anyValueOrNever) :
    Completed (s.completeA rd r) ∧ ∀ v, r = .value v → (s.completeA rd r).readA rd = v := by
  obtain ⟨-, hc | ⟨hn, -⟩⟩ := s.completeA_spec rd r
  · exact hc
  · exact absurd hn (not_or.2 hr)

theorem State.completeJ_completes (s : State) (rd : JReg) {r : Result JacobianValue}
    (hr : r ≠ .never ∧ r ≠ .anyValueOrNever) :
    Completed (s.completeJ rd r) ∧ ∀ v, r = .value v → (s.completeJ rd r).readJ rd = v := by
  obtain ⟨-, hc | ⟨hn, -⟩⟩ := s.completeJ_spec rd r
  · exact hc
  · exact absurd hn (not_or.2 hr)

/-! A value in domain is a result in domain. -/

theorem State.completeF_inDomain (s : State) (rd : FReg) {r : Result U256} {v : U256} (hr : r = .value v)
    (hv : v.toNat < Config.p) :
    Completed (s.completeF rd r) ∧ fieldElement ((s.completeF rd r).readF rd) = true := by
  obtain ⟨hdone, hread⟩ := s.completeF_completes rd (r := r) (by rw [hr]; exact ⟨nofun, nofun⟩)
  exact ⟨hdone, by rw [hread v hr, Laws.fieldElement_iff]; exact hv⟩

/-- A class V function of two field elements in domain, given that it gives a field element there. -/
theorem State.completeF_fieldBinary_inDomain (s : State) (rd : FReg) {op : U256 → U256 → U256} {a b : U256}
    (h : fieldElement a = true ∧ fieldElement b = true)
    (hop : a.toNat < Config.p → b.toNat < Config.p → (op a b).toNat < Config.p) :
    Completed (s.completeF rd (fieldBinary op a b)) ∧
      fieldElement ((s.completeF rd (fieldBinary op a b)).readF rd) = true := by
  obtain ⟨ha, hb⟩ := h.imp (Laws.fieldElement_iff a).1 (Laws.fieldElement_iff b).1
  exact s.completeF_inDomain rd (Laws.fieldBinary_inDomain op ha hb) (hop ha hb)

theorem State.completeA_inDomain (s : State) (rd : AReg) {r : Result AffineValue} {v : AffineValue} (hr : r = .value v)
    (hv : v.inDomain = true) :
    Completed (s.completeA rd r) ∧ ((s.completeA rd r).readA rd).inDomain = true := by
  obtain ⟨hdone, hread⟩ := s.completeA_completes rd (r := r) (by rw [hr]; exact ⟨nofun, nofun⟩)
  exact ⟨hdone, by rw [hread v hr]; exact hv⟩

theorem State.completeJ_inDomain (s : State) (rd : JReg) {r : Result JacobianValue} {v : JacobianValue} (hr : r = .value v)
    (hv : v.inDomain = true) :
    Completed (s.completeJ rd r) ∧ ((s.completeJ rd r).readJ rd).inDomain = true := by
  obtain ⟨hdone, hread⟩ := s.completeJ_completes rd (r := r) (by rw [hr]; exact ⟨nofun, nofun⟩)
  exact ⟨hdone, by rw [hread v hr]; exact hv⟩

/-- A class H function in domain, given that it ends there with a point in domain. -/
theorem State.completeA_classH_inDomain (s : State) (rd : AReg) {d : Bool} {r : Option AffineValue} (hd : d = true)
    (hr : ∃ v, r = some v ∧ v.inDomain = true) :
    Completed (s.completeA rd (classH d r)) ∧ ((s.completeA rd (classH d r)).readA rd).inDomain = true := by
  obtain ⟨v, hv, hdom⟩ := hr
  exact s.completeA_inDomain rd (Laws.classH_inDomain hd hv) hdom

end Sys2Proof.Machine

namespace Sys2Proof.Laws

open Sys2Proof.Machine

/-- Settles O59: one case per command, each by the law that its function's value in domain is in domain. -/
theorem domainIsClosed : Obligations.DomainIsClosed := by
  intro i s h
  cases i with
  | cmp | shr1 | add | sub | mulfull | mulfullps | sqrfull => exact ⟨_, rfl, Completed.retire _, trivial⟩
  | addmod rd a b => exact ⟨_, exec_addmod s rd a b, s.completeF_fieldBinary_inDomain rd h addmod_lt⟩
  | submod rd a b => exact ⟨_, exec_submod s rd a b, s.completeF_fieldBinary_inDomain rd h submod_lt⟩
  | mulmod rd a b => exact ⟨_, exec_mulmod s rd a b, s.completeF_fieldBinary_inDomain rd h (fun _ _ => mulmod_lt)⟩
  | fred rd a =>
    have hlt : (fred (s.readW a)).toNat < Config.p := by
      rw [fred_toNat]; exact Nat.mod_lt _ p_prime.pos
    exact ⟨_, exec_fred s rd a, s.tick.completeF_inDomain rd (fredResult_inDomain _ h) hlt⟩
  | montred rd a =>
    exact ⟨_, exec_montred s rd a, s.completeF_inDomain rd (montredResult_inDomain h) (montred_spec h).1⟩
  | sqrmod rd a =>
    have ha := (fieldElement_iff _).1 h
    exact ⟨_, exec_sqrmod s rd a, s.completeF_inDomain rd (sqrmodResult_inDomain ha) sqrmod_lt⟩
  | inv rd a =>
    obtain ⟨h0, ha⟩ := h
    have ha := (fieldElement_iff _).1 ha
    obtain ⟨x, hx, hlt, -⟩ := inv_spec h0 ha
    exact ⟨_, exec_inv s rd a, s.completeF_inDomain rd (invResult_inDomain h0 ha hx) hlt⟩
  | a2j rd a =>
    obtain ⟨hdone, hread⟩ := s.completeJ_completes rd (r := .value (a2j (s.readA a))) ⟨nofun, nofun⟩
    refine ⟨_, exec_a2j s rd a, hdone, fun ha => ?_⟩
    rw [hread _ rfl]
    exact a2j_inDomain ha
  | j2a rd a =>
    obtain ⟨v, hv, hdom⟩ := j2a_total h
    exact ⟨_, exec_j2a s rd a, s.completeA_inDomain rd (j2aResult_inDomain h hv) hdom⟩
  | addaff rd a b =>
    obtain ⟨ha, hb⟩ := h
    exact ⟨_, exec_addaff s rd a b, s.completeA_classH_inDomain rd (by rw [ha, hb]; rfl) (addaff_total ha hb)⟩
  | dblaff rd a => exact ⟨_, exec_dblaff s rd a, s.completeA_classH_inDomain rd h (dblaff_total h)⟩
  | dblj rd a => exact ⟨_, exec_dblj s rd a, s.completeJ_inDomain rd (classV_inDomain h) (dblj_inDomain h)⟩
  | addja rd a b =>
    obtain ⟨ha, hb⟩ := h
    exact ⟨_, exec_addja s rd a b,
      s.completeJ_inDomain rd (classV_inDomain (by rw [ha, hb]; rfl)) (addja_inDomain ha hb)⟩
  | smulltr rd k b => exact ⟨_, exec_smulltr s rd k b, s.completeA_classH_inDomain rd h (smulLtr_total _ h)⟩
  | smulrtl rd k b => exact ⟨_, exec_smulrtl s rd k b, s.completeA_classH_inDomain rd h (smulRtl_total _ h)⟩
  | smulwin rd k =>
    obtain ⟨v, hv, hdom⟩ := smulWin_total (s.readF k)
    exact ⟨_, exec_smulwin s rd k, s.completeA_inDomain rd (congrArg Result.ofOption hv) hdom⟩
  | smulbit rd k =>
    obtain ⟨v, hv, hdom⟩ := smulBit_total (s.readF k)
    exact ⟨_, exec_smulbit s rd k, s.completeA_inDomain rd (congrArg Result.ofOption hv) hdom⟩

end Sys2Proof.Laws
end

section
/-! PROOFS. A2J and J2A: the copy, register by register, and the affine point of a triple, determined by its two equations
and so the same for every equivalent triple (spec/43_point_conversion.md R160, R161). -/

namespace Sys2Proof.Machine

/-! A register as the value it holds. -/

theorem AffineReg.value_inf {r : AffineReg} (h : r.inf = true) : r.value = .inf := if_pos h

theorem AffineReg.value_point {r : AffineReg} (h : r.inf = false) : r.value = .point r.x.value r.y.value :=
  if_neg (by rw [h]; exact Bool.false_ne_true)

/-- A register that holds INF has inf = 1, and one that holds a triple has inf = 0 and the triple's coordinates (R26 a). -/
theorem JacobianReg.inf_of_value {r : JacobianReg} (h : r.value = .inf) : r.inf = true := by
  by_contra hn
  rw [JacobianReg.value, if_neg hn] at h
  cases h

theorem JacobianReg.fields_of_value {r : JacobianReg} {x y z : U256} (h : r.value = .point x y z) :
    r.inf = false ∧ r.x.value = x ∧ r.y.value = y ∧ r.z.value = z := by
  rw [JacobianReg.value] at h
  split at h
  · cases h
  · cases h
    exact ⟨Bool.eq_false_of_not_eq_true ‹_›, rfl, rfl, rfl⟩

/-- J2A of Z = 0 with inf = 0 leaves the whole state (R161, R248). -/
theorem exec_j2a_stays (s : State) (rd : AReg) (a : JReg) {x y : U256} (h : s.readJ a = .point x y 0) :
    exec (.j2a rd a) s = .next s := by
  rw [exec_j2a, h, Laws.j2aResult_never]
  rfl

end Sys2Proof.Machine

namespace Sys2Proof.Laws

open Sys2Proof.Machine

/-- Settles O48: A2J completes with the value `a2j` gives, and the fields of J[rd] are those of that value. -/
theorem a2jLiftsPoint : Obligations.A2jLiftsPoint := by
  intro s rd a
  obtain ⟨hdone, hread⟩ := s.completeJ_completes rd (r := .value (a2j (s.readA a))) ⟨nofun, nofun⟩
  replace hread := hread _ rfl
  refine ⟨⟨rfl, rfl, decodeWord_encode (.a2j rd a)⟩, _, exec_a2j s rd a, hdone, (exec_next (exec_a2j s rd a)).1, ?_⟩
  unfold State.readA at hread ⊢
  cases hinf : (s.a.get a).inf with
  | true =>
    rw [AffineReg.value_inf hinf] at hread ⊢
    exact ⟨JacobianReg.inf_of_value hread, nofun⟩
  | false =>
    rw [AffineReg.value_point hinf] at hread ⊢
    obtain ⟨hi, hx, hy, hz⟩ := JacobianReg.fields_of_value hread
    exact ⟨hi, fun _ => ⟨hx, hy, hz⟩⟩

/-- An equation of residues like those of R161, as one of numbers modulo p. -/
theorem residue_mul_pow_eq_iff {u z x : U256} (hx : x.toNat < Config.p) (k : Nat) :
    residue u * residue z ^ k = residue x ↔ u.toNat * z.toNat ^ k % Config.p = x.toNat := by
  rw [residue, residue, residue, ← Nat.cast_pow, ← Nat.cast_mul, ZMod.natCast_eq_natCast_iff', Nat.mod_eq_of_lt hx]

/-- In domain the equations of R161 have one solution, which is J2A's result. -/
theorem j2a_eq_of_equations {x y z u v : U256} (h : (JacobianValue.point x y z).inDomain = true)
    (huv : (AffineValue.point u v).inDomain = true) (hx : residue u * residue z ^ 2 = residue x)
    (hy : residue v * residue z ^ 3 = residue y) : j2a (.point x y z) = some (.point u v) := by
  have := fact_p_prime
  obtain ⟨u', v', e, huv', hx', hy'⟩ := j2a_spec h
  obtain ⟨-, -, hz, hz0⟩ := (JacobianValue.inDomain_point x y z).1 h
  obtain ⟨hu, hv⟩ := (AffineValue.inDomain_point u v).1 huv
  obtain ⟨hu', hv'⟩ := (AffineValue.inDomain_point u' v').1 huv'
  have hrz : residue z ≠ 0 := residue_ne_zero hz0 hz
  have hu_eq : u' = u := residue_inj hu' hu (mul_right_cancel₀ (pow_ne_zero 2 hrz) (hx'.trans hx.symm))
  have hv_eq : v' = v := residue_inj hv' hv (mul_right_cancel₀ (pow_ne_zero 3 hrz) (hy'.trans hy.symm))
  rw [e, hu_eq, hv_eq]

/-- A triple scaled by a factor that is not 0 stays in domain (R161). -/
theorem scaled_inDomain {x y z l : U256} (h : (JacobianValue.point x y z).inDomain = true) (hl : l.toNat < Config.p)
    (h0 : l ≠ 0) :
    (JacobianValue.point (mulmod (sqrmod l) x) (mulmod (mulmod (sqrmod l) l) y) (mulmod l z)).inDomain = true := by
  have := fact_p_prime
  obtain ⟨-, -, hz, hz0⟩ := (JacobianValue.inDomain_point x y z).1 h
  have hlz : mulmod l z ≠ 0 := by
    rw [Ne, ← residue_eq_zero mulmod_lt, residue_mulmod hz]
    exact mul_ne_zero (residue_ne_zero h0 hl) (residue_ne_zero hz0 hz)
  exact (JacobianValue.inDomain_point _ _ _).2 ⟨mulmod_lt, mulmod_lt, mulmod_lt, hlz⟩

/-- Equivalent triples have the same affine point: it solves the equations of both (R161). -/
theorem j2a_scaled {x y z l : U256} (h : (JacobianValue.point x y z).inDomain = true) (hl : l.toNat < Config.p)
    (h0 : l ≠ 0) :
    j2a (.point (mulmod (sqrmod l) x) (mulmod (mulmod (sqrmod l) l) y) (mulmod l z)) = j2a (.point x y z) := by
  obtain ⟨u, v, e, huv, hu, hv⟩ := j2a_spec h
  obtain ⟨hx, hy, hz, -⟩ := (JacobianValue.inDomain_point x y z).1 h
  rw [e]
  refine j2a_eq_of_equations (scaled_inDomain h hl h0) huv ?_ ?_
  · rw [residue_mulmod hz, residue_mulmod hx, residue_sqrmod hl]
    linear_combination residue l ^ 2 * hu
  · rw [residue_mulmod hz, residue_mulmod hy, residue_mulmod hl, residue_sqrmod hl]
    linear_combination residue l ^ 3 * hv

/-- Settles O49: in domain by `j2a_spec`, for equivalent triples by `j2a_scaled`; Z = 0 leaves the state. -/
theorem j2aGivesAffinePoint : Obligations.J2aGivesAffinePoint := by
  refine ⟨fun s rd a => ⟨⟨rfl, rfl, decodeWord_encode (.j2a rd a)⟩, fun hd => ?_, fun x y => exec_j2a_stays s rd a⟩,
    fun x y z l h hl h0 => j2a_scaled h hl h0⟩
  obtain ⟨q, hq, -⟩ := j2a_total hd
  have hval := j2aResult_inDomain hd hq
  obtain ⟨hdone, hread⟩ := s.completeA_completes rd (r := j2aResult (s.readJ a)) (by rw [hval]; exact ⟨nofun, nofun⟩)
  refine ⟨_, exec_j2a s rd a, hdone, (exec_next (exec_j2a s rd a)).1, fun hinf => ?_, fun x y z hpt => ?_⟩
  · rw [hread q hval]
    rw [hinf] at hq
    exact (Option.some.inj hq).symm
  · rw [hpt] at hd hq
    obtain ⟨u, v, e, huv, hu, hv⟩ := j2a_spec hd
    obtain ⟨hx, hy, -⟩ := (JacobianValue.inDomain_point x y z).1 hd
    obtain ⟨hult, hvlt⟩ := (AffineValue.inDomain_point u v).1 huv
    exact ⟨u, v, (hread q hval).trans (Option.some.inj (hq.symm.trans e)), hult, hvlt,
      (residue_mul_pow_eq_iff hx 2).1 hu, (residue_mul_pow_eq_iff hy 3).1 hv⟩

end Sys2Proof.Laws
end

section
/-! PROOFS. Commands out of domain: only a command with an inversion may hang, and which commands are in domain whatever
their operands (spec/70_reset_and_hazards.md R247, R248). -/

namespace Sys2Proof.Machine

/-- A command without an inversion completes, in domain or not (R247). -/
theorem exec_completes_of_not_classH {i : Instr} (hi : classHCommand i = false) (s : State) :
    ∃ t, exec i s = .next t ∧ Completed t := by
  cases i with
  | cmp | shr1 | add | sub | mulfull | mulfullps | sqrfull => exact ⟨_, rfl, Completed.retire _⟩
  | addmod | submod | mulmod => exact ⟨_, rfl, (s.completeF_completes _ (Laws.fieldBinary_completes _ _ _)).1⟩
  | fred => exact ⟨_, rfl, (s.tick.completeF_completes _ (Laws.fredResult_completes _ _)).1⟩
  | montred => exact ⟨_, rfl, (s.completeF_completes _ (Laws.montredResult_completes _)).1⟩
  | sqrmod => exact ⟨_, rfl, (s.completeF_completes _ (Laws.sqrmodResult_completes _)).1⟩
  | a2j => exact ⟨_, rfl, Completed.retire _⟩
  | dblj | addja => exact ⟨_, rfl, (s.completeJ_completes _ (Laws.classV_completes _ _)).1⟩
  | inv | j2a | addaff | dblaff | smulltr | smulrtl | smulwin | smulbit => cases hi

/-- A command completes into its destination, or it has an inversion and leaves the state; ERR is kept (R214, R247). -/
theorem exec_completes_or_hangs (i : Instr) (s : State) :
    ∃ t, exec i s = .next t ∧ t.err = s.err ∧
      ((Completed t ∧ DestinationFrame s t i) ∨ (classHCommand i = true ∧ t = s)) := by
  obtain ⟨t, e, fr, hc⟩ := exec_frame i s
  refine ⟨t, e, fr.control.err, ?_⟩
  cases hi : classHCommand i with
  | true => exact hc.imp (⟨·, fr⟩) (⟨rfl, ·⟩)
  | false =>
    obtain ⟨u, e', hdone⟩ := exec_completes_of_not_classH hi s
    cases e.symm.trans e'
    exact Or.inl ⟨hdone, fr⟩

/-- By their opcodes: the fixed-width core, the full products, A2J, SMULWIN and SMULBIT have no precondition (R247). -/
theorem inDomain_of_opcode {i : Instr} (s : State)
    (h : i.row.1 < 0x20 ∨ i.row.1 = 0x22 ∨ i.row.1 = 0x23 ∨ i.row.1 = 0x24 ∨ i.row.1 = 0x30 ∨ i.row.1 = 0x52 ∨
      i.row.1 = 0x53) : inDomain s i := by
  cases i with
  | cmp | shr1 | add | sub | mulfull | mulfullps | sqrfull | a2j | smulwin | smulbit => trivial
  | addmod | submod | fred | montred | mulmod | sqrmod | inv | j2a | addaff | dblaff | dblj | addja | smulltr | smulrtl =>
    simp [Instr.row] at h

end Sys2Proof.Machine

namespace Sys2Proof.Laws

open Sys2Proof.Machine

/-- Settles O58: what any command can do, out of domain included; the two hangs that are certain; and the commands that
are always in domain. -/
theorem outOfDomainTouchesOnlyDestination : Obligations.OutOfDomainTouchesOnlyDestination := by
  refine fun i s => ⟨fun _ => exec_completes_or_hangs i s, ?_, ?_, inDomain_of_opcode s⟩
  · rintro rd a rfl h
    exact exec_inv_stays s rd a h
  · rintro rd a x y rfl h
    exact exec_j2a_stays s rd a h

end Sys2Proof.Laws
end

section
/-! PROOFS. The point commands as completions of their functions' values, and the group law they compute on the curve
(spec/44_point_group.md R171 to R175; spec/43_point_conversion.md R160, R161). -/

namespace Sys2Proof.Machine

/-! A command whose result is known, by the register it writes. -/

/-- A command that completes with a value into A[rd] leaves that value there and keeps its frame (R211). -/
theorem exec_gives_readA {i : Instr} {s : State} {rd : AReg} {r : Result AffineValue} {v : AffineValue}
    (he : exec i s = .next (s.completeA rd r)) (hr : r = .value v) :
    ∃ t, exec i s = .next t ∧ Completed t ∧ DestinationFrame s t i ∧ t.readA rd = v := by
  obtain ⟨hdone, hread⟩ := s.completeA_completes rd (r := r) (by rw [hr]; exact ⟨nofun, nofun⟩)
  exact ⟨_, he, hdone, (exec_next he).1, hread v hr⟩

/-- A command into J[rd] that is no hang completes within its frame, whatever its operands, and leaves its value there if
it has one (R211, R247). -/
theorem exec_gives_readJ {i : Instr} {s : State} {rd : JReg} {r : Result JacobianValue}
    (he : exec i s = .next (s.completeJ rd r)) (hr : r ≠ .never ∧ r ≠ .anyValueOrNever) :
    ∃ t, exec i s = .next t ∧ Completed t ∧ DestinationFrame s t i ∧ ∀ v, r = .value v → t.readJ rd = v := by
  obtain ⟨hdone, hread⟩ := s.completeJ_completes rd hr
  exact ⟨_, he, hdone, (exec_next he).1, hread⟩

variable (s : State)

theorem exec_addaff_inDomain (rd a b : AReg) {v : AffineValue} (ha : (s.readA a).inDomain = true)
    (hb : (s.readA b).inDomain = true) (hv : addaff (s.readA a) (s.readA b) = some v) :
    ∃ t, exec (.addaff rd a b) s = .next t ∧ Completed t ∧ DestinationFrame s t (.addaff rd a b) ∧ t.readA rd = v :=
  exec_gives_readA (exec_addaff s rd a b) (Laws.classH_inDomain (by rw [ha, hb]; rfl) hv)

theorem exec_dblaff_inDomain (rd a : AReg) {v : AffineValue} (ha : (s.readA a).inDomain = true)
    (hv : dblaff (s.readA a) = some v) :
    ∃ t, exec (.dblaff rd a) s = .next t ∧ Completed t ∧ DestinationFrame s t (.dblaff rd a) ∧ t.readA rd = v :=
  exec_gives_readA (exec_dblaff s rd a) (Laws.classH_inDomain ha hv)

theorem exec_j2a_inDomain (rd : AReg) (a : JReg) {v : AffineValue} (ha : (s.readJ a).inDomain = true)
    (hv : j2a (s.readJ a) = some v) :
    ∃ t, exec (.j2a rd a) s = .next t ∧ Completed t ∧ DestinationFrame s t (.j2a rd a) ∧ t.readA rd = v :=
  exec_gives_readA (exec_j2a s rd a) (Laws.j2aResult_inDomain ha hv)

theorem exec_a2j_readJ (rd : JReg) (a : AReg) :
    ∃ t, exec (.a2j rd a) s = .next t ∧ Completed t ∧ DestinationFrame s t (.a2j rd a) ∧
      t.readJ rd = a2j (s.readA a) := by
  obtain ⟨t, he, hdone, hfr, hread⟩ := exec_gives_readJ (exec_a2j s rd a) ⟨nofun, nofun⟩
  exact ⟨t, he, hdone, hfr, hread _ rfl⟩

/-- DBLJ completes in and out of domain, in domain with the function's value (R173, R247). -/
theorem exec_dblj_readJ (rd a : JReg) :
    ∃ t, exec (.dblj rd a) s = .next t ∧ Completed t ∧ DestinationFrame s t (.dblj rd a) ∧
      ((s.readJ a).inDomain = true → t.readJ rd = dblj (s.readJ a)) := by
  obtain ⟨t, he, hdone, hfr, hread⟩ := exec_gives_readJ (exec_dblj s rd a) (Laws.classV_completes _ _)
  exact ⟨t, he, hdone, hfr, fun ha => hread _ (Laws.classV_inDomain ha)⟩

/-- ADDJA completes in and out of domain, in domain with the function's value (R174, R247). -/
theorem exec_addja_readJ (rd a : JReg) (b : AReg) :
    ∃ t, exec (.addja rd a b) s = .next t ∧ Completed t ∧ DestinationFrame s t (.addja rd a b) ∧
      ((s.readJ a).inDomain = true → (s.readA b).inDomain = true →
        t.readJ rd = addja (s.readJ a) (s.readA b)) := by
  obtain ⟨t, he, hdone, hfr, hread⟩ := exec_gives_readJ (exec_addja s rd a b) (Laws.classV_completes _ _)
  exact ⟨t, he, hdone, hfr, fun ha hb => hread _ (Laws.classV_inDomain (by rw [ha, hb]; rfl))⟩

end Sys2Proof.Machine

namespace Sys2Proof.Laws

open Sys2Proof.Machine

/-- Settles O54: a source that stands for a point is in domain, so each command leaves its function's value, and that
value stands for the group's point. -/
theorem pointCommandsComputeGroupLaw : Obligations.PointCommandsComputeGroupLaw := by
  intro _ s da a b dj j P Q R hP hQ hR
  have ha := affine_inDomain_of_standsFor hP
  have hb := affine_inDomain_of_standsFor hQ
  have hj := jacobian_inDomain_of_standsFor hR
  refine ⟨?_, ?_, ?_, ?_, ?_, ?_⟩
  · obtain ⟨v, hv, hstands⟩ := addaff_standsFor hP hQ
    obtain ⟨t, he, hdone, -, hread⟩ := exec_addaff_inDomain s da a b ha hb hv
    exact ⟨t, he, hdone, by rw [hread]; exact hstands⟩
  · obtain ⟨v, hv, hstands⟩ := dblaff_standsFor hP
    obtain ⟨t, he, hdone, -, hread⟩ := exec_dblaff_inDomain s da a ha hv
    exact ⟨t, he, hdone, by rw [hread]; exact hstands⟩
  · obtain ⟨t, he, hdone, -, hread⟩ := exec_dblj_readJ s dj j
    exact ⟨t, he, hdone, by rw [hread hj]; exact dblj_standsFor hR⟩
  · obtain ⟨t, he, hdone, -, hread⟩ := exec_addja_readJ s dj j a
    exact ⟨t, he, hdone, by rw [hread hj ha]; exact addja_standsFor hR hP⟩
  · obtain ⟨t, he, hdone, -, hread⟩ := exec_a2j_readJ s dj a
    exact ⟨t, he, hdone, by rw [hread]; exact a2j_standsFor hP⟩
  · obtain ⟨v, hv, hstands⟩ := j2a_standsFor hR
    obtain ⟨t, he, hdone, -, hread⟩ := exec_j2a_inDomain s da j hj hv
    exact ⟨t, he, hdone, by rw [hread]; exact hstands⟩

end Sys2Proof.Laws
end

section
/-! PROOFS. ADDAFF, DBLAFF, DBLJ and ADDJA case by case, for every operand in domain, on the curve or not
(spec/44_point_group.md R171 to R174). -/

namespace Sys2Proof.Laws

open Sys2Proof.Machine

/-! Affine addition and doubling. -/

theorem addaff_inf_left (q : AffineValue) : addaff .inf q = some q := by
  cases q <;> rfl

theorem addaff_inf_right (q : AffineValue) : addaff q .inf = some q := by
  cases q <;> rfl

theorem addaff_self (x y : U256) : addaff (.point x y) (.point x y) = dblaff (.point x y) := by
  rw [addaff, if_pos rfl, if_pos rfl]

theorem addaff_same_x {y1 y2 : U256} (x : U256) (h : y1 ≠ y2) : addaff (.point x y1) (.point x y2) = some .inf := by
  rw [addaff, if_pos rfl, if_neg h]

theorem dblaff_y_zero (x : U256) : dblaff (.point x 0) = some .inf := by
  rw [dblaff, if_pos rfl]

/-- The chord through two points is the same from either end: it has one slope, and both points lie on it (R171). -/
theorem addaff_comm_of_x_ne {x1 y1 x2 y2 : U256} (h1 : (AffineValue.point x1 y1).inDomain = true)
    (h2 : (AffineValue.point x2 y2).inDomain = true) (hne : x1 ≠ x2) :
    addaff (.point x1 y1) (.point x2 y2) = addaff (.point x2 y2) (.point x1 y1) := by
  have := fact_p_prime
  obtain ⟨u, v, lam, e, huv, hlam, hu, hv⟩ := addaff_spec h1 h2 hne
  obtain ⟨u', v', lam', e', huv', hlam', hu', hv'⟩ := addaff_spec h2 h1 hne.symm
  obtain ⟨hx1, -⟩ := (AffineValue.inDomain_point x1 y1).1 h1
  obtain ⟨hx2, -⟩ := (AffineValue.inDomain_point x2 y2).1 h2
  obtain ⟨hult, hvlt⟩ := (AffineValue.inDomain_point u v).1 huv
  obtain ⟨hult', hvlt'⟩ := (AffineValue.inDomain_point u' v').1 huv'
  have hdx : residue x2 - residue x1 ≠ 0 := sub_ne_zero.2 (residue_ne hx1 hx2 hne).symm
  have hslope : lam' = lam := mul_right_cancel₀ hdx (by linear_combination -hlam' - hlam)
  subst hslope
  have hu_eq : u = u' := residue_inj hult hult' (by rw [hu, hu']; ring)
  subst hu_eq
  have hv_eq : v = v' := residue_inj hvlt hvlt' (by rw [hv, hv']; linear_combination -hlam)
  rw [e, e', hv_eq]

/-- ADDAFF is commutative in domain, on the curve or not (R171). -/
theorem addaff_comm {q r : AffineValue} (hq : q.inDomain = true) (hr : r.inDomain = true) :
    addaff q r = addaff r q := by
  cases q with
  | inf => rw [addaff_inf_left, addaff_inf_right]
  | point x1 y1 =>
    cases r with
    | inf => rw [addaff_inf_left, addaff_inf_right]
    | point x2 y2 =>
      by_cases hx : x1 = x2
      · subst hx
        by_cases hy : y1 = y2
        · rw [hy]
        · rw [addaff_same_x x1 hy, addaff_same_x x1 (Ne.symm hy)]
      · exact addaff_comm_of_x_ne hq hr hx

/-- Settles O50: the value of each routing, the chord by `addaff_spec`, and `addaff_comm`. -/
theorem addaffFollowsCases : Obligations.AddaffFollowsCases := by
  refine ⟨fun s rd a b => ⟨⟨rfl, rfl, decodeWord_encode (.addaff rd a b)⟩, fun ha hb => ?_⟩, fun q r => addaff_comm⟩
  obtain ⟨v, hv, -⟩ := addaff_total ha hb
  obtain ⟨t, he, hdone, hfr, hread⟩ := exec_addaff_inDomain s rd a b ha hb hv
  refine ⟨t, he, hdone, hfr, ?_⟩
  rw [← hread] at hv
  refine ⟨fun hq => ?_, fun hr => ?_, fun x1 y1 x2 y2 hq hr => ?_⟩
  · rw [hq, addaff_inf_left] at hv
    exact (Option.some.inj hv).symm
  · rw [hr, addaff_inf_right] at hv
    exact (Option.some.inj hv).symm
  · rw [hq] at ha hv
    rw [hr] at hb hv
    refine ⟨?_, ?_, fun hx => ?_⟩
    · rintro rfl hy
      rw [addaff_same_x x1 hy] at hv
      exact (Option.some.inj hv).symm
    · rintro rfl rfl
      rw [← hv, addaff_self]
    · obtain ⟨x3, y3, lam, e, h3, hlam, hx3, hy3⟩ := addaff_spec ha hb hx
      obtain ⟨hx3lt, hy3lt⟩ := (AffineValue.inDomain_point x3 y3).1 h3
      exact ⟨x3, y3, lam, Option.some.inj (hv.symm.trans e), hx3lt, hy3lt, hlam, hx3, hy3⟩

/-- Twice G (R172), by evaluation. -/
theorem dblaff_baseG :
    dblaff baseG = some (.point 0x7CF27B188D034F7E8A52380304B51AC3C08969E277F21B35A60B48FC47669978#256
      0x07775510DB8ED040293D9AC69F7430DBBA7DADE63CE982299E04B79D227873D1#256) := by
  decide +kernel

/-- Settles O51: infinity and y = 0 by the function's cases, the tangent by `dblaff_spec`. -/
theorem dblaffFollowsTangent : Obligations.DblaffFollowsTangent := by
  refine ⟨fun s rd a => ⟨⟨rfl, rfl, decodeWord_encode (.dblaff rd a)⟩, fun ha => ?_⟩, dblaff_baseG⟩
  obtain ⟨v, hv, -⟩ := dblaff_total ha
  obtain ⟨t, he, hdone, hfr, hread⟩ := exec_dblaff_inDomain s rd a ha hv
  refine ⟨t, he, hdone, hfr, ?_⟩
  rw [← hread] at hv
  refine ⟨fun hq => ?_, fun x y hq => ?_⟩
  · rw [hq] at hv
    exact (Option.some.inj hv).symm
  · rw [hq] at ha hv
    refine ⟨?_, fun hy => ?_⟩
    · rintro rfl
      rw [dblaff_y_zero] at hv
      exact (Option.some.inj hv).symm
    · obtain ⟨x3, y3, lam, e, h3, hlam, hx3, hy3⟩ := dblaff_spec ha hy
      obtain ⟨hx3lt, hy3lt⟩ := (AffineValue.inDomain_point x3 y3).1 h3
      exact ⟨x3, y3, lam, Option.some.inj (hv.symm.trans e), hx3lt, hy3lt, hlam, hx3, hy3⟩

/-! Jacobian doubling and mixed addition. -/

theorem dblj_y_zero (x z : U256) : dblj (.point x 0 z) = .inf := by
  rw [dblj, if_pos rfl]

theorem addja_inf_left (q : AffineValue) : addja .inf q = a2j q := by
  cases q <;> rfl

theorem addja_inf_right (q : JacobianValue) : addja q .inf = q := by
  cases q <;> rfl

section
variable {x1 y1 z1 x2 y2 : U256} (h1 : (JacobianValue.point x1 y1 z1).inDomain = true)
include h1

/-- Case 3 of R174: both cross-differences are 0. -/
theorem addja_same_point (hx : residue x2 * residue z1 ^ 2 = residue x1)
    (hy : residue y2 * residue z1 ^ 3 = residue y1) :
    addja (.point x1 y1 z1) (.point x2 y2) = dblj (.point x1 y1 z1) := by
  obtain ⟨hH, hr⟩ := addja_cross (x2 := x2) (y2 := y2) h1
  simp only [addja, if_pos (hH.2 hx), if_pos (hr.2 hy)]

/-- Case 4 of R174: only the x cross-difference is 0. -/
theorem addja_same_x (hx : residue x2 * residue z1 ^ 2 = residue x1)
    (hy : residue y2 * residue z1 ^ 3 ≠ residue y1) :
    addja (.point x1 y1 z1) (.point x2 y2) = .inf := by
  obtain ⟨hH, hr⟩ := addja_cross (x2 := x2) (y2 := y2) h1
  simp only [addja, if_pos (hH.2 hx), if_neg (mt hr.1 hy)]

end

/-- Settles O52: DBLJ completes in any case; in domain infinity and Y = 0 by the function's cases, else `dblj_spec`. -/
theorem dbljWritesClosedForm : Obligations.DbljWritesClosedForm := by
  intro s rd a
  obtain ⟨t, he, hdone, hfr, hread⟩ := exec_dblj_readJ s rd a
  refine ⟨⟨rfl, rfl, decodeWord_encode (.dblj rd a)⟩, t, he, hdone, hfr, fun ha => ?_⟩
  rw [hread ha]
  refine ⟨fun hq => by rw [hq]; rfl, fun x1 y1 z1 hq => ?_⟩
  rw [hq] at ha ⊢
  refine ⟨?_, fun hy => ?_⟩
  · rintro rfl
    exact dblj_y_zero x1 z1
  · obtain ⟨x3, y3, z3, e, h3, M, S, rfl, rfl, hx3, hy3, hz3⟩ := dblj_spec ha hy
    exact ⟨x3, y3, z3, e, by rw [e]; exact h3, hx3, hy3, hz3⟩

/-- Settles O53: ADDJA completes in any case; in domain the four cases in their order, else `addja_spec`. -/
theorem addjaFollowsFourCases : Obligations.AddjaFollowsFourCases := by
  intro s rd a b
  obtain ⟨t, he, hdone, hfr, hread⟩ := exec_addja_readJ s rd a b
  refine ⟨⟨rfl, rfl, decodeWord_encode (.addja rd a b)⟩, t, he, hdone, hfr, fun ha hb => ?_⟩
  rw [hread ha hb]
  refine ⟨fun hq => by rw [hq, addja_inf_left], fun hr => by rw [hr, addja_inf_right], fun x1 y1 z1 x2 y2 hq hr => ?_⟩
  rw [hq] at ha ⊢
  rw [hr]
  refine ⟨fun hH hR => ?_, fun hH hR => ?_, fun hH => ?_⟩
  · exact addja_same_point ha (sub_eq_zero.1 hH) (sub_eq_zero.1 hR)
  · exact addja_same_x ha (sub_eq_zero.1 hH) (sub_ne_zero.1 hR)
  · obtain ⟨x3, y3, z3, e, h3, H, r, rfl, rfl, hx3, hy3, hz3⟩ := addja_spec (y2 := y2) ha (sub_ne_zero.1 hH)
    exact ⟨x3, y3, z3, e, by rw [e]; exact h3, hx3, hy3, hz3⟩

end Sys2Proof.Laws
end

section
/-! PROOFS. The four scalar multiplications as completions of their functions' values, and the multiples they compute on
the curve (spec/45_scalar_mul.md R190 to R195). -/

namespace Sys2Proof.Machine

variable (s : State) (rd : AReg) (k : FReg)

theorem exec_smulltr_inDomain (b : AReg) {v : AffineValue} (hb : (s.readA b).inDomain = true)
    (hv : smulLtr (s.readF k) (s.readA b) = some v) :
    ∃ t, exec (.smulltr rd k b) s = .next t ∧ Completed t ∧ DestinationFrame s t (.smulltr rd k b) ∧ t.readA rd = v :=
  exec_gives_readA (exec_smulltr s rd k b) (Laws.classH_inDomain hb hv)

theorem exec_smulrtl_inDomain (b : AReg) {v : AffineValue} (hb : (s.readA b).inDomain = true)
    (hv : smulRtl (s.readF k) (s.readA b) = some v) :
    ∃ t, exec (.smulrtl rd k b) s = .next t ∧ Completed t ∧ DestinationFrame s t (.smulrtl rd k b) ∧ t.readA rd = v :=
  exec_gives_readA (exec_smulrtl s rd k b) (Laws.classH_inDomain hb hv)

theorem exec_smulwin_readA {v : AffineValue} (hv : smulWin (s.readF k) = some v) :
    ∃ t, exec (.smulwin rd k) s = .next t ∧ Completed t ∧ DestinationFrame s t (.smulwin rd k) ∧ t.readA rd = v :=
  exec_gives_readA (exec_smulwin s rd k) (congrArg Result.ofOption hv)

theorem exec_smulbit_readA {v : AffineValue} (hv : smulBit (s.readF k) = some v) :
    ∃ t, exec (.smulbit rd k) s = .next t ∧ Completed t ∧ DestinationFrame s t (.smulbit rd k) ∧ t.readA rd = v :=
  exec_gives_readA (exec_smulbit s rd k) (congrArg Result.ofOption hv)

end Sys2Proof.Machine

namespace Sys2Proof.Laws

open Sys2Proof.Machine

/-- Byte j of a scalar is what its bits from 8j up hold beside the bits from 8(j+1) up (R193). -/
theorem scalarByte_add (k : U256) (j : Nat) :
    256 * (k.toNat / 2 ^ (8 * (j + 1))) + scalarByte k j = k.toNat / 2 ^ (8 * j) := by
  rw [scalarByte, Nat.mul_succ, pow_add, ← Nat.div_div_eq_div_mul]
  exact Nat.div_add_mod _ _

section
variable [Fact (Nat.Prime Config.p)] (k : U256)

/-- SMULLTR multiplies (R191). -/
theorem smulLtr_standsFor {base : AffineValue} {B : curve.Point} (hb : base.StandsFor B) :
    ∃ v, smulLtr k base = some v ∧ v.StandsFor (k.toNat • B) := by
  have hs := ltrLoop_standsFor k hb 256 (acc := .inf) (A := 0) trivial
  rw [nsmul_zero, zero_add, Nat.mod_eq_of_lt k.isLt] at hs
  exact j2a_standsFor hs

/-- Bit i of the scalar, from the least significant end: the accumulator holds the multiple by the bits below i, and adding
2^i times the base where bit i is 1 gives the multiple by the bits up to i (R192, R194). -/
theorem addja_bit_standsFor {acc : JacobianValue} {q : AffineValue} {B : curve.Point} {i : Nat}
    (hacc : acc.StandsFor ((k.toNat % 2 ^ i) • B)) (hq : q.StandsFor (2 ^ i • B)) :
    (if k.getLsbD i then addja acc q else acc).StandsFor ((k.toNat % 2 ^ (i + 1)) • B) := by
  rw [Nat.mod_pow_succ, ← Nat.toNat_testBit, add_nsmul, mul_nsmul, BitVec.testBit_toNat]
  cases k.getLsbD i with
  | false => simpa using hacc
  | true => simpa using addja_standsFor hacc hq

/-- The loop of SMULRTL, its running value at 2^i times the base (R192). -/
theorem rtlLoop_standsFor {B : curve.Point} : ∀ (left i : Nat) {acc : JacobianValue} {run : AffineValue},
    acc.StandsFor ((k.toNat % 2 ^ i) • B) → run.StandsFor (2 ^ i • B) →
      ∃ r, rtlLoop k left i acc run = some r ∧ r.StandsFor ((k.toNat % 2 ^ (i + left)) • B) := by
  intro left
  induction left with
  | zero => exact fun i acc run hacc _ => ⟨acc, rfl, hacc⟩
  | succ left ih =>
    intro i acc run hacc hrun
    obtain ⟨next, e, hnext⟩ := dblaff_standsFor hrun
    rw [← two_nsmul, ← mul_nsmul, ← pow_succ] at hnext
    rw [rtlLoop, e, Option.bind_some, ← Nat.add_assoc, Nat.add_right_comm]
    exact ih (i + 1) (addja_bit_standsFor k hacc hrun) hnext

/-- SMULRTL multiplies (R192). -/
theorem smulRtl_standsFor {base : AffineValue} {B : curve.Point} (hb : base.StandsFor B) :
    ∃ v, smulRtl k base = some v ∧ v.StandsFor (k.toNat • B) := by
  obtain ⟨r, hr, hs⟩ := rtlLoop_standsFor k (B := B) 256 0 (acc := .inf) (run := base)
    (by rw [pow_zero, Nat.mod_one, zero_nsmul]; trivial) (by rw [pow_zero, one_nsmul]; exact hb)
  rw [Nat.zero_add, Nat.mod_eq_of_lt k.isLt] at hs
  rw [smulRtl, hr, Option.bind_some]
  exact j2a_standsFor hs

/-- Eight doublings multiply by 256 (R193). -/
theorem dbljEight_standsFor {acc : JacobianValue} {A : curve.Point} (h : acc.StandsFor A) :
    (dbljEight acc).StandsFor (256 • A) := by
  have h8 := dblj_standsFor <| dblj_standsFor <| dblj_standsFor <| dblj_standsFor <| dblj_standsFor <|
    dblj_standsFor <| dblj_standsFor <| dblj_standsFor h
  simp only [← two_nsmul, ← mul_nsmul, Nat.reduceMul] at h8
  exact h8

section
variable {G : curve.Point} (hG : baseG.StandsFor G)
include hG

/-- The loop of SMULWIN, from an accumulator that holds the multiple by the bytes from j up (R193). -/
theorem winLoop_standsFor : ∀ (j : Nat) {acc : JacobianValue}, acc.StandsFor ((k.toNat / 2 ^ (8 * j)) • G) →
    ∃ r, winLoop k j acc = some r ∧ r.StandsFor (k.toNat • G) := by
  intro j
  induction j with
  | zero => exact fun {acc} h => ⟨acc, rfl, by rwa [Nat.mul_zero, pow_zero, Nat.div_one] at h⟩
  | succ j ih =>
    intro acc h
    obtain ⟨q, e, hq⟩ := windowTable_standsFor hG (show scalarByte k j < 256 from Nat.mod_lt _ (by norm_num))
    have hs := addja_standsFor (dbljEight_standsFor h) hq
    rw [← mul_nsmul', ← add_nsmul, scalarByte_add] at hs
    rw [winLoop, e, Option.bind_some]
    exact ih hs

/-- SMULWIN multiplies G (R193). -/
theorem smulWin_standsFor : ∃ v, smulWin k = some v ∧ v.StandsFor (k.toNat • G) := by
  obtain ⟨r, hr, hs⟩ := winLoop_standsFor k hG 32 (acc := .inf)
    (by rw [Nat.div_eq_of_lt (show k.toNat < 2 ^ (8 * 32) from k.isLt), zero_nsmul]; trivial)
  rw [smulWin, hr, Option.bind_some]
  exact j2a_standsFor hs

/-- The loop of SMULBIT (R194). -/
theorem bitLoop_standsFor : ∀ (left i : Nat) {acc : JacobianValue}, i + left ≤ 256 →
    acc.StandsFor ((k.toNat % 2 ^ i) • G) →
      ∃ r, bitLoop k left i acc = some r ∧ r.StandsFor ((k.toNat % 2 ^ (i + left)) • G) := by
  intro left
  induction left with
  | zero => exact fun i acc _ hacc => ⟨acc, rfl, hacc⟩
  | succ left ih =>
    intro i acc hi hacc
    obtain ⟨q, e, hq⟩ := bitTable_standsFor hG (show i < 256 by omega)
    rw [bitLoop, e, Option.bind_some, ← Nat.add_assoc, Nat.add_right_comm]
    exact ih (i + 1) (by omega) (addja_bit_standsFor k hacc hq)

/-- SMULBIT multiplies G (R194). -/
theorem smulBit_standsFor : ∃ v, smulBit k = some v ∧ v.StandsFor (k.toNat • G) := by
  obtain ⟨r, hr, hs⟩ := bitLoop_standsFor k hG 256 0 (acc := .inf) (by norm_num)
    (by rw [pow_zero, Nat.mod_one, zero_nsmul]; trivial)
  rw [Nat.zero_add, Nat.mod_eq_of_lt k.isLt] at hs
  rw [smulBit, hr, Option.bind_some]
  exact j2a_standsFor hs

end
end

/-- Settles O56: each loop keeps its accumulator at a multiple by a part of the scalar, and n times G is the identity. -/
theorem scalarMultiplesAgree : Obligations.ScalarMultiplesAgree := by
  intro _ s rd k G hG
  refine ⟨fun b B hB => ?_, ?_, ?_, order_smul_baseG hG, fun m => by rw [add_nsmul, order_smul_baseG hG, add_zero]⟩
  · have hb := affine_inDomain_of_standsFor hB
    refine ⟨?_, ?_⟩
    · obtain ⟨v, hv, hs⟩ := smulLtr_standsFor (s.readF k) hB
      obtain ⟨t, he, hdone, -, hread⟩ := exec_smulltr_inDomain s rd k b hb hv
      exact ⟨t, he, hdone, by rw [hread]; exact hs⟩
    · obtain ⟨v, hv, hs⟩ := smulRtl_standsFor (s.readF k) hB
      obtain ⟨t, he, hdone, -, hread⟩ := exec_smulrtl_inDomain s rd k b hb hv
      exact ⟨t, he, hdone, by rw [hread]; exact hs⟩
  · obtain ⟨v, hv, hs⟩ := smulWin_standsFor (s.readF k) hG
    obtain ⟨t, he, hdone, -, hread⟩ := exec_smulwin_readA s rd k hv
    exact ⟨t, he, hdone, by rw [hread]; exact hs⟩
  · obtain ⟨v, hv, hs⟩ := smulBit_standsFor (s.readF k) hG
    obtain ⟨t, he, hdone, -, hread⟩ := exec_smulbit_readA s rd k hv
    exact ⟨t, he, hdone, by rw [hread]; exact hs⟩

end Sys2Proof.Laws
end

section
/-! PROOFS. The four scalar multiplications for every base in domain, on the curve or not, and at the scalars 0 and 1
(spec/45_scalar_mul.md R190 to R194). -/

namespace Sys2Proof.Laws

open Sys2Proof.Machine

/-- A2J then J2A gives the point back (R160, R161). -/
theorem j2a_a2j {q : AffineValue} (h : q.inDomain = true) : j2a (a2j q) = some q := by
  cases q with
  | inf => rfl
  | point x y =>
    exact j2a_eq_of_equations (a2j_inDomain h) h (by rw [residue_one, one_pow, mul_one])
      (by rw [residue_one, one_pow, mul_one])

theorem getLsbD_one_eq_false {j : Nat} (hj : 1 ≤ j) : (1 : U256).getLsbD j = false := by
  simp [BitVec.getLsbD_one]; omega

/-- The scalar 0 has no bit to add, and with base infinity what a bit adds is infinity. -/
theorem eq_inf_of_bit_set {k : U256} {base : AffineValue} (h : k = 0 ∨ base = .inf) {j : Nat} (hbit : k.getLsbD j = true) :
    base = .inf := by
  refine h.resolve_left fun h0 => ?_
  rw [h0, BitVec.ofNat_eq_ofNat, BitVec.getLsbD_zero] at hbit
  cases hbit

/-- A bit of the scalar that is 0, or whose addend is infinity, leaves the accumulator. -/
theorem addja_bit_stays {acc : JacobianValue} {q : AffineValue} {bit : Bool} (h : bit = true → q = .inf) :
    (if bit then addja acc q else acc) = acc := by
  cases bit with
  | false => rfl
  | true => rw [h rfl, addja_inf_right, if_pos rfl]

/-- While no bit of the scalar is 1, or with base infinity, SMULLTR's loop stays at infinity (R191). -/
theorem ltrLoop_stays_inf {k : U256} {base : AffineValue} : ∀ {i : Nat},
    (∀ j < i, k.getLsbD j = true → base = .inf) → ltrLoop k base i .inf = .inf := by
  intro i
  induction i with
  | zero => exact fun _ => rfl
  | succ i ih =>
    intro h
    rw [ltrLoop, dblj, addja_bit_stays (h i (Nat.lt_succ_self i))]
    exact ih fun j hj => h j (by omega)

/-- The scalar 1: only its last bit adds the base (R191). -/
theorem ltrLoop_one (base : AffineValue) (i : Nat) : ltrLoop 1 base (i + 1) .inf = a2j base := by
  induction i with
  | zero => exact addja_inf_left base
  | succ i ih =>
    rw [ltrLoop, dblj, getLsbD_one_eq_false (Nat.succ_pos i), if_neg Bool.false_ne_true]
    exact ih

theorem smulLtr_eq_inf {k : U256} {base : AffineValue} (h : k = 0 ∨ base = .inf) : smulLtr k base = some .inf := by
  rw [smulLtr, ltrLoop_stays_inf fun _ _ hbit => eq_inf_of_bit_set h hbit]
  rfl

theorem smulLtr_one {base : AffineValue} (hb : base.inDomain = true) : smulLtr 1 base = some base := by
  rw [smulLtr, ltrLoop_one base 255, j2a_a2j hb]

/-- While no bit of the scalar from i up is 1, or with the running value at infinity, SMULRTL's loop leaves its
accumulator (R192). -/
theorem rtlLoop_stays {k : U256} {acc : JacobianValue} : ∀ (left : Nat) {i : Nat} {run : AffineValue},
    run.inDomain = true → (∀ j, i ≤ j → k.getLsbD j = true → run = .inf) → rtlLoop k left i acc run = some acc := by
  intro left
  induction left with
  | zero => exact fun _ _ => rfl
  | succ left ih =>
    intro i run hr h
    obtain ⟨next, e, hnext⟩ := dblaff_total hr
    rw [rtlLoop, e, Option.bind_some, addja_bit_stays (h i (Nat.le_refl i))]
    refine ih hnext fun j hj hbit => ?_
    rw [h j (by omega) hbit] at e
    exact (Option.some.inj e).symm

theorem smulRtl_eq_inf {k : U256} {base : AffineValue} (hb : base.inDomain = true) (h : k = 0 ∨ base = .inf) :
    smulRtl k base = some .inf := by
  rw [smulRtl, rtlLoop_stays 256 hb fun _ _ hbit => eq_inf_of_bit_set h hbit]
  rfl

/-- The scalar 1: its first bit adds the base, and the doublings that follow change nothing of the result (R192). -/
theorem smulRtl_one {base : AffineValue} (hb : base.inDomain = true) : smulRtl 1 base = some base := by
  obtain ⟨next, e, hnext⟩ := dblaff_total hb
  have hstep : rtlLoop 1 (255 + 1) 0 .inf base = rtlLoop 1 255 1 (a2j base) next := by
    rw [rtlLoop, e, Option.bind_some, if_pos (by decide), addja_inf_left]
  rw [smulRtl, hstep, rtlLoop_stays 255 hnext fun j hj hbit => ?_, Option.bind_some, j2a_a2j hb]
  rw [getLsbD_one_eq_false hj] at hbit
  cases hbit

/-- A point is stood for by one value only (R25). -/
theorem AffineValue.eq_of_standsFor {q r : AffineValue} {P : curve.Point} (hq : q.StandsFor P) (hr : r.StandsFor P) :
    q = r := by
  cases P with
  | zero => rw [(AffineValue.eq_inf_iff hq).2 rfl, (AffineValue.eq_inf_iff hr).2 rfl]
  | some X Y hn =>
    cases q with
    | inf => cases hq
    | point x y =>
      cases r with
      | inf => cases hr
      | point u v =>
        obtain ⟨hx, hy, rfl, rfl⟩ := hq
        obtain ⟨hu, hv, eu, ev⟩ := hr
        rw [fieldElement_iff] at hx hy hu hv
        rw [residue_inj hu hx eu, residue_inj hv hy ev]

/-- A function that multiplies G by every scalar gives infinity at 0 and G itself at 1. -/
theorem multiplier_zero_one {f : U256 → Option AffineValue}
    (hf : ∀ [Fact (Nat.Prime Config.p)] (k : U256) {G : curve.Point}, baseG.StandsFor G →
      ∃ v, f k = some v ∧ v.StandsFor (k.toNat • G)) : f 0 = some .inf ∧ f 1 = some baseG := by
  have := fact_p_prime
  obtain ⟨G, hG⟩ := baseG_standsFor
  refine ⟨?_, ?_⟩
  · obtain ⟨v, hv, hs⟩ := hf 0 hG
    rw [hv, (AffineValue.eq_inf_iff hs).2 (zero_nsmul G)]
  · obtain ⟨v, hv, hs⟩ := hf 1 hG
    replace hs : v.StandsFor (1 • G) := hs
    rw [one_nsmul] at hs
    rw [hv, AffineValue.eq_of_standsFor hs hG]

/-- Settles O55: each function ends in domain, so its command completes with that value, and the scalars 0 and 1 are the
edges of its loop, or for the two table methods of the multiple it computes. -/
theorem scalarCommandsComplete : Obligations.ScalarCommandsComplete := by
  intro s rd k b
  refine ⟨⟨rfl, rfl, decodeWord_encode (.smulltr rd k b)⟩, ⟨rfl, rfl, decodeWord_encode (.smulrtl rd k b)⟩,
    ⟨rfl, rfl, decodeWord_encode (.smulwin rd k)⟩, ⟨rfl, rfl, decodeWord_encode (.smulbit rd k)⟩,
    fun hb => ⟨?_, ?_⟩, ?_, ?_⟩
  · obtain ⟨v, hv, hd⟩ := smulLtr_total (s.readF k) hb
    obtain ⟨t, he, hdone, hfr, rfl⟩ := exec_smulltr_inDomain s rd k b hb hv
    refine ⟨t, he, hdone, hfr, hv.symm, hd, fun h => Option.some.inj (hv.symm.trans (smulLtr_eq_inf h)), fun h => ?_⟩
    exact Option.some.inj (hv.symm.trans (by rw [h, smulLtr_one hb]))
  · obtain ⟨v, hv, hd⟩ := smulRtl_total (s.readF k) hb
    obtain ⟨t, he, hdone, hfr, rfl⟩ := exec_smulrtl_inDomain s rd k b hb hv
    refine ⟨t, he, hdone, hfr, hv.symm, hd, fun h => Option.some.inj (hv.symm.trans (smulRtl_eq_inf hb h)), fun h => ?_⟩
    exact Option.some.inj (hv.symm.trans (by rw [h, smulRtl_one hb]))
  · obtain ⟨v, hv, hd⟩ := smulWin_total (s.readF k)
    obtain ⟨hzero, hone⟩ := multiplier_zero_one smulWin_standsFor
    obtain ⟨t, he, hdone, hfr, rfl⟩ := exec_smulwin_readA s rd k hv
    exact ⟨t, he, hdone, hfr, hv.symm, hd, fun h => Option.some.inj (hv.symm.trans (by rw [h, hzero])),
      fun h => Option.some.inj (hv.symm.trans (by rw [h, hone]))⟩
  · obtain ⟨v, hv, hd⟩ := smulBit_total (s.readF k)
    obtain ⟨hzero, hone⟩ := multiplier_zero_one smulBit_standsFor
    obtain ⟨t, he, hdone, hfr, rfl⟩ := exec_smulbit_readA s rd k hv
    exact ⟨t, he, hdone, hfr, hv.symm, hd, fun h => Option.some.inj (hv.symm.trans (by rw [h, hzero])),
      fun h => Option.some.inj (hv.symm.trans (by rw [h, hone]))⟩

end Sys2Proof.Laws
end

section
/-! PROOFS. Offering a command, latching an error and acknowledging it: an access with a cause of R212 does what `raise`
does, any other event leaves ERR at 0 (spec/60_exceptions.md R210 to R213, R219, R220). -/

namespace Sys2Proof.Machine

variable {s t : State}

theorem State.offer_busy (hb : s.busy = true) (w : Word) : s.offer w = s.raise 2 w := by
  rw [State.offer, if_pos hb]

/-! The error latch (R213). -/

theorem State.raise_err (s : State) (code : BitVec 4) (info : Word) : (s.raise code info).err = true := by
  obtain ⟨-, e⟩ | ⟨h, e⟩ := s.raise_cases code info <;> rw [e]
  exact h

theorem State.irq_of_err (h : s.err = true) : s.irq = s.ie := by
  rw [State.irq, h, Bool.or_true, Bool.and_true]

theorem State.raise_ie (s : State) (code : BitVec 4) (info : Word) : (s.raise code info).ie = s.ie := by
  obtain ⟨-, e⟩ | ⟨-, e⟩ := s.raise_cases code info <;> rw [e]

theorem State.raise_busy (s : State) (code : BitVec 4) (info : Word) : (s.raise code info).busy = s.busy :=
  (CommandUndisturbed.raise s code info).busy

theorem State.raise_raise (s : State) (c1 c2 : BitVec 4) (i1 i2 : Word) : (s.raise c1 i1).raise c2 i2 = s.raise c1 i1 :=
  State.raise_of_latched (s.raise_err c1 i1) c2 i2

/-! The causes of an error (R212). -/

theorem State.writeCtrl_err (h : s.err = false) (v : Word) : (s.writeCtrl v).err = false := by
  unfold State.writeCtrl
  split
  · rfl
  · exact h

theorem Slot.ne_cmd_of_isData {slot : Slot} (h : slot.isData = true) : slot ≠ .cmd := by
  rintro rfl
  cases h

/-- The table of R212 against the effect of a write: a cause is raised as it stands in the table, and a write without one
does not set ERR. -/
theorem State.memWrite_errorCause (s : State) (off : Offset) (size : Nat) (v : Word) :
    (∃ code info, errorCause s (.write off size v) = some (code, info) ∧ (code = 1 ∨ code = 2 ∨ code = 3) ∧
      s.memWrite off v = s.raise code info) ∨
    (errorCause s (.write off size v) = none ∧ (s.err = false → (s.memWrite off v).err = false)) := by
  obtain ⟨hs, e⟩ | ⟨hs, e⟩ | ⟨hs, e⟩ | ⟨hd, hb, e⟩ | ⟨hd, hb, e⟩ | ⟨hd, hs, -, -, e⟩ := s.memWrite_cases off v <;> rw [e]
  · obtain ⟨hb, e⟩ | ⟨hb, ⟨r, hr⟩, e⟩ | ⟨hb, ⟨i, hi⟩, e⟩ := s.offer_cases v <;> rw [e]
    · exact Or.inl ⟨2, v, by simp [errorCause, hs, hb], by simp, rfl⟩
    · exact Or.inl ⟨1, v, by simp [errorCause, hs, hb, hr], by simp, rfl⟩
    · exact Or.inr ⟨by simp [errorCause, hs, hb, hi], id⟩
  · refine Or.inr ⟨by simp [errorCause, hs, Slot.isData], fun h => ?_⟩
    rw [State.writeStatus_eq, h]; rfl
  · exact Or.inr ⟨by simp [errorCause, hs, Slot.isData], fun h => State.writeCtrl_err h v⟩
  · exact Or.inl ⟨3, off.setWidth 32, by simp [errorCause, Slot.ne_cmd_of_isData hd, hd, hb], by simp, rfl⟩
  · obtain ⟨-, -, -, -, hk⟩ := s.storeSlot_frame v (slotAt off)
    exact Or.inr ⟨by simp [errorCause, Slot.ne_cmd_of_isData hd, hb], hk.err.trans⟩
  · exact Or.inr ⟨by simp [errorCause, hs, hd], id⟩

/-- An event with a cause of R212 has no effect but `raise` of that cause. -/
theorem handleEvent_of_errorCause {e : HostEvent} {code : BitVec 4} {info : Word} (hc : errorCause s e = some (code, info))
    (he : handleEvent e s = .next t) : t = s.raise code info ∧ (code = 1 ∨ code = 2 ∨ code = 3) := by
  cases e with
  | write off size v =>
    cases hostWrite_next he
    obtain ⟨c, i, hc', hcode, e⟩ | ⟨hn, -⟩ := s.memWrite_errorCause off size v
    · cases hc'.symm.trans hc; exact ⟨e, hcode⟩
    · cases hn.symm.trans hc
  | read | unitTurn | hwReset => cases hc

/-- An event without a cause of R212, a completion included, leaves ERR at 0. -/
theorem handleEvent_err_of_no_errorCause {e : HostEvent} (hc : errorCause s e = none) (h : s.err = false)
    (he : handleEvent e s = .next t) : t.err = false := by
  obtain ⟨n, xs, rfl⟩ | ⟨off, size, v, rfl, rfl⟩ | ⟨-, -, rfl⟩ | ⟨-, w, i, -, -, hx⟩ | ⟨-, rfl⟩ := handleEvent_next he
  · exact h
  · obtain ⟨code, info, hs, -⟩ | ⟨-, hk⟩ := s.memWrite_errorCause off size v
    · cases hc.symm.trans hs
    · exact hk h
  · exact h
  · exact (exec_next hx).1.control.err.trans h
  · rfl

/-! The unit's turn (R211, R220). -/

theorem step_unitTurn_running {w : Word} {i : Instr} {rest : List HostEvent} (hl : s.latch = some w)
    (hd : decodeWord w = .ok i) (hp : s.pending = .unitTurn :: rest) : step s = exec i { s with pending := rest } :=
  (step_cons hp).trans (unitTurn_running (s := { s with pending := rest }) hl hd)

/-- The event of a legal word written to CMD while idle is its acceptance (R210). -/
theorem handleEvent_write_cmd_legal {w : Word} {i : Instr} (hb : s.busy = false) (hd : decodeWord w = .ok i) :
    handleEvent (.write 0x004 4 w) s = .next (s.accept w) := by
  rw [← s.offer_legal hb hd, ← s.memWrite_cmd]
  exact hostWrite_wellFormed s w rfl

end Sys2Proof.Machine

namespace Sys2Proof.Laws

open Sys2Proof.Machine

/-- Settles O10: `raise` is the latch, an access with a cause of R212 is a `raise`, and acceptance leaves the latch. -/
theorem firstErrorLatchedLaterLost : Obligations.FirstErrorLatchedLaterLost := by
  intro s code info
  refine ⟨s.latchedError_raise code info, ?_, fun e t hc he => ?_, fun w i hb hd => ?_⟩
  · rw [State.irq_of_err (s.raise_err code info), s.raise_ie]
  · obtain ⟨rfl, -⟩ := handleEvent_of_errorCause hc he
    exact s.latchedError_raise code info
  · rw [State.memWrite_cmd, State.offer_legal _ ((s.raise_busy code info).trans hb) hd]
    exact ⟨rfl, s.raise_err code info, rfl⟩

/-- Settles O11: an event with a cause raises that cause, any other leaves ERR at 0. -/
theorem onlyThreeErrorCauses : Obligations.OnlyThreeErrorCauses := by
  intro s t e he
  refine ⟨fun code info hc => ?_, fun hc h => handleEvent_err_of_no_errorCause hc h he⟩
  obtain ⟨rfl, hcode⟩ := handleEvent_of_errorCause hc he
  exact ⟨s.latchedError_raise code info, hcode⟩

/-- Settles O6: a write to CMD offers the word, and each of the three premises picks one branch of the offer. -/
theorem offeredCommandAcceptedOrDropped : Obligations.OfferedCommandAcceptedOrDropped := by
  intro s w
  rw [State.memWrite_cmd]
  refine ⟨fun hb => ?_, fun hb ⟨r, hd⟩ => ?_, fun hb ⟨i, hd⟩ => ?_⟩
  · rw [State.offer_busy hb]; exact s.latchedError_raise 2 w
  · rw [s.offer_illegal hb hd]; exact s.latchedError_raise 1 w
  · rw [s.offer_legal hb hd]; exact ⟨rfl, rfl⟩

/-- Settles O7: the unit's turn, taken because nothing is pending or because it is next in the list. -/
theorem stepRunsLatchedCommand : Obligations.StepRunsLatchedCommand :=
  fun _ _ _ hl hd => ⟨fun hp => (step_nil hp).trans (unitTurn_running hl hd), fun _ => step_unitTurn_running hl hd⟩

/-- Settles O8: the write's step accepts the word, and the next step finds it latched. -/
theorem offeredWordRuns : Obligations.OfferedWordRuns := by
  intro s w i rest hb hd hp
  have hw : step s = .next ({ s with pending := .unitTurn :: rest }.accept w) :=
    (step_cons hp).trans (handleEvent_write_cmd_legal (s := { s with pending := .unitTurn :: rest }) hb hd)
  exact ⟨_, hw, rfl, rfl, step_unitTurn_running rfl hd rfl⟩

/-- Settles O17: the three acknowledgements by the fields of a write to STATUS; a full latch refuses the second error, the
cleared one takes the next. -/
theorem acknowledgeClearsExactly : Obligations.AcknowledgeClearsExactly := by
  intro s
  simp only [State.memWrite_status]
  refine ⟨?_, ?_, ?_, s.raise_raise, fun c i => ?_⟩
  · simp [State.writeStatus_eq]
  · simp [State.writeStatus_eq]
  · simp [State.writeStatus_eq]
  · have hclear : (s.writeStatus 0x4).err = false := by simp [State.writeStatus_eq]
    rw [State.raise_of_clear hclear]; exact ⟨rfl, rfl, rfl⟩

end Sys2Proof.Laws
end
